-- ==== Sys2Proof/Word.lean ====
section
/-! DEFINITION. The word types of HUFFTB: a register word, a byte value, a node index (R16). -/

namespace Sys2Proof

/-- A register or command word, bit 0 the least significant (R11, R22, R80). -/
abbrev Word := BitVec 32

/-- A byte value 0..255, the symbol of every table (R16, R82). -/
abbrev Byte := BitVec 8

/-- A node index 0..511, of which 0..510 name entries of the node store (R8, R83). -/
abbrev NodeIdx := BitVec 9

/-- The content of one frequency-table entry: FW bits of it are significant, FW ≤ 24 (R6). -/
abbrev Freq := BitVec 24

/-- The content of a node frequency: NFW = FW + 8 bits of it are significant, NFW ≤ 32 (R7). -/
abbrev NodeFreq := BitVec 32

end Sys2Proof
end

