-- ==== Sys2Proof/Machine/Types.lean ====
section
/-! DEFINITION. The plain data of the block's data model (10_state.md section 2): tree state, node,
code-table entry, the tree a BUILD computes, and the error codes. -/

namespace Sys2Proof.Machine

/-- The tree state TSTATE (R35). -/
inductive TState
  /-- 0: no tree corresponds to the current FREQ. -/
  | none
  /-- 1: BUILD ran and found no symbol. -/
  | empty
  /-- 2: BUILD ran and found exactly one symbol; the root is that leaf. -/
  | single
  /-- 3: BUILD ran and found two or more symbols; the root is an internal node. -/
  | multi
deriving DecidableEq, Repr, Inhabited

/-- One entry of the node store NODE (R36).  `left` and `right` mean something only when
`internal` holds. -/
structure Node where
  /-- The leaf's byte value, or an internal node's synthetic byte value. -/
  byte : Byte
  /-- The NFW-bit node frequency. -/
  freq : NodeFreq
  /-- 0 leaf, 1 internal. -/
  internal : Bool
  /-- Node index of the left child. -/
  left : NodeIdx
  /-- Node index of the right child. -/
  right : NodeIdx
deriving DecidableEq, Repr, Inhabited

/-- One byte's entry of the three code-table arrays (R38): CODE_USED, CODE_LEN, CODE_BITS. -/
structure CodeEntry where
  /-- CODE_USED: 0 is the sentinel meaning "unused". -/
  used : Bool
  /-- CODE_LEN, 0..255. -/
  len : BitVec 8
  /-- CODE_BITS: bit i is the i-th code bit from the root. -/
  bits : BitVec 256
deriving DecidableEq, Repr, Inhabited

/-- What one BUILD computes from FREQ (R131): the tree state, the written node-store entries in
index order, the tree registers and the code table. -/
structure BuiltTree where
  /-- TSTATE. -/
  tstate : TState
  /-- NODE[0 .. NCOUNT-1], in index order. -/
  nodes : List Node
  /-- ROOT. -/
  root : NodeIdx
  /-- NCOUNT. -/
  ncount : BitVec 9
  /-- LCOUNT. -/
  lcount : BitVec 9
  /-- The code table. -/
  codes : Vector CodeEntry 256
deriving DecidableEq, Repr

/-- The errors a command can raise (R200). -/
inductive ErrCode
  /-- 1: the word matches no row of R85 (R201). -/
  | illegalCmd
  /-- 2: the entry would exceed 2^FW − 1 (R203). -/
  | freqOverflow
  /-- 3: TSTATE = NONE (R202). -/
  | notBuilt
  /-- 4: the byte has no leaf (R204). -/
  | unusedSymbol
  /-- 5: the code string ended mid-path (R205). -/
  | truncatedCode
  /-- 6: a code bit for a single-leaf tree (R206). -/
  | degenerateBit
deriving DecidableEq, Repr

end Sys2Proof.Machine
end

