-- ==== Sys2Proof/Config.lean ====
section
/-! DEFINITION. What one HUFFTB fixes (00_scope.md section 4): the three model parameters FW, BASE
and BUS_SUBWORD, the fixed sizes, and the free values the spec leaves unspecified. -/

namespace Sys2Proof

/-- BUS_SUBWORD, the platform's answer to an access that is not an aligned 32-bit one (R10). -/
inductive BusSubword
  /-- The model has no step for the access (the default). -/
  | refuse
  /-- The access completes with a bus error the platform reports; no block state changes. -/
  | busError
deriving DecidableEq, Repr

/-- The model parameters (R6, R10, R15).  They are held in the state and no step changes them
(DESIGN CHOICE, log entry 4). -/
structure Params where
  /-- FW, the width in bits of one frequency-table entry, 1..24. -/
  fw : Nat
  /-- BASE, the address of offset 0 of the register window, a multiple of 256. -/
  base : Nat
  /-- BUS_SUBWORD. -/
  busSubword : BusSubword
deriving DecidableEq, Repr

/-- FW = 24 and REFUSE are the defaults of R6 and R10; BASE = 0 is a DESIGN CHOICE (log entry 4). -/
def Params.default : Params := { fw := 24, base := 0, busSubword := .refuse }

/-- NODE_CAP, the number of node-store entries (R8). -/
abbrev Config.nodeCap : Nat := 511

/-- MAXLEN, the longest code the code table holds (R9). -/
abbrev Config.maxLen : Nat := 255

/-- The constant ID register (R23). -/
abbrev Config.idValue : Word := 0x48554646#32

/-- FREE VALUE: the word a read of a register that is inexact while BUSY = 1 returns, one per draw
(R241, I11; log entry 2).  Nothing constrains it. -/
opaque Config.freeWord : Nat → Word

/-- FREE VALUE: the contents of a node-store entry that is not in use, by draw and index
(R36, R43, I15; log entry 3).  Nothing constrains it. -/
opaque Config.freeNode : Nat → Nat → Machine.Node

end Sys2Proof
end

