-- ==== Sys2Proof/Syntax.lean ====
section
/-! DEFINITION. The command set: one constructor of `Instr` per row of spec/opcode_table.json, and
the source form of a command (R90), the host's register names (R91) and bus operations (R61). -/

namespace Sys2Proof

/-- The twelve commands of R85 with their operands (R81–R84, R89). -/
inductive Instr
  /-- NOP, format N (R100). -/
  | nop
  /-- CLR_ERR, format N (R101). -/
  | clrErr
  /-- CLEAR_FREQ, format N (R110). -/
  | clearFreq
  /-- COUNT sym, format B (R111). -/
  | count (sym : Byte)
  /-- SET_FREQ sym, format B (R113). -/
  | setFreq (sym : Byte)
  /-- READ_FREQ sym, format B (R114). -/
  | readFreq (sym : Byte)
  /-- BUILD, format N (R131). -/
  | build
  /-- READ_NODE idx, format I (R140). -/
  | readNode (idx : NodeIdx)
  /-- ENCODE sym, format B (R160). -/
  | encode (sym : Byte)
  /-- DEC_RESET, format N (R171). -/
  | decReset
  /-- DEC_BIT bit, format T: false descends left, true right (R172). -/
  | decBit (bit : Bool)
  /-- DEC_END, format N (R173). -/
  | decEnd
deriving DecidableEq, Repr

/-- The mnemonics of R85. -/
inductive Mnemonic
  | nop | clrErr | clearFreq | count | setFreq | readFreq | build | readNode | encode
  | decReset | decBit | decEnd
deriving DecidableEq, Repr

/-- The mnemonic of an instruction (R85). -/
def Instr.mnemonic : Instr → Mnemonic
  | .nop => .nop
  | .clrErr => .clrErr
  | .clearFreq => .clearFreq
  | .count _ => .count
  | .setFreq _ => .setFreq
  | .readFreq _ => .readFreq
  | .build => .build
  | .readNode _ => .readNode
  | .encode _ => .encode
  | .decReset => .decReset
  | .decBit _ => .decBit
  | .decEnd => .decEnd

/-- The four command formats (R81–R84). -/
inductive Format
  /-- No operand. -/
  | N
  /-- Byte operand SYM. -/
  | B
  /-- Node index operand IDX. -/
  | I
  /-- Bit operand BIT. -/
  | T
deriving DecidableEq, Repr

/-- A source operand (R90): an integer, decimal or hexadecimal, or a character literal. -/
inductive Operand
  | int (n : Nat)
  | chr (c : Char)
deriving DecidableEq, Repr

/-- A command as written: its mnemonic and at most one operand (R90). -/
structure SourceCommand where
  mnemonic : Mnemonic
  operand : Option Operand
deriving DecidableEq, Repr

/-- The register names of R22. -/
inductive Reg
  | id | params | cmd | data | status | res0 | res1 | tree | walk
  /-- CODEWINk, k = 0..7. -/
  | codewin (k : Fin 8)
deriving DecidableEq, Repr

/-- The width of a bus access; only `word` is supported (R62). -/
inductive AccessWidth
  /-- 8 bits. -/
  | byte
  /-- 16 bits. -/
  | half
  /-- 32 bits, the one supported width. -/
  | word
  /-- 64 bits. -/
  | double
deriving DecidableEq, Repr

/-- A host operation (R61, R91).  `value` is the data of a 32-bit write; a write of another width
never reaches a register (R62), so its data are not held. -/
inductive HostOp
  /-- MemRead(addr, width). -/
  | read (addr : Nat) (width : AccessWidth)
  /-- MemWrite(addr, width, value). -/
  | write (addr : Nat) (width : AccessWidth) (value : Word)
  /-- `poll`: repeat `rd STATUS` until STATUS[0] = 0. -/
  | poll
deriving DecidableEq, Repr

/-- The three agents of R5. -/
inductive Agent
  | host | engine | reset
deriving DecidableEq, Repr

/-- What one host read, or one access answered by the platform, returned (R258, R10). -/
inductive BusReply
  /-- The word a read returned. -/
  | value (v : Word)
  /-- The platform's bus error for a BUS_SUBWORD access. -/
  | busError
deriving DecidableEq, Repr

end Sys2Proof
end

