-- ==== Sys2Proof/Machine/State.lean ====
section
/-! DEFINITION. The whole state of HUFFTB (10_state.md), the state after reset (R48), and the
reasons a step can stop. -/

namespace Sys2Proof.Machine

/-- HUFFTB has no fault: an error is a completion code in STATUS and nothing stops (R210, R212),
so no operation of the model raises one. -/
inductive Fault
deriving DecidableEq, Repr

/-- Why the model has no next state. -/
inductive Refusal
  /-- Raised by an arm of `exec` whose command has no meaning yet; safe.  No arm raises it. -/
  | notModelled (mnemonic : String)
  /-- Raised by a host access that starts outside the 256-byte window, also when it reaches into it:
  what lies there belongs to the platform (R67); safe (log entry 5). -/
  | outsideWindow
  /-- Raised by a host access inside the window that is not an aligned 32-bit access, when
  BUS_SUBWORD = REFUSE: the model has no step for it (R10, R62, R63); safe (log entry 6). -/
  | unsupportedAccess
deriving DecidableEq, Repr

/-- The state.  The first part is the block (R22, R34–R41); `params` are its parameters; the last
part is the outside world as plain data (R5, R91, R258) and the free-value counter. -/
structure State where
  /-- The parameters FW, BASE, BUS_SUBWORD; no step changes them. -/
  params : Params
  /-- DATA, the operand of SET_FREQ (R26). -/
  data : Word
  /-- RES0, the first result of a command (R28). -/
  res0 : Word
  /-- RES1, the second result of a command (R29). -/
  res1 : Word
  /-- CODEWIN0..7 as the one 256-bit window they form (R32). -/
  codewin : BitVec 256
  /-- FREQ[0..255] (R34). -/
  freq : Vector Freq 256
  /-- TSTATE (R35). -/
  tstate : TState
  /-- NODE[0..510] (R36). -/
  nodes : Vector Node 511
  /-- ROOT (R37). -/
  root : NodeIdx
  /-- NCOUNT (R37). -/
  ncount : BitVec 9
  /-- LCOUNT (R37). -/
  lcount : BitVec 9
  /-- CODE_USED, CODE_LEN and CODE_BITS of every byte (R38). -/
  codes : Vector CodeEntry 256
  /-- WALK_NODE (R39). -/
  walkNode : NodeIdx
  /-- WALK_DEPTH (R39). -/
  walkDepth : BitVec 8
  /-- PENDING; BUSY = 1 iff it is not `none` (R40). -/
  pending : Option Word
  /-- LAST_ERR (R41). -/
  lastErr : BitVec 8
  /-- ERR_STICKY (R41). -/
  errSticky : Bool
  /-- OVR (R41). -/
  ovr : Bool
  /-- SYM_VALID (R41). -/
  symValid : Bool
  /-- The host program's remaining operations, in order (R91, R258). -/
  host : List HostOp
  /-- Which agent makes each of the next steps; when it is used up the engine moves first, then
  the host (R5, R251; log entry 1). -/
  turns : List Agent
  /-- What the host's accesses returned, in order (R258). -/
  replies : List BusReply
  /-- How many free values have been drawn: the model's own counter (log entries 2 and 3). -/
  draw : Nat
deriving DecidableEq, Repr

/-- The all-zero code table: every byte unused (R38, R48). -/
def noCodes : Vector CodeEntry 256 := Vector.replicate 256 { used := false, len := 0, bits := 0 }

/-- The state right after reset (R48, R232).  The node store's contents are unspecified there and
are all zero by DESIGN CHOICE (log entry 3); the parameters are the defaults (log entry 4); the
host has no program and no schedule (log entry 14). -/
def State.reset : State where
  params := Params.default
  data := 0#32
  res0 := 0#32
  res1 := 0#32
  codewin := 0#256
  freq := Vector.replicate 256 0#24
  tstate := .none
  nodes := Vector.replicate 511 { byte := 0, freq := 0, internal := false, left := 0, right := 0 }
  root := 0#9
  ncount := 0#9
  lcount := 0#9
  codes := noCodes
  walkNode := 0#9
  walkDepth := 0#8
  pending := none
  lastErr := 0#8
  errSticky := false
  ovr := false
  symValid := false
  host := []
  turns := []
  replies := []
  draw := 0

end Sys2Proof.Machine
end

