-- ==== Sys2Proof/Machine/Ops.lean ====
section
/-! DEFINITION. The named operations every command is made of: completion and error entry (R45),
Invalidate (R43), and the reads and writes of FREQ, the node store and the code table. -/

namespace Sys2Proof.Machine

/-- The three outcomes of one step of HUFFTB. -/
abbrev Result := Host.Outcome State Fault Refusal

/-- code(E) (R200). -/
def ErrCode.code : ErrCode → BitVec 8
  | .illegalCmd => 1#8
  | .freqOverflow => 2#8
  | .notBuilt => 3#8
  | .unusedSymbol => 4#8
  | .truncatedCode => 5#8
  | .degenerateBit => 6#8

/-- `complete(emitted)` of R45: the command ends without error. -/
def complete (emitted : Bool) (s : State) : State :=
  { s with lastErr := 0#8, symValid := emitted }

/-- `raise E` of R45: the command ends with error E and writes only the error fields.  This is the
whole of error entry: no state is saved, no mode changes, no control is transferred, and there is
no return (R210, R212). -/
def raise (e : ErrCode) (s : State) : State :=
  { s with lastErr := e.code, errSticky := true, symValid := false }

/-- FREQ[b] (R13, R34). -/
def State.freqAt (s : State) (b : Byte) : Freq := s.freq[b.toNat]'b.isLt

/-- FREQ[b] <- v (R13). -/
def State.setFreqAt (s : State) (b : Byte) (v : Freq) : State :=
  { s with freq := s.freq.set b.toNat v b.isLt }

/-- CODE_USED[b], CODE_LEN[b], CODE_BITS[b] (R38). -/
def State.codeAt (s : State) (b : Byte) : CodeEntry := s.codes[b.toNat]'b.isLt

/-- NODE[i] (R13, R36).  Index 511 names no entry (R8); what it would read is a free value, and no
command reads it in a reachable state (log entry 9). -/
def State.nodeAt (s : State) (i : NodeIdx) : Node :=
  if h : i.toNat < 511 then s.nodes[i.toNat] else Config.freeNode s.draw i.toNat

/-- An entry is in use iff its index is below NCOUNT and TSTATE is SINGLE or MULTI (R36). -/
def State.inUse (s : State) (i : NodeIdx) : Bool :=
  (s.tstate == .single || s.tstate == .multi) && decide (i < s.ncount)

/-- The vector whose entry i is `f i`. -/
def tabulate {α : Type} (n : Nat) (f : Fin n → α) : Vector α n :=
  ⟨⟨List.ofFn f⟩, List.length_ofFn⟩

/-- The node store that holds `written` at indices 0, 1, …, and unspecified contents in every other
entry (R36; log entry 3). -/
def storeOf (draw : Nat) (written : List Node) : Vector Node 511 :=
  tabulate 511 fun i => written.getD i.val (Config.freeNode draw i.val)

/-- Invalidate() (R43). -/
def invalidate (s : State) : State :=
  { s with
    tstate := .none
    root := 0#9
    ncount := 0#9
    lcount := 0#9
    walkNode := 0#9
    walkDepth := 0#8
    codes := noCodes
    nodes := storeOf s.draw []
    draw := s.draw + 1 }

/-- Load the tree a BUILD computed, and put the walk at its root (R131). -/
def loadTree (t : BuiltTree) (s : State) : State :=
  { s with
    tstate := t.tstate
    root := t.root
    ncount := t.ncount
    lcount := t.lcount
    walkNode := t.root
    walkDepth := 0#8
    codes := t.codes
    nodes := storeOf s.draw t.nodes
    draw := s.draw + 1 }

/-- WALK_NODE <- ROOT; WALK_DEPTH <- 0 (R131, R171, R172). -/
def walkToRoot (s : State) : State :=
  { s with walkNode := s.root, walkDepth := 0#8 }

end Sys2Proof.Machine
end

