-- ==== Sys2Proof/Machine/Operands.lean ====
section
/-! DEFINITION. The operand and result forms: the FW bound on a frequency operand (R6, R111, R113),
the packing of a node into RES0 (R140), and the bits of a code (R12, R134). -/

namespace Sys2Proof.Machine

/-- The largest value a frequency-table entry holds, 2^FW − 1 (R6). -/
def freqMax (p : Params) : Nat := 2 ^ p.fw - 1

/-- DATA ≥ 2^FW, the check of SET_FREQ (R113). -/
def State.dataTooLarge (s : State) : Bool := decide (2 ^ s.params.fw ≤ s.data.toNat)

/-- FREQ[sym] = 2^FW − 1, the check of COUNT (R111). -/
def State.freqFull (s : State) (sym : Byte) : Bool :=
  (s.freqAt sym).toNat == freqMax s.params

/-- f[FW-1:0] for a DATA that passed the check of SET_FREQ (R113): it fits the entry. -/
def State.dataAsFreq (s : State) : Freq := s.data.setWidth 24

/-- The RES0 form of a node in use (R140): [7:0] BYTE, [8] INTERNAL, [9] IN_USE = 1, [18:10] LEFT,
[27:19] RIGHT, [31:28] 0. -/
def Node.packed (e : Node) : Word :=
  (e.right ++ e.left ++ 1#1 ++ BitVec.ofBool e.internal ++ e.byte).setWidth 32

/-- The sum of p_j * 2^j over the bits of a path, p_0 first from the root (R134). -/
def pathNat : List Bool → Nat
  | [] => 0
  | b :: p => b.toNat + 2 * pathNat p

/-- The code-table entry of a leaf at path `p` (R134). -/
def codeOfPath (p : List Bool) : CodeEntry :=
  { used := true, len := BitVec.ofNat 8 p.length, bits := BitVec.ofNat 256 (pathNat p) }

/-- The code an entry holds, first bit from the root first (R12, R38). -/
def CodeEntry.path (c : CodeEntry) : List Bool :=
  (List.range c.len.toNat).map fun i => c.bits.getLsbD i

end Sys2Proof.Machine
end

