-- ==== Sys2Proof/Machine/Flags.lean ====
section
/-! DEFINITION. The flags and the registers composed of fields: STATUS (R27), TREE (R30), WALK
(R31), PARAMS (R24) and the CODEWIN words (R32). -/

namespace Sys2Proof.Machine

/-- BUSY = 1 iff PENDING is not none (R40). -/
def State.busy (s : State) : Bool := s.pending.isSome

/-- AT_ROOT = (WALK_DEPTH = 0) (R39). -/
def State.atRoot (s : State) : Bool := s.walkDepth == 0#8

/-- The two bits of STATUS[2:1] (R35). -/
def TState.bits : TState → BitVec 2
  | .none => 0#2
  | .empty => 1#2
  | .single => 2#2
  | .multi => 3#2

/-- STATUS (R27): [0] BUSY, [2:1] TSTATE, [3] SYM_VALID, [4] AT_ROOT, [5] ERR_STICKY, [6] OVR,
[7] 0, [15:8] LAST_ERR, [31:16] 0. -/
def State.statusWord (s : State) : Word :=
  (s.lastErr ++ 0#1 ++ BitVec.ofBool s.ovr ++ BitVec.ofBool s.errSticky ++
    BitVec.ofBool s.atRoot ++ BitVec.ofBool s.symValid ++ s.tstate.bits ++
    BitVec.ofBool s.busy).setWidth 32

/-- TREE = zext_32 of LCOUNT, NCOUNT, ROOT, the first in the most significant bits (R30). -/
def State.treeWord (s : State) : Word := (s.lcount ++ s.ncount ++ s.root).setWidth 32

/-- WALK: [8:0] WALK_NODE, [16:9] WALK_DEPTH (R31). -/
def State.walkWord (s : State) : Word := (s.walkDepth ++ s.walkNode).setWidth 32

/-- PARAMS: [7:0] FW, [15:8] MAXLEN, [24:16] NODE_CAP (R24). -/
def State.paramsWord (s : State) : Word :=
  (BitVec.ofNat 9 Config.nodeCap ++ BitVec.ofNat 8 Config.maxLen ++
    BitVec.ofNat 8 s.params.fw).setWidth 32

/-- CODEWINk: bits [32k+31 : 32k] of the window (R32). -/
def State.codewinWord (s : State) (k : Fin 8) : Word := s.codewin.extractLsb' (32 * k.val) 32

end Sys2Proof.Machine
end

