-- ==== Sys2Proof/Machine/Bus.lean ====
section
/-! DEFINITION. The host agent of R5: the register window (R22, R61–R66), the reads while busy
(R241), the dropped writes (R240), and one step of a host program (R91). -/

namespace Sys2Proof.Machine

/-- The register at a word-aligned offset; `none` is a reserved offset (R22). -/
def regAt (off : Nat) : Option Reg :=
  if off = 0x00 then some .id
  else if off = 0x04 then some .params
  else if off = 0x08 then some .cmd
  else if off = 0x0C then some .data
  else if off = 0x10 then some .status
  else if off = 0x14 then some .res0
  else if off = 0x18 then some .res1
  else if off = 0x1C then some .tree
  else if off = 0x20 then some .walk
  else if 0x40 ≤ off ∧ off ≤ 0x5C ∧ off % 4 = 0 then some (.codewin (Fin.ofNat 8 ((off - 0x40) / 4)))
  else none

/-- offset(REG) (R22, R91). -/
def regOffset : Reg → Nat
  | .id => 0x00
  | .params => 0x04
  | .cmd => 0x08
  | .data => 0x0C
  | .status => 0x10
  | .res0 => 0x14
  | .res1 => 0x18
  | .tree => 0x1C
  | .walk => 0x20
  | .codewin k => 0x40 + 4 * k.val

/-- What a read of the register returns while BUSY = 0 (R23–R32). -/
def State.regWord (s : State) : Reg → Word
  | .id => Config.idValue
  | .params => s.paramsWord
  | .cmd => 0#32
  | .data => s.data
  | .status => s.statusWord
  | .res0 => s.res0
  | .res1 => s.res1
  | .tree => s.treeWord
  | .walk => s.walkWord
  | .codewin k => s.codewinWord k

/-- The bits of a register that a read returns exactly even while BUSY = 1 (R241): all of ID,
PARAMS, CMD and DATA, and BUSY and OVR of STATUS. -/
def exactMask : Reg → Word
  | .id | .params | .cmd | .data => BitVec.allOnes 32
  | .status => 0x00000041#32
  | .res0 | .res1 | .tree | .walk | .codewin _ => 0#32

/-- The word with the bits of `free` wherever the mask has 0. -/
def mixFree (mask exact free : Word) : Word := (exact &&& mask) ||| (free &&& ~~~mask)

/-- ReadReg(off) (R61, R33, R241): the value read. -/
def readReg (off : Nat) (s : State) : Word :=
  match regAt off with
  | none => 0#32
  | some r =>
    if s.busy then mixFree (exactMask r) (s.regWord r) (Config.freeWord s.draw) else s.regWord r

/-- A read changes no block state (R66): it adds its value to what the host has read, and a read
while BUSY = 1 uses up one free draw (R241; log entry 2). -/
def hostRead (off : Nat) (s : State) : State :=
  { s with
    replies := s.replies ++ [.value (readReg off s)]
    draw := if s.busy then s.draw + 1 else s.draw }

/-- WriteReg(off, v) (R61): only CMD (R25) and DATA (R26) have an effect, and while BUSY = 1 a
write to them is dropped and sets OVR (R240). -/
def writeReg (off : Nat) (v : Word) (s : State) : State :=
  match regAt off with
  | some .cmd => if s.busy then { s with ovr := true } else { s with pending := some v }
  | some .data => if s.busy then { s with ovr := true } else { s with data := v }
  | _ => s

/-- What an access is to the window: outside it (R67), not an aligned 32-bit access (R62, R63), or
an access to the register at an offset. -/
inductive AccessKind
  | outside
  | unsupported
  | register (off : Nat)
deriving DecidableEq, Repr

/-- The classification of an access at an address (R15, R61–R63, R67).  DESIGN CHOICE (log entries 5
and 6): where an access lies is decided by its first address alone, of which the spec says nothing for
an access that crosses an edge of the window.  One that starts below BASE and reaches into the window is
outside it, under either value of BUS_SUBWORD; one that starts inside and runs past the end is in it. -/
def classify (p : Params) (addr : Nat) (width : AccessWidth) : AccessKind :=
  if addr < p.base ∨ p.base + 256 ≤ addr then .outside
  else if width = .word ∧ (addr - p.base) % 4 = 0 then .register (addr - p.base)
  else .unsupported

/-- An access by the host (R10, R61–R63, R67): `access` is its effect when it reaches a register. -/
def busAccess (addr : Nat) (width : AccessWidth) (access : Nat → State → State) (s : State) :
    Result :=
  match classify s.params addr width with
  | .outside => .refused .outsideWindow
  | .register off => .next (access off s)
  | .unsupported =>
    match s.params.busSubword with
    | .refuse => .refused .unsupportedAccess
    | .busError => .next { s with replies := s.replies ++ [.busError] }

/-- The host's step: perform the next operation of its program; an ended program does nothing
(R91, R258).  `poll` reads STATUS and stays the next operation while that read shows BUSY = 1;
bit 0 of the read is BUSY exactly, even while busy (R241; `readReg_status_busy` in Laws). -/
def hostStep (s : State) : Result :=
  match s.host with
  | [] => .next s
  | .read addr width :: rest => busAccess addr width hostRead { s with host := rest }
  | .write addr width v :: rest =>
    busAccess addr width (fun off t => writeReg off v t) { s with host := rest }
  | .poll :: rest =>
    .next (hostRead (regOffset .status)
      { s with
        host := if s.busy then s.host else rest })

end Sys2Proof.Machine
end

