-- ==== Sys2Proof/WellFormed.lean ====
section
/-! DEFINITION. The checks on what is given to the machine from outside: a command as written
(R90), the model parameters (R6, R15), and a byte list that is to be one command word (R80).
The operands of `Instr` have exactly the width of their fields (R82–R84), so every `Instr` is
well-formed by its type. -/

namespace Sys2Proof

/-- The format of each command (R85). -/
def Mnemonic.format : Mnemonic → Format
  | .nop | .clrErr | .clearFreq | .build | .decReset | .decEnd => .N
  | .count | .setFreq | .readFreq | .encode => .B
  | .readNode => .I
  | .decBit => .T

/-- The number of values an operand of the format may take (R82–R84); format N takes none. -/
def Format.operandBound : Format → Nat
  | .N => 0
  | .B => 256
  | .I => 512
  | .T => 2

/-- The number an operand stands for; a character stands for its code (R90; PRESUMED ASCII, K1,
log entry 17).  DESIGN CHOICE (log entry 17): a character with no ASCII code, of which R90 gives no
value, stands for its Unicode number. -/
def Operand.value : Operand → Nat
  | .int n => n
  | .chr c => c.toNat

/-- R90: format N takes no operand, every other format exactly one, and the operand lies inside
its field.  DESIGN CHOICE (log entry 17): a character with no ASCII code is measured by its Unicode
number like any other operand, so 128 to 255 is accepted as SYM and as IDX, 256 to 511 as IDX only, and
above that none. -/
def SourceCommand.wf (c : SourceCommand) : Bool :=
  match c.operand with
  | none => c.mnemonic.format == .N
  | some x => c.mnemonic.format != .N && decide (x.value < c.mnemonic.format.operandBound)

/-- R6: FW is 1 to 24.  R15: BASE is a multiple of 256. -/
def Params.wf (p : Params) : Bool :=
  decide (1 ≤ p.fw) && decide (p.fw ≤ 24) && p.base % 256 == 0

end Sys2Proof
end

