-- ==== Sys2Proof/Decode.lean ====
section
/-! DEFINITION. Decoding a command word (R85–R87, R89), the encoder (R81–R85), the assembler
(R90), the byte lanes of a word (R64), and the host's entry to the decoder. -/

namespace Sys2Proof

/-- Why a word is no command (R87). -/
inductive IllegalWord
  /-- (a) Its OP is not one of the twelve values of R85. -/
  | unassignedOp
  /-- (b) Its OP is assigned but a reserved bit of its format is set. -/
  | reservedBit
deriving DecidableEq, Repr

/-- One row of R85: a word w is the command iff w & mask = match. -/
structure OpRow where
  mnemonic : Mnemonic
  pattern : Word
  mask : Word
deriving DecidableEq, Repr

/-- The opcode map (R85). -/
def opcodeTable : List OpRow :=
  [ ⟨.nop,       0x00000000#32, 0xFFFFFFFF#32⟩,
    ⟨.clrErr,    0x01000000#32, 0xFFFFFFFF#32⟩,
    ⟨.clearFreq, 0x10000000#32, 0xFFFFFFFF#32⟩,
    ⟨.count,     0x11000000#32, 0xFFFFFF00#32⟩,
    ⟨.setFreq,   0x12000000#32, 0xFFFFFF00#32⟩,
    ⟨.readFreq,  0x13000000#32, 0xFFFFFF00#32⟩,
    ⟨.build,     0x20000000#32, 0xFFFFFFFF#32⟩,
    ⟨.readNode,  0x21000000#32, 0xFFFFFE00#32⟩,
    ⟨.encode,    0x30000000#32, 0xFFFFFF00#32⟩,
    ⟨.decReset,  0x40000000#32, 0xFFFFFFFF#32⟩,
    ⟨.decBit,    0x41000000#32, 0xFFFFFFFE#32⟩,
    ⟨.decEnd,    0x42000000#32, 0xFFFFFFFF#32⟩ ]

/-- w matches the row (R85). -/
def OpRow.hits (r : OpRow) (w : Word) : Bool := w &&& r.mask == r.pattern

/-- OP = w[31:24] (R80). -/
def opOf (w : Word) : BitVec 8 := w.extractLsb' 24 8

/-- SYM = w[7:0] (R89). -/
def symOf (w : Word) : Byte := w.extractLsb' 0 8

/-- IDX = w[8:0] (R89). -/
def idxOf (w : Word) : NodeIdx := w.extractLsb' 0 9

/-- BIT = w[0] (R89). -/
def bitOf (w : Word) : Bool := w.getLsbD 0

/-- The command of a row with the operand fields taken from the word (R89). -/
def Mnemonic.withFieldsOf (m : Mnemonic) (w : Word) : Instr :=
  match m with
  | .nop => .nop
  | .clrErr => .clrErr
  | .clearFreq => .clearFreq
  | .count => .count (symOf w)
  | .setFreq => .setFreq (symOf w)
  | .readFreq => .readFreq (symOf w)
  | .build => .build
  | .readNode => .readNode (idxOf w)
  | .encode => .encode (symOf w)
  | .decReset => .decReset
  | .decBit => .decBit (bitOf w)
  | .decEnd => .decEnd

/-- Decoding, total: the row the word matches, or the kind of illegal word it is (R86, R87). -/
def decode (w : Word) : Except IllegalWord Instr :=
  match opcodeTable.find? (·.hits w) with
  | some r => .ok (r.mnemonic.withFieldsOf w)
  | none =>
    if opcodeTable.any (fun r => opOf r.pattern == opOf w) then .error .reservedBit
    else .error .unassignedOp

/-- The OP value of each command (R85). -/
def Mnemonic.op : Mnemonic → BitVec 8
  | .nop => 0x00#8
  | .clrErr => 0x01#8
  | .clearFreq => 0x10#8
  | .count => 0x11#8
  | .setFreq => 0x12#8
  | .readFreq => 0x13#8
  | .build => 0x20#8
  | .readNode => 0x21#8
  | .encode => 0x30#8
  | .decReset => 0x40#8
  | .decBit => 0x41#8
  | .decEnd => 0x42#8

/-- OP << 24 | operand (R90). -/
def commandWord (op : BitVec 8) (operand : Word) : Word := op.setWidth 32 <<< 24 ||| operand

/-- The operand field of an instruction, zero-extended; every reserved bit is 0 (R81–R84). -/
def Instr.operandWord : Instr → Word
  | .nop | .clrErr | .clearFreq | .build | .decReset | .decEnd => 0#32
  | .count sym | .setFreq sym | .readFreq sym | .encode sym => sym.setWidth 32
  | .readNode idx => idx.setWidth 32
  | .decBit bit => if bit then 1#32 else 0#32

/-- The command word of an instruction, from the formats R81–R84 and the OP values of R85. -/
def encode (i : Instr) : Word := commandWord i.mnemonic.op i.operandWord

/-- R90: the assembler refuses a command that is not well-formed and never truncates an operand;
the word is OP << 24 | operand. -/
def assemble (c : SourceCommand) : Option Word :=
  if c.wf then
    some (commandWord c.mnemonic.op (BitVec.ofNat 32 ((c.operand.map Operand.value).getD 0)))
  else none

/-- Byte lane k of a word: lane 0 holds bits [7:0], lane 3 bits [31:24] (R64). -/
def laneByte (w : Word) (k : Nat) : Byte := w.extractLsb' (8 * k) 8

/-- The word whose byte lanes are b0 (offset+0) to b3 (offset+3), little-endian (R64). -/
def wordOfLanes (b0 b1 b2 b3 : Byte) : Word := b3 ++ b2 ++ b1 ++ b0

/-- Decoding the bytes of one command word in lane order; a command is exactly one 32-bit word,
so no other number of bytes is a command (R80). -/
def decodeBytes : List Byte → Option (Except IllegalWord Instr)
  | [b0, b1, b2, b3] => some (decode (wordOfLanes b0 b1 b2 b3))
  | _ => none

/-- The instruction the decoder reads from an instruction of `nbits` bits whose bits are `w`,
bit 0 the least significant of its one word (R80); the bits above `nbits` are 0. -/
def decodeTableWord (nbits w : Nat) : Option Instr :=
  let v : Word := BitVec.ofNat 32 (w % 2 ^ nbits)
  match decodeBytes [laneByte v 0, laneByte v 1, laneByte v 2, laneByte v 3] with
  | some (.ok i) => some i
  | _ => none

end Sys2Proof
end

