-- ==== Sys2Proof/Machine/Control.lean ====
section
/-! DEFINITION. The control commands NOP and CLR_ERR (41_control.md). -/

namespace Sys2Proof.Machine

/-- NOP (R100). -/
def execNop (s : State) : Result := .next (complete false s)

/-- CLR_ERR (R101). -/
def execClrErr (s : State) : Result :=
  .next (complete false { s with errSticky := false, ovr := false })

end Sys2Proof.Machine
end

