-- ==== Sys2Proof/Machine/Decoder.lean ====
section
/-! DEFINITION. The decoder commands DEC_RESET, DEC_BIT and DEC_END (45_decoder.md). -/

namespace Sys2Proof.Machine

/-- DEC_RESET (R171). -/
def execDecReset (s : State) : Result :=
  if s.tstate = .none then .next (raise .notBuilt s)
  else .next (complete false (walkToRoot s))

/-- The child of node e that a code bit selects: 0 left, 1 right (R172). -/
def Node.child (e : Node) (bit : Bool) : NodeIdx := if bit then e.right else e.left

/-- One walk step of DEC_BIT on a MULTI tree (R172): move to an internal child, or emit the byte of
a leaf and return to the root. -/
def walkBit (bit : Bool) (s : State) : State :=
  let ch := (s.nodeAt s.walkNode).child bit
  if (s.nodeAt ch).internal then
    complete false { s with walkNode := ch, walkDepth := s.walkDepth + 1#8 }
  else complete true (walkToRoot { s with res0 := (s.nodeAt ch).byte.setWidth 32 })

/-- DEC_BIT bit (R172). -/
def execDecBit (bit : Bool) (s : State) : Result :=
  match s.tstate with
  | .none => .next (raise .notBuilt s)
  | .single => .next (raise .degenerateBit s)
  | .empty => .next (complete false s)
  | .multi => .next (walkBit bit s)

/-- DEC_END (R173). -/
def execDecEnd (s : State) : Result :=
  match s.tstate with
  | .none => .next (raise .notBuilt s)
  | .single =>
    .next (complete false
      { s with
        res0 := (s.nodeAt s.root).byte.setWidth 32
        res1 := (s.nodeAt s.root).freq })
  | .empty => .next (complete false { s with res0 := 0#32, res1 := 0#32 })
  | .multi =>
    if s.walkDepth = 0#8 then .next (complete false { s with res0 := 0#32, res1 := 0#32 })
    else .next (raise .truncatedCode s)

end Sys2Proof.Machine
end

