-- ==== Sys2Proof/Machine/Encoder.lean ====
section
/-! DEFINITION. The encoder command ENCODE (44_encoder.md). -/

namespace Sys2Proof.Machine

/-- ENCODE sym (R160). -/
def execEncode (sym : Byte) (s : State) : Result :=
  if s.tstate = .none then .next (raise .notBuilt s)
  else if (s.codeAt sym).used = false then .next (raise .unusedSymbol s)
  else
    .next (complete false
      { s with res0 := (s.codeAt sym).len.setWidth 32, codewin := (s.codeAt sym).bits })

end Sys2Proof.Machine
end

