-- ==== Sys2Proof/Machine/Frequency.lean ====
section
/-! DEFINITION. The frequency-table commands CLEAR_FREQ, COUNT, SET_FREQ and READ_FREQ
(42_frequency.md). -/

namespace Sys2Proof.Machine

/-- The frequency table of an empty input (R110). -/
def clearedFreq : Vector Freq 256 := Vector.replicate 256 0#24

/-- CLEAR_FREQ (R110). -/
def execClearFreq (s : State) : Result :=
  .next (complete false (invalidate { s with freq := clearedFreq }))

/-- COUNT sym (R111). -/
def execCount (sym : Byte) (s : State) : Result :=
  if s.freqFull sym then .next (raise .freqOverflow s)
  else .next (complete false (invalidate (s.setFreqAt sym (s.freqAt sym + 1#24))))

/-- SET_FREQ sym: the frequency is DATA, read when EXEC runs (R113). -/
def execSetFreq (sym : Byte) (s : State) : Result :=
  if s.dataTooLarge then .next (raise .freqOverflow s)
  else .next (complete false (invalidate (s.setFreqAt sym s.dataAsFreq)))

/-- READ_FREQ sym (R114). -/
def execReadFreq (sym : Byte) (s : State) : Result :=
  .next (complete false { s with res0 := (s.freqAt sym).setWidth 32 })

end Sys2Proof.Machine
end

