-- ==== Sys2Proof/Machine/TreeBuilder.lean ====
section
/-! DEFINITION. The tree builder (43_tree_builder.md): leaf creation, Merge, GenCodes, and the
commands BUILD and READ_NODE. -/

namespace Sys2Proof.Machine

/-- The leaf of byte b with frequency f (R130). -/
def leafNode (b : Byte) (f : Freq) : Node :=
  { byte := b, freq := f.setWidth 32, internal := false, left := 0#9, right := 0#9 }

/-- Leaf creation: one leaf per byte with a non-zero frequency, in ascending byte order (R130). -/
def leafNodes (freq : Vector Freq 256) : List Node :=
  freq.toList.zipIdx.filterMap fun (f, b) =>
    if f = 0#24 then none else some (leafNode (BitVec.ofNat 8 b) f)

/-- key(a) < key(b): frequency first, then byte value, both unsigned (R14). -/
def Node.keyLt (a b : Node) : Bool :=
  decide (a.freq < b.freq) || (a.freq == b.freq && decide (a.byte < b.byte))

/-- NODE[i] of the entries written so far.  BUILD reads only written entries, so the default is
never the result (log entry 13). -/
def builtNode (nodes : List Node) (i : Nat) : Node := nodes.getD i default

/-- Of two indices the one with the smaller key. -/
def smallerOf (nodes : List Node) (i j : Nat) : Nat :=
  if (builtNode nodes j).keyLt (builtNode nodes i) then j else i

/-- The i in W with the smallest key(i) (R133).  Keys in W are distinct (R135), so the order of W
does not matter; W is never empty where it is used (log entry 13). -/
def smallest (nodes : List Node) : List Nat → Nat
  | [] => 0
  | i :: rest => rest.foldl (smallerOf nodes) i

/-- The internal node over children l and r of merged nodes a and c, NODE[l].byte the smaller
byte value (R133). -/
def parentOf (nodes : List Node) (a c : Nat) : Node :=
  let l := if (builtNode nodes a).byte < (builtNode nodes c).byte then a else c
  let r := if (builtNode nodes a).byte < (builtNode nodes c).byte then c else a
  { byte := (builtNode nodes l).byte
    freq := (builtNode nodes a).freq + (builtNode nodes c).freq
    internal := true
    left := BitVec.ofNat 9 l
    right := BitVec.ofNat 9 r }

/-- The loop of Merge (R133): while W has two members, merge the two of smallest key into the next
free entry.  Each turn makes W one shorter, so |W| turns are enough (`fuel`). -/
def mergeLoop : Nat → List Node → List Nat → List Node × List Nat
  | 0, nodes, w => (nodes, w)
  | fuel + 1, nodes, w =>
    if 2 ≤ w.length then
      let a := smallest nodes w
      let wa := w.erase a
      let c := smallest nodes wa
      mergeLoop fuel (nodes ++ [parentOf nodes a c]) (wa.erase c ++ [nodes.length])
    else (nodes, w)

/-- Merge(n) over the n leaves: the written entries, and the sole element of W (R133). -/
def mergeAll (leaves : List Node) : List Node × Nat :=
  let m := mergeLoop leaves.length leaves (List.range leaves.length)
  (m.1, m.2.headD 0)

/-- Visit(i, p) of R134: the byte and path of every leaf below node i, left before right.  A path
is shorter than the number of entries, so `fuel` = that number is enough (log entry 13). -/
def visit (nodes : List Node) : Nat → Nat → List Bool → List (Byte × List Bool)
  | 0, _, _ => []
  | fuel + 1, i, p =>
    let e := builtNode nodes i
    if e.internal then
      visit nodes fuel e.left.toNat (p ++ [false]) ++ visit nodes fuel e.right.toNat (p ++ [true])
    else [(e.byte, p)]

/-- The table update at a leaf (R134). -/
def recordCode (table : Vector CodeEntry 256) (leaf : Byte × List Bool) : Vector CodeEntry 256 :=
  table.set leaf.1.toNat (codeOfPath leaf.2) leaf.1.isLt

/-- GenCodes(): Visit(ROOT, ε) over a cleared code table (R131, R134). -/
def genCodes (nodes : List Node) (root : Nat) : Vector CodeEntry 256 :=
  (visit nodes nodes.length root []).foldl recordCode noCodes

/-- What BUILD computes from FREQ (R131, R132, R133, R134). -/
def buildTree (freq : Vector Freq 256) : BuiltTree :=
  let leaves := leafNodes freq
  match leaves.length with
  | 0 =>
    { tstate := .empty, nodes := [], root := 0#9, ncount := 0#9, lcount := 0#9, codes := noCodes }
  | 1 =>
    { tstate := .single, nodes := leaves, root := 0#9, ncount := 1#9, lcount := 1#9
      codes := genCodes leaves 0 }
  | n + 2 =>
    let m := mergeAll leaves
    { tstate := .multi
      nodes := m.1
      root := BitVec.ofNat 9 m.2
      ncount := BitVec.ofNat 9 (2 * (n + 2) - 1)
      lcount := BitVec.ofNat 9 (n + 2)
      codes := genCodes m.1 m.2 }

/-- BUILD (R131). -/
def execBuild (s : State) : Result := .next (complete false (loadTree (buildTree s.freq) s))

/-- READ_NODE idx (R140). -/
def execReadNode (idx : NodeIdx) (s : State) : Result :=
  if s.inUse idx then
    .next (complete false { s with res0 := (s.nodeAt idx).packed, res1 := (s.nodeAt idx).freq })
  else .next (complete false { s with res0 := 0#32, res1 := 0#32 })

end Sys2Proof.Machine
end

