-- ==== Sys2Proof/Machine/Dispatch.lean ====
section
/-! DEFINITION. One arm per command: the rule the EXEC step runs (R44). -/

namespace Sys2Proof.Machine

def exec (i : Instr) (s : State) : Host.Outcome State Fault Refusal :=
  match i with
  | .nop => Sys2Proof.Machine.execNop s
  | .clrErr => Sys2Proof.Machine.execClrErr s
  | .clearFreq => Sys2Proof.Machine.execClearFreq s
  | .count sym => Sys2Proof.Machine.execCount sym s
  | .setFreq sym => Sys2Proof.Machine.execSetFreq sym s
  | .readFreq sym => Sys2Proof.Machine.execReadFreq sym s
  | .build => Sys2Proof.Machine.execBuild s
  | .readNode idx => Sys2Proof.Machine.execReadNode idx s
  | .encode sym => Sys2Proof.Machine.execEncode sym s
  | .decReset => Sys2Proof.Machine.execDecReset s
  | .decBit bit => Sys2Proof.Machine.execDecBit bit s
  | .decEnd => Sys2Proof.Machine.execDecEnd s

end Sys2Proof.Machine
end

