-- ==== Sys2Proof/Machine/Engine.lean ====
section
/-! DEFINITION. The engine and the reset agents of R5: the EXEC step (R44) and the RESET step
(R230). -/

namespace Sys2Proof.Machine

/-- PENDING <- none, the last action of EXEC (R44). -/
def clearPending (s : State) : State := { s with pending := none }

/-- The outcome of a command's rule with PENDING cleared after it (R44). -/
def retire : Result → Result
  | .next t => .next (clearPending t)
  | .fault r => .fault r
  | .refused r => .refused r

/-- EXEC of the word w: run the row's rule, or raise ILLEGAL_CMD; then PENDING <- none (R44, R87,
R201). -/
def execWord (w : Word) (s : State) : Result :=
  match decode w with
  | .ok i => retire (exec i s)
  | .error _ => retire (.next (raise .illegalCmd s))

/-- The engine's step: EXEC when a command is pending, and nothing when none is (R44, R219). -/
def engineStep (s : State) : Result :=
  match s.pending with
  | some w => execWord w s
  | none => .next s

/-- The RESET step (R230): every piece of block state takes its value of R48.  The parameters are
constants; the host, the schedule, what the host has read and the draw counter are outside the
block (log entry 15). -/
def resetBlock (s : State) : State :=
  { State.reset with
    params := s.params
    host := s.host
    turns := s.turns
    replies := s.replies
    draw := s.draw }

/-- The reset agent's step. -/
def resetStep (s : State) : Result := .next (resetBlock s)

end Sys2Proof.Machine
end

