-- ==== Sys2Proof/Machine/Step.lean ====
section
/-! DEFINITION. One step of the whole machine: which of the three agents moves (R5), and the place
a command word is fetched from (R44). -/

namespace Sys2Proof.Machine

/-- One step.  The schedule `turns` says which agent moves; when it is used up, a pending command
is executed first (weak fairness, R251) and then the host goes on (log entry 1). -/
def step (s : State) : Host.Outcome State Fault Refusal :=
  match s.turns with
  | .host :: ts => hostStep { s with turns := ts }
  | .engine :: ts => engineStep { s with turns := ts }
  | .reset :: ts => resetStep { s with turns := ts }
  | [] => if s.busy then engineStep s else hostStep s

/-- The word is placed in PENDING, as an accepted host write to CMD places it (R25, R40), and the
engine has the next turn (log entry 8).  A command is one 32-bit word (R80). -/
def State.withFetchWord (s : State) (nbits w : Nat) : State :=
  { s with pending := some (BitVec.ofNat 32 (w % 2 ^ nbits)), turns := .engine :: s.turns }

end Sys2Proof.Machine
end

