-- ==== Sys2Proof/Machine/Protocol.lean ====
section
/-! DEFINITION. Host software over the block: the program forms of R91 and R92, and the encode and
decode pipelines of R253–R256.  No step of the machine calls anything here (R4); the pipelines give
the command sequences that R112, R161, R174 and R175 speak of (log entry 16). -/

namespace Sys2Proof.Machine

/-- `wr REG, value` (R91). -/
def wr (p : Params) (r : Reg) (v : Word) : HostOp := .write (p.base + regOffset r) .word v

/-- `rd REG` (R91). -/
def rd (p : Params) (r : Reg) : HostOp := .read (p.base + regOffset r) .word

/-- `CMDW cmd`: wr CMD, enc(cmd), then poll (R92). -/
def cmdw (p : Params) (i : Instr) : List HostOp := [wr p .cmd (encode i), .poll]

/-- `SETF sym, f`: wr DATA, f, then CMDW SET_FREQ sym (R92). -/
def setf (p : Params) (sym : Byte) (f : Word) : List HostOp :=
  wr p .data f :: cmdw p (.setFreq sym)

/-- `DECODE_BITS`: for each bit CMDW DEC_BIT, rd STATUS, rd RES0 (R92). -/
def decodeBitsOps (p : Params) (bits : List Bool) : List HostOp :=
  bits.flatMap fun b => cmdw p (.decBit b) ++ [rd p .status, rd p .res0]

/-- The block after a CMDW from an idle state: the command word is accepted and executed, and the
poll that follows has seen BUSY = 0.  What the host reads is left out. -/
def issue (i : Instr) (s : State) : State :=
  match engineStep { s with pending := some (encode i) } with
  | .next t => t
  | _ => s

/-- The block after `wr DATA, f` from an idle state (R26). -/
def putData (f : Word) (s : State) : State := { s with data := f }

/-- What the host reports and stops with (R253–R255). -/
inductive HostError
  /-- FREQ_OVERFLOW while counting (R253). -/
  | bufferTooLarge
  /-- The header's tokens do not form (byte, frequency) pairs (R254). -/
  | malformedHeader
  /-- A header frequency is 2^FW or more (R254; log entry 18). -/
  | frequencyTooLarge
  /-- A character of the code other than '0' and '1' (R255; log entry 18). -/
  | notBinaryDigit
  /-- A DEC_BIT raised; the error code is given (R255). -/
  | decodeError (code : BitVec 8)
  /-- DEC_END raised TRUNCATED_CODE (R255). -/
  | truncatedCode
deriving DecidableEq, Repr

/-- Issue COUNT for each byte of the buffer (R112, R253). -/
def countBuffer : List Byte → State → Except HostError State
  | [], s => .ok s
  | x :: rest, s =>
    let t := issue (.count x) s
    if t.lastErr = ErrCode.freqOverflow.code then .error .bufferTooLarge else countBuffer rest t

/-- CODEWIN[0 .. RES0-1], the code bits an ENCODE returned (R161). -/
def State.codeBits (s : State) : List Bool :=
  (List.range s.res0.toNat).map fun i => s.codewin.getLsbD i

/-- Issue ENCODE for each byte and append the codes (R161, R253). -/
def encodeSymbols : List Byte → State → State × List Bool
  | [], s => (s, [])
  | x :: rest, s =>
    let t := issue (.encode x) s
    let r := encodeSymbols rest t
    (r.1, t.codeBits ++ r.2)

/-- The byte values 0..255 in ascending order. -/
def allBytes : List Byte := (List.range 256).map (BitVec.ofNat 8)

/-- READ_FREQ for each byte of the list, keeping the non-zero entries (R254). -/
def readPairs : List Byte → State → State × List (Byte × Nat)
  | [], s => (s, [])
  | b :: rest, s =>
    let t := issue (.readFreq b) s
    let r := readPairs rest t
    (r.1, if t.res0 = 0#32 then r.2 else (b, t.res0.toNat) :: r.2)

/-- EncodeBuffer (R253): the header's pairs and the code's bits. -/
def encodeBuffer (buffer : List Byte) (s : State) :
    Except HostError (State × List (Byte × Nat) × List Bool) :=
  match countBuffer buffer (issue .clearFreq s) with
  | .error e => .error e
  | .ok counted =>
    let h := readPairs allBytes (issue .build counted)
    if h.1.tstate = .empty then .ok (h.1, h.2, [])
    else
      let c := encodeSymbols buffer h.1
      .ok (c.1, h.2, c.2)

/-- One token of a header as the parser sees it: a non-negative integer, or anything else
(R254; how text is cut into tokens is not settled, N13, log entry 16). -/
inductive Token
  | int (n : Nat)
  | other
deriving DecidableEq, Repr

/-- The flat token sequence value₁ freq₁ value₂ freq₂ … (R254). -/
def headerTokens (pairs : List (Byte × Nat)) : List Token :=
  pairs.flatMap fun (b, f) => [.int b.toNat, .int f]

/-- Parse the tokens into pairs: an odd count, a token that is no integer, or a byte value above
255 is MalformedHeader (R254). -/
def parseHeader : List Token → Except HostError (List (Byte × Nat))
  | [] => .ok []
  | .int v :: .int f :: rest =>
    if 255 < v then .error .malformedHeader
    else
      match parseHeader rest with
      | .ok pairs => .ok ((BitVec.ofNat 8 v, f) :: pairs)
      | .error e => .error e
  | _ => .error .malformedHeader

/-- SETF for each pair in order (R254).  A frequency of more than 32 bits cannot be written to DATA
and is too large for every FW (log entry 18). -/
def loadPairs : List (Byte × Nat) → State → Except HostError State
  | [], s => .ok s
  | (b, f) :: rest, s =>
    if 2 ^ 32 ≤ f then .error .frequencyTooLarge
    else
      let t := issue (.setFreq b) (putData (BitVec.ofNat 32 f) s)
      if t.lastErr = ErrCode.freqOverflow.code then .error .frequencyTooLarge
      else loadPairs rest t

/-- DEC_BIT for each bit; the symbol in RES0[7:0] counts as emitted exactly when SYM_VALID = 1
(R92, R174, R255). -/
def decodeSymbols : List Bool → State → Except HostError (State × List Byte)
  | [], s => .ok (s, [])
  | b :: rest, s =>
    let t := issue (.decBit b) s
    if t.lastErr = 0#8 then
      match decodeSymbols rest t with
      | .ok r => .ok (r.1, if t.symValid then symOf t.res0 :: r.2 else r.2)
      | .error e => .error e
    else .error (.decodeError t.lastErr)

/-- DecodeBuffer (R255), from the header's tokens and the code's bits. -/
def decodeBuffer (header : List Token) (code : List Bool) (s : State) :
    Except HostError (State × List Byte) :=
  if header = [] then .ok (s, [])
  else
    match parseHeader header with
    | .error e => .error e
    | .ok pairs =>
      match loadPairs pairs (issue .clearFreq s) with
      | .error e => .error e
      | .ok loaded =>
        match decodeSymbols code (issue .build loaded) with
        | .error e => .error e
        | .ok (walked, out) =>
          let t := issue .decEnd walked
          if t.lastErr = ErrCode.truncatedCode.code then .error .truncatedCode
          else if t.tstate = .single then
            .ok (t, List.replicate t.res1.toNat (symOf t.res0))
          else .ok (t, out)

/-- The code as characters '0' and '1' (R253, R256). -/
def codeText (code : List Bool) : List Char := code.map fun b => if b then '1' else '0'

/-- The bits of a code's characters; the host rejects any other character (R255). -/
def codeOfText : List Char → Except HostError (List Bool)
  | [] => .ok []
  | c :: rest =>
    if c = '0' ∨ c = '1' then
      match codeOfText rest with
      | .ok bits => .ok ((c == '1') :: bits)
      | .error e => .error e
    else .error .notBinaryDigit

/-- The header as text: decimal tokens joined by single spaces (R254). -/
def headerText (pairs : List (Byte × Nat)) : List Char :=
  List.intercalate [' '] (pairs.flatMap fun (b, f) => [Nat.toDigits 10 b.toNat, Nat.toDigits 10 f])

/-- The encoded file (R256): the header line, then a newline and the code if both are non-empty. -/
def fileText (header code : List Char) : List Char :=
  if header ≠ [] ∧ code ≠ [] then header ++ '\n' :: code else header

end Sys2Proof.Machine
end

