-- ==== Sys2Proof/Safety.lean ====
section
/-! DEFINITION. The terms claims are stated in: the frame vocabulary, the invariants of the block
(R6, R34, R37, R42, R200), the end of a run and its observation (R258), and runs. -/

namespace Sys2Proof.Machine

/-! ## Frames: what two states have in common -/

/-- The parameters and the outside world agree: program, schedule, what was read. -/
def SameOutside (s t : State) : Prop :=
  t.params = s.params ∧ t.host = s.host ∧ t.turns = s.turns ∧ t.replies = s.replies

/-- DATA, RES0, RES1 and CODEWIN agree. -/
def SameResults (s t : State) : Prop :=
  t.data = s.data ∧ t.res0 = s.res0 ∧ t.res1 = s.res1 ∧ t.codewin = s.codewin

/-- TSTATE, the tree registers, the node store and the code table agree. -/
def SameTree (s t : State) : Prop :=
  t.tstate = s.tstate ∧ t.nodes = s.nodes ∧ t.root = s.root ∧ t.ncount = s.ncount ∧
    t.lcount = s.lcount ∧ t.codes = s.codes

/-- WALK_NODE and WALK_DEPTH agree. -/
def SameWalk (s t : State) : Prop := t.walkNode = s.walkNode ∧ t.walkDepth = s.walkDepth

/-- ERR_STICKY and OVR agree. -/
def SameSticky (s t : State) : Prop := t.errSticky = s.errSticky ∧ t.ovr = s.ovr

/-- The command ended without error (R45). -/
def CompletedOk (emitted : Bool) (t : State) : Prop := t.lastErr = 0#8 ∧ t.symValid = emitted

/-- `t` is `s` after a command that raised the error of code `c`: only LAST_ERR, ERR_STICKY and
SYM_VALID are written (R45). -/
def RaisedIn (c : BitVec 8) (s t : State) : Prop :=
  t = { s with lastErr := c, errSticky := true, symValid := false }

/-- What Invalidate() leaves (R43): no tree, no code, the walk at 0.  Of the node store it says
nothing: its contents become unspecified. -/
def Invalidated (t : State) : Prop :=
  t.tstate = .none ∧ t.root = 0#9 ∧ t.ncount = 0#9 ∧ t.lcount = 0#9 ∧ t.walkNode = 0#9 ∧
    t.walkDepth = 0#8 ∧ ∀ b, t.codeAt b = { used := false, len := 0#8, bits := 0#256 }

/-! ## Walking the trie -/

/-- The node reached from node i along a path, each step taken from an internal node (R172);
`none` when a bit is left over at a leaf. -/
def State.descend (s : State) : NodeIdx → List Bool → Option NodeIdx
  | i, [] => some i
  | i, b :: p => if (s.nodeAt i).internal then s.descend ((s.nodeAt i).child b) p else none

/-- j is a child of the internal entry i. -/
def State.isChildOf (s : State) (j i : NodeIdx) : Prop :=
  (s.nodeAt i).internal = true ∧ ((s.nodeAt i).left = j ∨ (s.nodeAt i).right = j)

/-- The code of byte b that ENCODE returns, first bit from the root first (R32, R38). -/
def State.codePath (s : State) (b : Byte) : List Bool := (s.codeAt b).path

/-! ## Invariants -/

/-- Every FREQ entry is an FW-bit integer (R6, R34). -/
def FreqBounded (s : State) : Prop := ∀ b, (s.freqAt b).toNat < 2 ^ s.params.fw

/-- R200: LAST_ERR holds one of the codes 0..6.  R45: a last command that raised has left
ERR_STICKY = 1 and SYM_VALID = 0.  R27, R172: SYM_VALID = 1 only after a DEC_BIT that emitted, which
leaves a MULTI tree with the walk at the root. -/
def ErrorFieldsOk (s : State) : Prop :=
  s.lastErr.toNat ≤ 6 ∧ (s.lastErr ≠ 0#8 → s.errSticky = true ∧ s.symValid = false) ∧
    (s.symValid = true → s.tstate = .multi ∧ s.walkDepth = 0#8)

/-- R37: the tree registers in each tree state. -/
def TreeRegistersOk (s : State) : Prop :=
  match s.tstate with
  | .none | .empty => s.root = 0#9 ∧ s.ncount = 0#9 ∧ s.lcount = 0#9
  | .single => s.root = 0#9 ∧ s.ncount = 1#9 ∧ s.lcount = 1#9
  | .multi =>
    2 ≤ s.lcount.toNat ∧ s.lcount.toNat ≤ 256 ∧ s.ncount.toNat = 2 * s.lcount.toNat - 1 ∧
      s.root.toNat = s.ncount.toNat - 1

/-- R42 (f): when there is a tree it is exactly the one BUILD computes from FREQ; R43: when there is
none the tree registers and the code table are clear. -/
def TreeMatchesFreq (s : State) : Prop :=
  if s.tstate = .none then
    s.root = 0#9 ∧ s.ncount = 0#9 ∧ s.lcount = 0#9 ∧ s.codes = noCodes
  else
    let t := buildTree s.freq
    s.tstate = t.tstate ∧ s.root = t.root ∧ s.ncount = t.ncount ∧ s.lcount = t.lcount ∧
      s.codes = t.codes ∧ ∀ i : NodeIdx, s.inUse i = true → s.nodeAt i = builtNode t.nodes i.toNat

/-- R42 (g): on a MULTI tree WALK_NODE is an internal entry and WALK_DEPTH its depth below ROOT;
otherwise the walk is at node 0, depth 0 (R37, R39, R43). -/
def WalkOk (s : State) : Prop :=
  if s.tstate = .multi then
    (s.nodeAt s.walkNode).internal = true ∧ s.inUse s.walkNode = true ∧
      ∃ p : List Bool, p.length = s.walkDepth.toNat ∧ s.descend s.root p = some s.walkNode
  else s.walkNode = 0#9 ∧ s.walkDepth = 0#8

/-- The invariant of the block. -/
def Inv (s : State) : Prop :=
  s.params.wf = true ∧ FreqBounded s ∧ ErrorFieldsOk s ∧ TreeMatchesFreq s ∧ WalkOk s

/-- R42 (a): the leaves come first, in strictly ascending byte order, then the internal entries. -/
def LeavesFirst (s : State) : Prop :=
  (∀ i : NodeIdx, i < s.ncount → ((s.nodeAt i).internal = true ↔ s.lcount ≤ i)) ∧
    ∀ i j : NodeIdx, i < j → j < s.lcount → (s.nodeAt i).byte < (s.nodeAt j).byte

/-- R42 (b): the leaves are exactly the bytes of non-zero frequency, each with its frequency. -/
def LeavesMatchFreq (s : State) : Prop :=
  (∀ i : NodeIdx, i < s.lcount →
    s.freqAt (s.nodeAt i).byte ≠ 0#24 ∧
      (s.nodeAt i).freq = (s.freqAt (s.nodeAt i).byte).setWidth 32) ∧
    ∀ b : Byte, s.freqAt b ≠ 0#24 → ∃ i : NodeIdx, i < s.lcount ∧ (s.nodeAt i).byte = b

/-- R42 (c): links of an internal entry point to smaller, different indices, and its frequency is
the exact sum of its children's. -/
def SumsExact (s : State) : Prop :=
  ∀ i : NodeIdx, s.lcount ≤ i → i < s.ncount →
    (s.nodeAt i).left < i ∧ (s.nodeAt i).right < i ∧ (s.nodeAt i).left ≠ (s.nodeAt i).right ∧
      (s.nodeAt i).freq.toNat =
        (s.nodeAt (s.nodeAt i).left).freq.toNat + (s.nodeAt (s.nodeAt i).right).freq.toNat

/-- R42 (d): an internal entry's byte is its left child's, which is smaller than its right child's. -/
def BytesOrdered (s : State) : Prop :=
  ∀ i : NodeIdx, s.lcount ≤ i → i < s.ncount →
    (s.nodeAt i).byte = (s.nodeAt (s.nodeAt i).left).byte ∧
      (s.nodeAt (s.nodeAt i).left).byte < (s.nodeAt (s.nodeAt i).right).byte

/-- R42 (e): every entry in use other than ROOT is the child of exactly one internal entry in use,
and ROOT is the child of none. -/
def ParentsUnique (s : State) : Prop :=
  (∀ j : NodeIdx, j < s.ncount → j ≠ s.root → ∃! i : NodeIdx, i < s.ncount ∧ s.isChildOf j i) ∧
    ∀ i : NodeIdx, i < s.ncount → ¬ s.isChildOf s.root i

/-- Entry j is in the working set just before entry `next` is written (R133): it is written already
and no earlier merge has taken it. -/
def State.live (s : State) (next j : NodeIdx) : Prop :=
  j < next ∧ ∀ i : NodeIdx, i < next → ¬ s.isChildOf j i

/-- R133, for the merge that wrote internal entry i: its children are the two entries of globally
smallest key in the working set of that moment. -/
def MergesSmallest (s : State) : Prop :=
  ∀ i : NodeIdx, s.lcount ≤ i → i < s.ncount →
    s.live i (s.nodeAt i).left ∧ s.live i (s.nodeAt i).right ∧
      ∀ j : NodeIdx, s.live i j → j ≠ (s.nodeAt i).left → j ≠ (s.nodeAt i).right →
        (s.nodeAt (s.nodeAt i).left).keyLt (s.nodeAt j) = true ∧
          (s.nodeAt (s.nodeAt i).right).keyLt (s.nodeAt j) = true

/-! ## Runs -/

/-- k steps of the machine, all of them to a next state. -/
inductive Steps : Nat → State → State → Prop
  | zero (s : State) : Steps 0 s s
  | succ {k : Nat} {s t u : State} : step s = .next t → Steps k t u → Steps (k + 1) s u

/-- The run has ended: no host operation is left and nothing is pending (R258). -/
def State.ended (s : State) : Bool := s.host.isEmpty && !s.busy

/-- The full block state of R34–R41 with the values the host's reads returned, in order (R258);
the node store only where it is in use. -/
structure Observation where
  freq : Vector Freq 256
  tstate : TState
  nodes : List Node
  root : NodeIdx
  ncount : BitVec 9
  lcount : BitVec 9
  codes : Vector CodeEntry 256
  walkNode : NodeIdx
  walkDepth : BitVec 8
  pending : Option Word
  lastErr : BitVec 8
  errSticky : Bool
  ovr : Bool
  symValid : Bool
  data : Word
  res0 : Word
  res1 : Word
  codewin : BitVec 256
  replies : List BusReply
deriving DecidableEq, Repr

/-- The node-store entries in use, in index order. -/
def State.usedNodes (s : State) : List Node :=
  ((List.range 511).map (BitVec.ofNat 9)).filterMap fun i =>
    if s.inUse i then some (s.nodeAt i) else none

/-- The observation of a state (R258). -/
def State.observe (s : State) : Observation where
  freq := s.freq
  tstate := s.tstate
  nodes := s.usedNodes
  root := s.root
  ncount := s.ncount
  lcount := s.lcount
  codes := s.codes
  walkNode := s.walkNode
  walkDepth := s.walkDepth
  pending := s.pending
  lastErr := s.lastErr
  errSticky := s.errSticky
  ovr := s.ovr
  symValid := s.symValid
  data := s.data
  res0 := s.res0
  res1 := s.res1
  codewin := s.codewin
  replies := s.replies

/-- The two states differ at most in node-store entries that are not in use (R36). -/
def SameButUnused (s t : State) : Prop :=
  (∀ i : NodeIdx, s.inUse i = true → t.nodeAt i = s.nodeAt i) ∧ t = { s with nodes := t.nodes }

/-- The host keeps its duty of R240 and R257 in this state: its next operation, if it writes CMD or
DATA, comes while nothing is pending. -/
def State.hostDutyKept (s : State) : Bool :=
  match s.host with
  | .write addr .word _ :: _ =>
    !s.busy || (addr != s.params.base + regOffset .cmd && addr != s.params.base + regOffset .data)
  | _ => true

/-- Only reset turns can put a pending command aside (R230, R251). -/
def NoReset (s : State) : Prop := Agent.reset ∉ s.turns

end Sys2Proof.Machine
end

