-- ==== Sys2Proof/Certificates/Slice0/Obligations.lean ====
section
/-! DEFINITION. The statements about the machine, each from numbered rules of the spec. -/

open Sys2Proof Sys2Proof.Machine

/-! ## Encoding (30_encoding.md) -/

/-- Every instruction, with every operand its field admits, is read back from its own word
(R80–R85, R89). -/
def Obligations.DecodeEncodeRoundTrip : Prop :=
  ∀ i : Instr, decode (encode i) = .ok i

/-- A word that decodes is the one word of its instruction: no bit of it is dropped (R85, R86). -/
def Obligations.EncodeDecodeRoundTrip : Prop :=
  ∀ (w : Word) (i : Instr), decode w = .ok i → encode i = w

/-- R86: the twelve rows have pairwise different OP values, every mask covers bits [31:24], so no
word matches two rows; a word that matches a row is that row's command and a word that matches none
is illegal. -/
def Obligations.DecodingTotalAndUnambiguous : Prop :=
  opcodeTable.length = 12 ∧
  opcodeTable.Pairwise (fun r q => opOf r.pattern ≠ opOf q.pattern) ∧
  (∀ r ∈ opcodeTable, opOf r.mask = 0xFF#8) ∧
  (∀ (w : Word), ∀ r ∈ opcodeTable, ∀ q ∈ opcodeTable,
    w &&& r.mask = r.pattern → w &&& q.mask = q.pattern → r = q) ∧
  (∀ (w : Word), ∀ r ∈ opcodeTable, w &&& r.mask = r.pattern →
    ∃ i, decode w = .ok i ∧ i.mnemonic = r.mnemonic) ∧
  (∀ (w : Word), (∀ r ∈ opcodeTable, w &&& r.mask ≠ r.pattern) → ∃ e, decode w = .error e)

/-- R87: the two kinds of illegal words, the listed OP ranges and the examples; EXEC of an illegal
word raises ILLEGAL_CMD (code 1), which changes only the error fields, and clears PENDING. -/
def Obligations.IllegalWordsRaiseIllegalCmd : Prop :=
  (∀ w : Word, decode w = .error .unassignedOp ↔
    (0x02 ≤ (opOf w).toNat ∧ (opOf w).toNat ≤ 0x0F) ∨
    (0x14 ≤ (opOf w).toNat ∧ (opOf w).toNat ≤ 0x1F) ∨
    (0x22 ≤ (opOf w).toNat ∧ (opOf w).toNat ≤ 0x2F) ∨
    (0x31 ≤ (opOf w).toNat ∧ (opOf w).toNat ≤ 0x3F) ∨
    (0x43 ≤ (opOf w).toNat ∧ (opOf w).toNat ≤ 0xFF)) ∧
  (∀ w : Word, decode w = .error .reservedBit ↔
    (∃ r ∈ opcodeTable, opOf w = opOf r.pattern ∧ w &&& r.mask ≠ r.pattern)) ∧
  decode 0x00000001#32 = .error .reservedBit ∧
  decode 0x11000100#32 = .error .reservedBit ∧
  decode 0x41000002#32 = .error .reservedBit ∧
  (∀ (s : State) (w : Word) (e : IllegalWord), decode w = .error e → s.pending = some w →
    engineStep s =
      .next { s with lastErr := 1#8, errSticky := true, symValid := false, pending := none })

/-- R89 with R81–R84: the operand of a decoded word is the unsigned value of its field: SYM =
w[7:0], IDX = w[8:0], BIT = w[0]. -/
def Obligations.OperandsAreTheirFields : Prop :=
  ∀ (w : Word) (i : Instr), decode w = .ok i →
    match i with
    | .count sym | .setFreq sym | .readFreq sym | .encode sym => sym.toNat = w.toNat % 256
    | .readNode idx => idx.toNat = w.toNat % 512
    | .decBit bit => bit = w.getLsbD 0
    | .nop | .clrErr | .clearFreq | .build | .decReset | .decEnd => w.toNat % 2 ^ 24 = 0

/-- Words written out from R85 (and the programs of 95_test_vectors.md), one a command. -/
def Obligations.SpecWordsDecode : Prop :=
  decode 0x00000000#32 = .ok .nop ∧
  decode 0x01000000#32 = .ok .clrErr ∧
  decode 0x10000000#32 = .ok .clearFreq ∧
  decode 0x11000061#32 = .ok (.count 97#8) ∧
  decode 0x12000066#32 = .ok (.setFreq 102#8) ∧
  decode 0x13000062#32 = .ok (.readFreq 98#8) ∧
  decode 0x20000000#32 = .ok .build ∧
  decode 0x21000001#32 = .ok (.readNode 1#9) ∧
  decode 0x30000063#32 = .ok (.encode 99#8) ∧
  decode 0x40000000#32 = .ok .decReset ∧
  decode 0x41000001#32 = .ok (.decBit true) ∧
  decode 0x42000000#32 = .ok .decEnd

/-- R90: the assembler refuses an operand outside its field (sym > 255, idx > 511, bit > 1), an
operand where the format has none, and a missing one; the word of any other command decodes to that
command with exactly the operand written, so nothing is truncated.  The number a character stands for
is Operand.value's: its ASCII code, and for a character that has none its Unicode number, by the model's
choice (log entry 17). -/
def Obligations.AssemblerNeverTruncates : Prop :=
  (∀ c : SourceCommand, c.wf = false → assemble c = none) ∧
  ∀ c : SourceCommand, c.wf = true →
    ∃ w i, assemble c = some w ∧ decode w = .ok i ∧ i.mnemonic = c.mnemonic ∧
      i.operandWord.toNat = (c.operand.map Operand.value).getD 0

/-! ## The step (R5, R44, R45, R200–R212) -/

/-- R44: when PENDING holds a word that decodes to i and the engine has the turn, the step is exec of
i on the state with that turn used up, and then PENDING is none.  That the engine has the turn whenever
a command is pending and the schedule is used up is the model's choice (DESIGN CHOICE, log entry 1). -/
def Obligations.StepExecutesPendingCommand : Prop :=
  ∀ (s : State) (w : Word) (i : Instr), s.pending = some w → decode w = .ok i →
    (∀ ts, s.turns = .engine :: ts →
      ∃ t, exec i { s with turns := ts } = .next t ∧ step s = .next { t with pending := none }) ∧
    (s.turns = [] →
      ∃ t, exec i s = .next t ∧ step s = .next { t with pending := none })

/-- Every command word is executed to a next state: every word either is a command or raises; PENDING
becomes none, LAST_ERR holds a code 0..6, DATA, the parameters and the outside world are as before
(R44, R45, R200, R26). -/
def Obligations.EveryWordCompletes : Prop :=
  ∀ (s : State) (w : Word), s.pending = some w →
    ∃ t, engineStep s = .next t ∧ t.pending = none ∧ t.lastErr.toNat ≤ 6 ∧ t.data = s.data ∧
      SameOutside s t

/-- R210: when a command raises, the state after EXEC is the state before it but for LAST_ERR,
ERR_STICKY, SYM_VALID and PENDING. -/
def Obligations.ErrorEntryIsPrecise : Prop :=
  ∀ (s t : State) (w : Word), s.pending = some w → engineStep s = .next t → t.lastErr ≠ 0#8 →
    t = { s with lastErr := t.lastErr, errSticky := true, symValid := false, pending := none }

/-- R208: reissuing a command that raised, in the state its error left, raises the same error and
leaves the same state. -/
def Obligations.FailedCommandFailsAgain : Prop :=
  ∀ (s t : State) (w : Word), s.pending = some w → engineStep s = .next t → t.lastErr ≠ 0#8 →
    engineStep { t with pending := some w } = .next t

/-- R200, R211: which error each command raises and when, in the order of the checks; no other code
is ever written. -/
def Obligations.ErrorCodesAndTheirCauses : Prop :=
  ∀ (s t : State) (i : Instr), exec i s = .next t → t.lastErr ≠ 0#8 →
    (t.lastErr = 2#8 ∧
      ((∃ sym, i = .count sym ∧ (s.freqAt sym).toNat = 2 ^ s.params.fw - 1) ∨
        (∃ sym, i = .setFreq sym ∧ 2 ^ s.params.fw ≤ s.data.toNat))) ∨
    (t.lastErr = 3#8 ∧ s.tstate = .none ∧
      ((∃ sym, i = .encode sym) ∨ i = .decReset ∨ (∃ bit, i = .decBit bit) ∨ i = .decEnd)) ∨
    (t.lastErr = 4#8 ∧ s.tstate ≠ .none ∧
      ∃ sym, i = .encode sym ∧ (s.codeAt sym).used = false) ∨
    (t.lastErr = 5#8 ∧ s.tstate = .multi ∧ s.walkDepth ≠ 0#8 ∧ i = .decEnd) ∨
    (t.lastErr = 6#8 ∧ s.tstate = .single ∧ ∃ bit, i = .decBit bit)

/-- R212, R230: ERR_STICKY and OVR stay set until CLR_ERR or a reset: a step that clears either is a
RESET step or the EXEC of CLR_ERR. -/
def Obligations.StickyBitsClearedOnlyByClrErrOrReset : Prop :=
  ∀ s t : State, step s = .next t →
    ((s.errSticky = true ∧ t.errSticky = false) ∨ (s.ovr = true ∧ t.ovr = false)) →
    (∃ ts, s.turns = .reset :: ts) ∨ (s.pending = some (encode .clrErr) ∧ t.pending = none)

/-- R34, R230: a step that changes an entry of FREQ is a RESET step or the EXEC of CLEAR_FREQ, COUNT
of that byte or SET_FREQ of that byte. -/
def Obligations.OnlyFrequencyCommandsWriteFreq : Prop :=
  ∀ (s t : State) (b : Byte), step s = .next t → t.freqAt b ≠ s.freqAt b →
    (∃ ts, s.turns = .reset :: ts) ∨
      ((s.pending = some (encode .clearFreq) ∨ s.pending = some (encode (.count b)) ∨
        s.pending = some (encode (.setFreq b))) ∧ t.pending = none)

/-- R28, R29, R32, R26: which commands write RES0, RES1 and CODEWIN; every other command leaves them,
and no command writes DATA. -/
def Obligations.ResultRegisterWriters : Prop :=
  ∀ (s t : State) (i : Instr), exec i s = .next t →
    t.data = s.data ∧
    (t.res0 ≠ s.res0 →
      (∃ b, i = .readFreq b) ∨ (∃ n, i = .readNode n) ∨ (∃ b, i = .encode b) ∨
        (∃ bit, i = .decBit bit ∧ t.symValid = true) ∨ i = .decEnd) ∧
    (t.res1 ≠ s.res1 → (∃ n, i = .readNode n) ∨ i = .decEnd) ∧
    (t.codewin ≠ s.codewin → ∃ b, i = .encode b ∧ t.lastErr = 0#8)

/-! ## The commands, one by one -/

/-- R100: NOP only completes, in every state; the word and the example. -/
def Obligations.NopOnlyCompletes : Prop :=
  (∀ w, decode w = .ok .nop ↔ w = 0x00000000#32) ∧
  (∀ s : State, exec .nop s = .next { s with lastErr := 0#8, symValid := false }) ∧
  ∀ s : State, s.statusWord = 0x00000436#32 →
    ∃ t, exec .nop s = .next t ∧ t.statusWord = 0x00000036#32

/-- R101, R45: CLR_ERR clears ERR_STICKY and OVR, completes (LAST_ERR = 0, SYM_VALID = 0), and changes
no other state, in every state; the word and the example. -/
def Obligations.ClrErrClearsStickyBits : Prop :=
  (∀ w, decode w = .ok .clrErr ↔ w = 0x01000000#32) ∧
  (∀ s : State, exec .clrErr s =
    .next { s with errSticky := false, ovr := false, lastErr := 0#8, symValid := false }) ∧
  ∀ s : State, s.statusWord = 0x00000170#32 →
    ∃ t, exec .clrErr s = .next t ∧ t.statusWord = 0x00000010#32

/-- R110 with R43: CLEAR_FREQ zeroes FREQ, invalidates the tree whatever the state was, and leaves
results, sticky bits and the rest; READ_FREQ then gives 0 and TREE reads 0. -/
def Obligations.ClearFreqEmptiesTheTable : Prop :=
  (∀ w, decode w = .ok .clearFreq ↔ w = 0x10000000#32) ∧
  ∀ s : State, ∃ t, exec .clearFreq s = .next t ∧ (∀ b, t.freqAt b = 0#24) ∧ Invalidated t ∧
    CompletedOk false t ∧ SameResults s t ∧ SameSticky s t ∧ t.pending = s.pending ∧
    SameOutside s t ∧ t.treeWord = 0#32 ∧
    ∀ b, ∃ u, exec (.readFreq b) t = .next u ∧ u.res0 = 0#32

/-- R111: COUNT at the maximum raises FREQ_OVERFLOW and changes only the error fields; otherwise it
adds exactly one to its entry, leaves every other entry, and invalidates the tree. -/
def Obligations.CountAddsOneOrOverflows : Prop :=
  ∀ (s : State) (sym : Byte), s.params.wf = true → FreqBounded s →
    (∀ w, decode w = .ok (.count sym) ↔ w = 0x11000000#32 ||| sym.setWidth 32) ∧
    ((s.freqAt sym).toNat = 2 ^ s.params.fw - 1 →
      ∃ t, exec (.count sym) s = .next t ∧ RaisedIn 2#8 s t) ∧
    ((s.freqAt sym).toNat ≠ 2 ^ s.params.fw - 1 →
      ∃ t, exec (.count sym) s = .next t ∧ (t.freqAt sym).toNat = (s.freqAt sym).toNat + 1 ∧
        (∀ b, b ≠ sym → t.freqAt b = s.freqAt b) ∧ Invalidated t ∧ CompletedOk false t ∧
        SameResults s t ∧ SameSticky s t ∧ t.pending = s.pending ∧ SameOutside s t)

/-- R113: SET_FREQ with DATA ≥ 2^FW raises FREQ_OVERFLOW and changes only the error fields; otherwise
its entry becomes DATA, every other entry and DATA stay, and the tree is invalidated. -/
def Obligations.SetFreqLoadsDataOrOverflows : Prop :=
  ∀ (s : State) (sym : Byte), s.params.wf = true →
    (∀ w, decode w = .ok (.setFreq sym) ↔ w = 0x12000000#32 ||| sym.setWidth 32) ∧
    (2 ^ s.params.fw ≤ s.data.toNat →
      ∃ t, exec (.setFreq sym) s = .next t ∧ RaisedIn 2#8 s t) ∧
    (s.data.toNat < 2 ^ s.params.fw →
      ∃ t, exec (.setFreq sym) s = .next t ∧ (t.freqAt sym).toNat = s.data.toNat ∧
        (∀ b, b ≠ sym → t.freqAt b = s.freqAt b) ∧ Invalidated t ∧ CompletedOk false t ∧
        SameResults s t ∧ SameSticky s t ∧ t.pending = s.pending ∧ SameOutside s t)

/-- R114: READ_FREQ puts the zero-extended entry into RES0, in every state, and writes nothing else
but the completion; an absent byte reads 0. -/
def Obligations.ReadFreqReturnsEntry : Prop :=
  ∀ (s : State) (sym : Byte),
    (∀ w, decode w = .ok (.readFreq sym) ↔ w = 0x13000000#32 ||| sym.setWidth 32) ∧
    ∃ t, exec (.readFreq sym) s = .next t ∧ t.res0.toNat = (s.freqAt sym).toNat ∧
      t = { s with res0 := t.res0, lastErr := 0#8, symValid := false }

/-- R131, R132, R37: BUILD, in every state, sets TSTATE and the tree registers by the number n of
bytes of non-zero frequency, puts the walk at the root, and leaves FREQ, the result registers and
the sticky bits. -/
def Obligations.BuildSetsTreeRegisters : Prop :=
  (∀ w, decode w = .ok .build ↔ w = 0x20000000#32) ∧
  ∀ s : State, ∃ t, exec .build s = .next t ∧
    (let n := (allBytes.filter fun b => s.freqAt b != 0#24).length
     (n = 0 → t.tstate = .empty ∧ t.root = 0#9 ∧ t.ncount = 0#9 ∧ t.lcount = 0#9) ∧
     (n = 1 → t.tstate = .single ∧ t.root = 0#9 ∧ t.ncount = 1#9 ∧ t.lcount = 1#9) ∧
     (2 ≤ n → t.tstate = .multi ∧ t.root.toNat = 2 * n - 2 ∧ t.ncount.toNat = 2 * n - 1 ∧
       t.lcount.toNat = n)) ∧
    t.walkNode = t.root ∧ t.walkDepth = 0#8 ∧ t.freq = s.freq ∧ CompletedOk false t ∧
    SameResults s t ∧ SameSticky s t ∧ t.pending = s.pending ∧ SameOutside s t

/-- R140 with R36: READ_NODE of an entry in use returns its fields in the bits of RES0 and its
frequency in RES1; of any other index it returns 0 and 0 without error; it writes nothing else. -/
def Obligations.ReadNodeShowsEntriesInUse : Prop :=
  ∀ (s : State) (idx : NodeIdx),
    (∀ w, decode w = .ok (.readNode idx) ↔ w = 0x21000000#32 ||| idx.setWidth 32) ∧
    ∃ t, exec (.readNode idx) s = .next t ∧
      t = { s with res0 := t.res0, res1 := t.res1, lastErr := 0#8, symValid := false } ∧
      ((s.tstate = .single ∨ s.tstate = .multi) ∧ idx < s.ncount →
        t.res0.extractLsb' 0 8 = (s.nodeAt idx).byte ∧
        t.res0.getLsbD 8 = (s.nodeAt idx).internal ∧ t.res0.getLsbD 9 = true ∧
        t.res0.extractLsb' 10 9 = (s.nodeAt idx).left ∧
        t.res0.extractLsb' 19 9 = (s.nodeAt idx).right ∧ t.res0.extractLsb' 28 4 = 0#4 ∧
        t.res1 = (s.nodeAt idx).freq) ∧
      (¬ ((s.tstate = .single ∨ s.tstate = .multi) ∧ idx < s.ncount) →
        t.res0 = 0#32 ∧ t.res1 = 0#32)

/-- R160 with R32: ENCODE raises NOT_BUILT without a tree, UNUSED_SYMBOL for a byte without a code,
and otherwise returns the code's length in RES0 and its bits in CODEWIN0..7; nothing else changes. -/
def Obligations.EncodeReturnsCode : Prop :=
  ∀ (s : State) (sym : Byte),
    (∀ w, decode w = .ok (.encode sym) ↔ w = 0x30000000#32 ||| sym.setWidth 32) ∧
    (s.tstate = .none → ∃ t, exec (.encode sym) s = .next t ∧ RaisedIn 3#8 s t) ∧
    (s.tstate ≠ .none → (s.codeAt sym).used = false →
      ∃ t, exec (.encode sym) s = .next t ∧ RaisedIn 4#8 s t) ∧
    (s.tstate ≠ .none → (s.codeAt sym).used = true →
      ∃ t, exec (.encode sym) s = .next t ∧ t.res0.toNat = (s.codeAt sym).len.toNat ∧
        (∀ k : Fin 8, t.codewinWord k = (s.codeAt sym).bits.extractLsb' (32 * k.val) 32) ∧
        t = { s with res0 := t.res0, codewin := t.codewin, lastErr := 0#8, symValid := false })

/-- R171: DEC_RESET raises NOT_BUILT without a tree and otherwise puts the walk at the root. -/
def Obligations.DecResetReturnsToRoot : Prop :=
  (∀ w, decode w = .ok .decReset ↔ w = 0x40000000#32) ∧
  ∀ s : State,
    (s.tstate = .none → ∃ t, exec .decReset s = .next t ∧ RaisedIn 3#8 s t) ∧
    (s.tstate ≠ .none → exec .decReset s =
      .next { s with walkNode := s.root, walkDepth := 0#8, lastErr := 0#8, symValid := false })

/-- R172: DEC_BIT in each tree state.  On a MULTI tree it moves to the internal child of the bit, one
deeper, or emits the byte of the leaf child in RES0 with SYM_VALID = 1 and returns to the root. -/
def Obligations.DecBitWalksOrEmits : Prop :=
  (∀ w, decode w = .ok (.decBit false) ↔ w = 0x41000000#32) ∧
  (∀ w, decode w = .ok (.decBit true) ↔ w = 0x41000001#32) ∧
  ∀ (s : State) (bit : Bool),
    (s.tstate = .none → ∃ t, exec (.decBit bit) s = .next t ∧ RaisedIn 3#8 s t) ∧
    (s.tstate = .single → ∃ t, exec (.decBit bit) s = .next t ∧ RaisedIn 6#8 s t) ∧
    (s.tstate = .empty →
      exec (.decBit bit) s = .next { s with lastErr := 0#8, symValid := false }) ∧
    (s.tstate = .multi → ∀ ch : NodeIdx,
      ch = (if bit then (s.nodeAt s.walkNode).right else (s.nodeAt s.walkNode).left) →
      ((s.nodeAt ch).internal = true → exec (.decBit bit) s =
        .next { s with
          walkNode := ch, walkDepth := s.walkDepth + 1#8, lastErr := 0#8, symValid := false }) ∧
      ((s.nodeAt ch).internal = false → exec (.decBit bit) s =
        .next { s with
          res0 := (s.nodeAt ch).byte.setWidth 32, walkNode := s.root, walkDepth := 0#8,
          lastErr := 0#8, symValid := true }))

/-- R173: DEC_END in each tree state: TRUNCATED_CODE mid-path with the walk unchanged, the symbol and
its count on a SINGLE tree, 0 and 0 otherwise. -/
def Obligations.DecEndReportsTheEnd : Prop :=
  (∀ w, decode w = .ok .decEnd ↔ w = 0x42000000#32) ∧
  ∀ s : State,
    (s.tstate = .none → ∃ t, exec .decEnd s = .next t ∧ RaisedIn 3#8 s t) ∧
    (s.tstate = .multi → s.walkDepth ≠ 0#8 →
      ∃ t, exec .decEnd s = .next t ∧ RaisedIn 5#8 s t) ∧
    (s.tstate = .single → exec .decEnd s =
      .next { s with
        res0 := (s.nodeAt s.root).byte.setWidth 32, res1 := (s.nodeAt s.root).freq,
        lastErr := 0#8, symValid := false }) ∧
    (s.tstate = .empty ∨ (s.tstate = .multi ∧ s.walkDepth = 0#8) → exec .decEnd s =
      .next { s with res0 := 0#32, res1 := 0#32, lastErr := 0#8, symValid := false })

/-! ## The tree (43_tree_builder.md, R42) -/

/-- R130: leaf k is the k-th byte of non-zero frequency in ascending order, at node-store entry k,
with its frequency and zero links. -/
def Obligations.LeavesStandInByteOrder : Prop :=
  ∀ s : State, ∃ t, exec .build s = .next t ∧
    ∀ (k : Nat) (b : Byte), (allBytes.filter fun b => s.freqAt b != 0#24)[k]? = some b →
      t.nodeAt (BitVec.ofNat 9 k) =
        { byte := b, freq := (s.freqAt b).setWidth 32, internal := false, left := 0#9,
          right := 0#9 }

/-- R132: no symbol gives EMPTY with nothing in use and no code; one symbol gives SINGLE, whose root
is that leaf, with the empty code. -/
def Obligations.BuildOfZeroOrOneSymbol : Prop :=
  ∀ s : State, ∃ t, exec .build s = .next t ∧
    ((∀ b, s.freqAt b = 0#24) →
      t.tstate = .empty ∧ (∀ i, t.inUse i = false) ∧ ∀ b, (t.codeAt b).used = false) ∧
    ∀ b, s.freqAt b ≠ 0#24 → (∀ c, c ≠ b → s.freqAt c = 0#24) →
      t.tstate = .single ∧ t.root = 0#9 ∧ (t.nodeAt t.root).byte = b ∧
        (t.nodeAt t.root).internal = false ∧
        (t.nodeAt t.root).freq = (s.freqAt b).setWidth 32 ∧ (t.codeAt b).used = true ∧
        t.codePath b = [] ∧ ∀ c, c ≠ b → (t.codeAt c).used = false

/-- R133, R14: every merge of BUILD joins the two entries of globally smallest key in the working set
of that moment, the child of the smaller byte going left, and the parent takes the sum and the
smaller byte; n − 1 merges fill entries n .. 2n − 2, the last of which is ROOT. -/
def Obligations.BuildMergesGlobalMinima : Prop :=
  ∀ s : State, ∃ t, exec .build s = .next t ∧
    (t.tstate = .multi →
      MergesSmallest t ∧ SumsExact t ∧ BytesOrdered t ∧
      (∀ i : NodeIdx, i < t.ncount → ((t.nodeAt i).internal = true ↔ t.lcount ≤ i)) ∧
      t.ncount.toNat = 2 * t.lcount.toNat - 1 ∧ t.root.toNat = t.ncount.toNat - 1)

/-- R135: at every point of Merge the bytes of the entries in the working set are pairwise
different, so no two of them have the same key. -/
def Obligations.WorkingSetBytesDistinct : Prop :=
  ∀ s : State, ∃ t, exec .build s = .next t ∧
    (t.tstate = .multi →
      ∀ next : NodeIdx, t.lcount ≤ next → next ≤ t.ncount →
        ∀ j k : NodeIdx, t.live next j → t.live next k → j ≠ k →
          (t.nodeAt j).byte ≠ (t.nodeAt k).byte ∧
            ((t.nodeAt j).keyLt (t.nodeAt k) = true ↔
              ¬ (t.nodeAt k).keyLt (t.nodeAt j) = true))

/-- R42 (a) to (g): in a state of the block with a SINGLE or MULTI tree the trie invariants hold.
The premise is the block's invariant, which holds at reset and which every step keeps
(ResetHasInvariant, StepKeepsInvariant), so this is every reachable state. -/
def Obligations.TrieInvariantsHold : Prop :=
  ∀ s : State, Inv s → s.tstate = .single ∨ s.tstate = .multi →
    LeavesFirst s ∧ LeavesMatchFreq s ∧ SumsExact s ∧ BytesOrdered s ∧ ParentsUnique s ∧
    (∃ t, exec .build s = .next t ∧ t.tstate = s.tstate ∧ t.root = s.root ∧
      t.ncount = s.ncount ∧ t.lcount = s.lcount ∧ t.codes = s.codes ∧
      ∀ i, s.inUse i = true → s.nodeAt i = t.nodeAt i) ∧
    (s.tstate = .multi → (s.nodeAt s.walkNode).internal = true ∧ s.inUse s.walkNode = true ∧
      ∃ p : List Bool, p.length = s.walkDepth.toNat ∧ s.descend s.root p = some s.walkNode)

/-- R37: under the block's invariant the tree registers have the values of each tree state. -/
def Obligations.TreeRegistersFollowTreeState : Prop :=
  ∀ s : State, Inv s → TreeRegistersOk s

/-- R134, R131, R38, R32: after BUILD a byte has a code iff its frequency is not 0; CODE_LEN of a byte
with a code is the length of a path p from ROOT to the leaf of that byte, bit j of CODE_BITS is p_j for
every j below it and 0 from it on, and the code read from the entry is p; a byte without a leaf has
CODE_USED = 0, CODE_LEN = 0 and CODE_BITS = 0. -/
def Obligations.CodesAreRootToLeafPaths : Prop :=
  ∀ s : State, ∃ t, exec .build s = .next t ∧
    ∀ b : Byte, ((t.codeAt b).used = true ↔ s.freqAt b ≠ 0#24) ∧
      ((t.codeAt b).used = true → ∃ (i : NodeIdx) (p : List Bool),
        t.inUse i = true ∧ t.descend t.root p = some i ∧ (t.nodeAt i).internal = false ∧
        (t.nodeAt i).byte = b ∧ (t.codeAt b).len.toNat = p.length ∧ t.codePath b = p ∧
        (∀ j, (h : j < p.length) → (t.codeAt b).bits.getLsbD j = p[j]) ∧
        ∀ j, p.length ≤ j → (t.codeAt b).bits.getLsbD j = false) ∧
      ((t.codeAt b).used = false → (t.codeAt b).len = 0#8 ∧ (t.codeAt b).bits = 0#256)

/-- R136: the child of smaller byte is left although it is not the one of smaller key: the two cases
of the rule, from any state whose FREQ is that table. -/
def Obligations.ChildOrderIsByteOrder : Prop :=
  (∀ s : State, s.freqAt 97#8 = 5#24 → s.freqAt 98#8 = 1#24 →
    (∀ b, b ≠ 97#8 → b ≠ 98#8 → s.freqAt b = 0#24) →
    ∃ t, exec .build s = .next t ∧ t.codePath 97#8 = [false] ∧ t.codePath 98#8 = [true]) ∧
  (∀ s : State, s.freqAt 10#8 = 3#24 → s.freqAt 20#8 = 1#24 → s.freqAt 30#8 = 1#24 →
    (∀ b, b ≠ 10#8 → b ≠ 20#8 → b ≠ 30#8 → s.freqAt b = 0#24) →
    ∃ t, exec .build s = .next t ∧ t.codePath 10#8 = [false] ∧ t.codePath 20#8 = [true, false] ∧
      t.codePath 30#8 = [true, true])

/-- R137: what BUILD leaves in the entries in use, the tree registers and the code table depends on
FREQ alone; so BUILD on a built tree gives the same tree. -/
def Obligations.BuildDependsOnFreqOnly : Prop :=
  ∀ s s' : State, s.freq = s'.freq →
    ∃ t t', exec .build s = .next t ∧ exec .build s' = .next t' ∧ t.tstate = t'.tstate ∧
      t.root = t'.root ∧ t.ncount = t'.ncount ∧ t.lcount = t'.lcount ∧ t.codes = t'.codes ∧
      t.walkNode = t'.walkNode ∧ t.walkDepth = t'.walkDepth ∧
      ∀ i, t.inUse i = true → t'.inUse i = true ∧ t.nodeAt i = t'.nodeAt i

/-- R138: on a MULTI tree every used byte's code is non-empty, differs from every other's and is no
prefix of another's; on a SINGLE tree the used code is empty. -/
def Obligations.CodesArePrefixFree : Prop :=
  ∀ s : State, Inv s →
    (s.tstate = .multi → ∀ b, (s.codeAt b).used = true →
      s.codePath b ≠ [] ∧
      ∀ c, (s.codeAt c).used = true → c ≠ b →
        s.codePath b ≠ s.codePath c ∧ ¬ s.codePath b <+: s.codePath c) ∧
    (s.tstate = .single → ∀ b, (s.codeAt b).used = true → s.codePath b = [])

/-- R139, R7, R8, R9: a node frequency is at most the sum of all FREQ entries, which is ROOT's, at
most 256 (2^FW − 1) < 2^NFW; a code of n leaves has at most n − 1 bits, a walk at most n − 2, and the
store at most 511 entries.  R17 (c): the increment of WALK_DEPTH by a DEC_BIT that moves to an internal
child is exact. -/
def Obligations.TreeBounds : Prop :=
  ∀ s : State, Inv s → s.tstate = .single ∨ s.tstate = .multi →
    (let total := (allBytes.map fun b => (s.freqAt b).toNat).sum
     total ≤ 256 * (2 ^ s.params.fw - 1) ∧ 256 * (2 ^ s.params.fw - 1) < 2 ^ (s.params.fw + 8) ∧
     (s.nodeAt s.root).freq.toNat = total ∧
     (∀ i, s.inUse i = true → (s.nodeAt i).freq.toNat ≤ total)) ∧
    s.lcount.toNat ≤ 256 ∧
    (∀ b, (s.codeAt b).used = true → (s.codeAt b).len.toNat ≤ s.lcount.toNat - 1) ∧
    (s.tstate = .multi → s.walkDepth.toNat ≤ s.lcount.toNat - 2) ∧
    s.ncount.toNat ≤ 2 * s.lcount.toNat - 1 ∧ s.ncount.toNat ≤ 511 ∧
    (s.tstate = .multi → ∀ bit, ∃ t, exec (.decBit bit) s = .next t ∧
      (t.symValid = false → t.walkDepth.toNat = s.walkDepth.toNat + 1 ∧ t.walkDepth.toNat ≤ 254))

/-! ## Command sequences (R112, R161, R174, R175, R243) -/

/-- R112: CLEAR_FREQ and one COUNT a byte leave in FREQ the number of occurrences of every byte, if no
byte occurs more than 2^FW − 1 times; if one does, a COUNT raises FREQ_OVERFLOW. -/
def Obligations.CountingABuffer : Prop :=
  ∀ (s : State) (buffer : List Byte), s.params.wf = true →
    ((∀ b, buffer.count b ≤ 2 ^ s.params.fw - 1) →
      ∃ t, countBuffer buffer (issue .clearFreq s) = .ok t ∧
        ∀ b, (t.freqAt b).toNat = buffer.count b) ∧
    ((∃ b, 2 ^ s.params.fw - 1 < buffer.count b) →
      countBuffer buffer (issue .clearFreq s) = .error .bufferTooLarge)

/-- R161, R253, R132: a buffer whose counts fit is counted and built without error; every ENCODE of its
bytes, each issued after the ENCODEs of the bytes before it, ends with LAST_ERR = 0 and returns the
code of its byte, the sequence ends with LAST_ERR = 0, and the code string is the codes of the bytes in
their order.  An empty buffer leaves TSTATE = EMPTY, an empty header and code; one distinct byte leaves
SINGLE, its pair and an empty code, every ENCODE returning length 0; two distinct bytes leave MULTI. -/
def Obligations.EncodingABuffer : Prop :=
  ∀ (s : State) (buffer : List Byte), s.params.wf = true →
    (∀ b, buffer.count b ≤ 2 ^ s.params.fw - 1) →
    ∃ counted t header code, countBuffer buffer (issue .clearFreq s) = .ok counted ∧
      encodeBuffer buffer s = .ok (t, header, code) ∧ t.lastErr = 0#8 ∧
      code = buffer.flatMap t.codePath ∧
      (∀ (pre : List Byte) (x : Byte) (rest : List Byte), buffer = pre ++ x :: rest →
        ∃ u, u = issue (.encode x)
            (encodeSymbols pre (readPairs allBytes (issue .build counted)).1).1 ∧
          u.lastErr = 0#8 ∧ (u.codeAt x).used = true ∧ u.codeBits = t.codePath x ∧
          (u.tstate = .single → u.res0 = 0#32)) ∧
      (buffer = [] → t.tstate = .empty ∧ header = [] ∧ code = []) ∧
      (∀ x, buffer ≠ [] → (∀ b ∈ buffer, b = x) →
        t.tstate = .single ∧ header = [(x, buffer.length)] ∧ code = []) ∧
      ∀ b ∈ buffer, ∀ c ∈ buffer, b ≠ c → t.tstate = .multi

/-- R174: on a MULTI tree with the walk at the root, the codes of bytes in a row decode to exactly
those bytes and DEC_END then succeeds with RES1 = 0; a string that ends mid-code decodes to the whole
codes before it and DEC_END then raises TRUNCATED_CODE; and every bit string is of this form. -/
def Obligations.DecodingACodeString : Prop :=
  ∀ s : State, Inv s → s.tstate = .multi → s.walkDepth = 0#8 →
    (∀ xs : List Byte, (∀ x ∈ xs, (s.codeAt x).used = true) →
      ∃ t u, decodeSymbols (xs.flatMap s.codePath) s = .ok (t, xs) ∧
        exec .decEnd t = .next u ∧ u.lastErr = 0#8 ∧ u.res1 = 0#32) ∧
    (∀ (xs : List Byte) (y : Byte) (q : List Bool),
      (∀ x ∈ xs, (s.codeAt x).used = true) → (s.codeAt y).used = true →
      q <+: s.codePath y → q ≠ [] → q ≠ s.codePath y →
      ∃ t u, decodeSymbols (xs.flatMap s.codePath ++ q) s = .ok (t, xs) ∧
        exec .decEnd t = .next u ∧ u.lastErr = 5#8) ∧
    ∀ bits : List Bool, ∃ t xs q, decodeSymbols bits s = .ok (t, xs) ∧
      (∀ x ∈ xs, (s.codeAt x).used = true) ∧ bits = xs.flatMap s.codePath ++ q ∧
      q.length = t.walkDepth.toNat

/-- R175: a buffer whose counts fit is recovered exactly by decoding its header and code string, on
the same or another block with the same FW; the empty buffer too. -/
def Obligations.EncodeThenDecodeIsIdentity : Prop :=
  ∀ (s s' : State) (buffer : List Byte), s.params.wf = true → s'.params.wf = true →
    s'.params.fw = s.params.fw → (∀ b, buffer.count b ≤ 2 ^ s.params.fw - 1) →
    ∃ t header code u, encodeBuffer buffer s = .ok (t, header, code) ∧
      decodeBuffer (headerTokens header) code s' = .ok (u, buffer)

/-- R254: the header lists the bytes of non-zero frequency in ascending order with their frequencies,
and parsing its tokens gives it back; an odd token count, a token that is no integer and a byte value
above 255 are MalformedHeader. -/
def Obligations.HeaderCodec : Prop :=
  (∀ s : State, (readPairs allBytes s).2 =
    (allBytes.filter fun b => s.freqAt b != 0#24).map fun b => (b, (s.freqAt b).toNat)) ∧
  (∀ pairs : List (Byte × Nat), parseHeader (headerTokens pairs) = .ok pairs) ∧
  (∀ tokens : List Token, tokens.length % 2 = 1 → parseHeader tokens = .error .malformedHeader) ∧
  (∀ tokens : List Token, .other ∈ tokens → parseHeader tokens = .error .malformedHeader) ∧
  ∀ (pairs : List (Byte × Nat)) (v f : Nat) (rest : List Token), 255 < v →
    parseHeader (headerTokens pairs ++ .int v :: .int f :: rest) = .error .malformedHeader

/-- R243: after a successful CLEAR_FREQ, COUNT or SET_FREQ there is no tree, and ENCODE and every DEC
command raise NOT_BUILT. -/
def Obligations.StaleTreeIsNeverUsed : Prop :=
  ∀ (s t : State) (i : Instr), exec i s = .next t → t.lastErr = 0#8 →
    (i = .clearFreq ∨ (∃ b, i = .count b) ∨ ∃ b, i = .setFreq b) →
    t.tstate = .none ∧
    ∀ j : Instr, ((∃ b, j = .encode b) ∨ j = .decReset ∨ (∃ bit, j = .decBit bit) ∨ j = .decEnd) →
      ∃ u, exec j t = .next u ∧ RaisedIn 3#8 t u

/-! ## Registers and the bus (10_state.md section 1, 20_memory.md, R240–R242) -/

/-- R24, R27, R30, R31, R32, R35, R39, R40: the fields of STATUS, PARAMS, TREE and WALK, and the window
bit of each code bit. -/
def Obligations.ComposedRegisterFields : Prop :=
  ∀ s : State,
    s.statusWord.getLsbD 0 = s.pending.isSome ∧
    s.statusWord.extractLsb' 1 2 =
      (match s.tstate with | .none => 0#2 | .empty => 1#2 | .single => 2#2 | .multi => 3#2) ∧
    s.statusWord.getLsbD 3 = s.symValid ∧
    s.statusWord.getLsbD 4 = (s.walkDepth == 0#8) ∧
    s.statusWord.getLsbD 5 = s.errSticky ∧ s.statusWord.getLsbD 6 = s.ovr ∧
    s.statusWord.getLsbD 7 = false ∧ s.statusWord.extractLsb' 8 8 = s.lastErr ∧
    s.statusWord.extractLsb' 16 16 = 0#16 ∧
    (s.params.wf = true →
      (s.paramsWord.extractLsb' 0 8).toNat = s.params.fw ∧
      (s.paramsWord.extractLsb' 8 8).toNat = 255 ∧ (s.paramsWord.extractLsb' 16 9).toNat = 511 ∧
      s.paramsWord.extractLsb' 25 7 = 0#7) ∧
    s.treeWord.extractLsb' 0 9 = s.root ∧ s.treeWord.extractLsb' 9 9 = s.ncount ∧
    s.treeWord.extractLsb' 18 9 = s.lcount ∧ s.treeWord.extractLsb' 27 5 = 0#5 ∧
    s.walkWord.extractLsb' 0 9 = s.walkNode ∧ s.walkWord.extractLsb' 9 8 = s.walkDepth ∧
    s.walkWord.extractLsb' 17 15 = 0#15 ∧
    ∀ i : Nat, (h : i / 32 < 8) →
      (s.codewinWord ⟨i / 32, h⟩).getLsbD (i % 32) = s.codewin.getLsbD i

/-- R22–R26, R28–R33, R61: a read of every offset of the window on a host turn, while nothing is
pending, returns its register; the read changes nothing but what the host has read.  The turn is one of
the schedule, or, with the schedule used up, the host's by the model's choice (log entry 1). -/
def Obligations.IdleReadsReturnRegisters : Prop :=
  ∀ (s : State) (off : Nat) (rest : List HostOp) (ts : List Agent), s.pending = none →
    s.turns = .host :: ts ∨ (s.turns = [] ∧ ts = []) → off < 256 → off % 4 = 0 →
    s.host = .read (s.params.base + off) .word :: rest →
    ∃ v, step s =
        .next { s with host := rest, turns := ts, replies := s.replies ++ [.value v] } ∧
      (off = 0x00 → v = 0x48554646#32) ∧ (off = 0x04 → v = s.paramsWord) ∧
      (off = 0x08 → v = 0#32) ∧ (off = 0x0C → v = s.data) ∧ (off = 0x10 → v = s.statusWord) ∧
      (off = 0x14 → v = s.res0) ∧ (off = 0x18 → v = s.res1) ∧ (off = 0x1C → v = s.treeWord) ∧
      (off = 0x20 → v = s.walkWord) ∧
      (0x24 ≤ off ∧ off ≤ 0x3C → v = 0#32) ∧ (0x60 ≤ off → v = 0#32) ∧
      ∀ k : Fin 8, off = 0x40 + 4 * k.val → v = s.codewinWord k

/-- R241: while BUSY = 1 reads of ID, PARAMS, CMD, DATA and the reserved offsets are exact, and so are
bits 0 and 6 of STATUS; any other read returns a free value, so nothing is said of it.  No read
changes any block state (R66). -/
def Obligations.BusyReadsExactParts : Prop :=
  ∀ (s : State) (off : Nat) (rest : List HostOp) (ts : List Agent), s.pending.isSome = true →
    s.turns = .host :: ts → off < 256 → off % 4 = 0 →
    s.host = .read (s.params.base + off) .word :: rest →
    ∃ v d, step s =
        .next { s with host := rest, turns := ts, replies := s.replies ++ [.value v], draw := d } ∧
      (off = 0x00 → v = 0x48554646#32) ∧ (off = 0x04 → v = s.paramsWord) ∧
      (off = 0x08 → v = 0#32) ∧ (off = 0x0C → v = s.data) ∧
      (off = 0x10 → v.getLsbD 0 = true ∧ v.getLsbD 6 = s.ovr) ∧
      (0x24 ≤ off ∧ off ≤ 0x3C → v = 0#32) ∧ (0x60 ≤ off → v = 0#32)

/-- R25, R26, R22, R33: on a host turn, while nothing is pending, a write to CMD makes the word pending,
a write to DATA sets DATA, and a write to any other offset of the window changes nothing.  The turn is
one of the schedule, or, with the schedule used up, the host's by the model's choice (log entry 1). -/
def Obligations.IdleWrites : Prop :=
  ∀ (s : State) (off : Nat) (v : Word) (rest : List HostOp) (ts : List Agent), s.pending = none →
    s.turns = .host :: ts ∨ (s.turns = [] ∧ ts = []) → off < 256 → off % 4 = 0 →
    s.host = .write (s.params.base + off) .word v :: rest →
    (off = 0x08 → step s = .next { s with host := rest, turns := ts, pending := some v }) ∧
    (off = 0x0C → step s = .next { s with host := rest, turns := ts, data := v }) ∧
    (off ≠ 0x08 → off ≠ 0x0C → step s = .next { s with host := rest, turns := ts })

/-- R240: while BUSY = 1 a write to CMD or DATA is dropped and sets OVR, PENDING and DATA unchanged; a
write to any other offset changes nothing. -/
def Obligations.BusyWritesAreDropped : Prop :=
  ∀ (s : State) (off : Nat) (v : Word) (rest : List HostOp) (ts : List Agent),
    s.pending.isSome = true → s.turns = .host :: ts → off < 256 → off % 4 = 0 →
    s.host = .write (s.params.base + off) .word v :: rest →
    (off = 0x08 ∨ off = 0x0C → step s = .next { s with host := rest, turns := ts, ovr := true }) ∧
    (off ≠ 0x08 → off ≠ 0x0C → step s = .next { s with host := rest, turns := ts })

/-- R62, R63, R10: an access that starts inside the window and is not 32 bits wide at a multiple of 4
has no step under REFUSE and changes no block state under BUS_ERROR.  The model's choices: that the step
of the whole machine is then refused, and that an access which runs past the window's end is in the
window (log entry 6), and that the bus error is recorded among the host's replies (log entry 7). -/
def Obligations.UnsupportedAccesses : Prop :=
  ∀ (s : State) (off : Nat) (width : AccessWidth) (v : Word) (rest : List HostOp)
    (ts : List Agent), s.turns = .host :: ts → off < 256 → width ≠ .word ∨ off % 4 ≠ 0 →
    s.host = .read (s.params.base + off) width :: rest ∨
      s.host = .write (s.params.base + off) width v :: rest →
    (s.params.busSubword = .refuse → step s = .refused .unsupportedAccess) ∧
    (s.params.busSubword = .busError → step s =
      .next { s with host := rest, turns := ts, replies := s.replies ++ [.busError] })

/-- The model's choice (log entry 5, from R67): an access that starts outside the window, of any width
and also one that reaches into the window from below BASE, is refused by name under either value of
BUS_SUBWORD, since what lies there belongs to the platform. -/
def Obligations.AccessOutsideWindowRefused : Prop :=
  ∀ (s : State) (addr : Nat) (width : AccessWidth) (v : Word) (rest : List HostOp)
    (ts : List Agent), s.turns = .host :: ts → addr < s.params.base ∨ s.params.base + 256 ≤ addr →
    s.host = .read addr width :: rest ∨ s.host = .write addr width v :: rest →
    step s = .refused .outsideWindow

/-- R64: bits [7:0] are in the byte at offset+0 and bits [31:24] in the byte at offset+3. -/
def Obligations.LanesAreLittleEndian : Prop :=
  ∀ w : Word, w = wordOfLanes (laneByte w 0) (laneByte w 1) (laneByte w 2) (laneByte w 3) ∧
    laneByte w 0 = w.extractLsb' 0 8 ∧ laneByte w 3 = w.extractLsb' 24 8 ∧
    ∀ b0 b1 b2 b3 : Byte, (wordOfLanes b0 b1 b2 b3).toNat =
      b0.toNat + 256 * b1.toNat + 65536 * b2.toNat + 16777216 * b3.toNat

/-- R242: a DATA write while SET_FREQ is pending is dropped, so the frequency loaded is the DATA that
was there when CMD was written. -/
def Obligations.PendingSetFreqKeepsItsOperand : Prop :=
  ∀ (s t : State) (sym : Byte) (v : Word) (rest : List HostOp) (ts : List Agent),
    s.params.wf = true → s.pending = some (encode (.setFreq sym)) →
    s.data.toNat < 2 ^ s.params.fw → s.turns = .host :: .engine :: ts →
    s.host = .write (s.params.base + 0x0C) .word v :: rest → step s = .next t →
    ∃ u, step t = .next u ∧ (u.freqAt sym).toNat = s.data.toNat ∧ u.data = s.data ∧ u.ovr = true

/-! ## Reset, schedules, whole-machine rules -/

/-- R230, R48, R232: a RESET step, from any state, gives every register its reset value and abandons a
pending command; STATUS then reads 0x10.  That the host's program, the schedule, what the host has read
and the parameters survive it is read by inference (DEDUCED, log entry 15). -/
def Obligations.ResetLoadsResetValues : Prop :=
  ∀ (s : State) (ts : List Agent), s.turns = .reset :: ts →
    ∃ t, step s = .next t ∧ (∀ b, t.freqAt b = 0#24) ∧ Invalidated t ∧ t.pending = none ∧
      t.lastErr = 0#8 ∧ t.errSticky = false ∧ t.ovr = false ∧ t.symValid = false ∧
      t.data = 0#32 ∧ t.res0 = 0#32 ∧ t.res1 = 0#32 ∧ t.codewin = 0#256 ∧
      t.statusWord = 0x00000010#32 ∧ t.treeWord = 0#32 ∧ t.walkWord = 0#32 ∧
      t.params = s.params ∧ t.host = s.host ∧ t.turns = ts ∧ t.replies = s.replies

/-- The state after reset has the block's invariant, for every legal choice of the parameters and
whatever the host, the schedule and the draw counter are (R48). -/
def Obligations.ResetHasInvariant : Prop :=
  ∀ (p : Params) (ops : List HostOp) (ts : List Agent) (rs : List BusReply) (d : Nat),
    p.wf = true →
    Inv { State.reset with params := p, host := ops, turns := ts, replies := rs, draw := d }

/-- Every step, of any agent, keeps the block's invariant: FREQ entries stay FW-bit integers (R34),
the error fields stay consistent (R45, R200), the tree is the one BUILD computes from FREQ or there
is none (R42 (f), R43), and the walk stands on an internal entry at its depth (R42 (g), R170). -/
def Obligations.StepKeepsInvariant : Prop :=
  ∀ s t : State, Inv s → step s = .next t → Inv t

/-- R6, R10, R15, R23, R24: no step changes the parameters or the PARAMS register, and a read of offset
0x00 gives the constant 0x48554646, busy or not.  That the parameters stand in State and no step
changes them is the model's choice (DESIGN CHOICE, log entry 4). -/
def Obligations.ParametersNeverChange : Prop :=
  ∀ s t : State, step s = .next t →
    t.params = s.params ∧ t.paramsWord = s.paramsWord ∧
      readReg 0x04 t = readReg 0x04 s ∧ readReg 0x00 s = 0x48554646#32 ∧
      readReg 0x00 t = 0x48554646#32

/-- R36: the contents of node-store entries not in use are unobservable: two states that differ only
there step alike and differ only there afterwards. -/
def Obligations.UnusedEntriesUnobservable : Prop :=
  ∀ s s' t : State, Inv s → SameButUnused s s' → step s = .next t →
    ∃ t', step s' = .next t' ∧ SameButUnused t t' ∧ t'.observe = t.observe

/-- R251, R44: a pending command is executed: whatever the schedule, if no reset comes and every
operation of the host has a step, then steps that leave the block as it is but for OVR lead to a state
in which the same word is pending and the step is EXEC of that word, after which nothing is pending.
That this comes at the latest when the schedule is used up is no bound of the spec, which gives none:
it is the model's choice (DESIGN CHOICE, log entry 1). -/
def Obligations.PendingCommandIsEventuallyExecuted : Prop :=
  ∀ (s : State) (w : Word), s.pending = some w → NoReset s →
    (∀ op ∈ s.host, match op with
      | .read addr width | .write addr width _ =>
        (∃ off, classify s.params addr width = .register off) ∨
          (classify s.params addr width = .unsupported ∧ s.params.busSubword = .busError)
      | .poll => True) →
    ∃ k u t, k ≤ s.turns.length ∧ Steps k s u ∧ u.pending = some w ∧
      u = { s with
        host := u.host, turns := u.turns, replies := u.replies, draw := u.draw, ovr := u.ovr } ∧
      step u = .next t ∧ execWord w { u with turns := u.turns.tail } = .next t ∧ t.pending = none

/-- R92: `CMDW cmd` on an idle block: the word is written to CMD, executed, and the poll that follows
reads the STATUS the command left; the block is then as EXEC of the command left it.  That this takes
three steps rests on the model's choice that with the schedule used up the engine moves before the host
(DESIGN CHOICE, log entry 1) and on poll being one operation (DEDUCED, log entry 12). -/
def Obligations.CmdwIssuesAndPolls : Prop :=
  ∀ (s : State) (i : Instr) (rest : List HostOp), s.pending = none → s.turns = [] →
    s.host = cmdw s.params i ++ rest →
    ∃ t, exec i { s with host := rest, pending := some (encode i) } = .next t ∧
      Steps 3 s { t with
        pending := none
        replies := s.replies ++ [.value { t with pending := none }.statusWord] }
end

