-- ==== Sys2Proof/Laws/State.lean ====
section
/-! SUPPORT. One lemma per field per update of the state, each true by definition: what every named
operation leaves in every field of State. -/

namespace Sys2Proof.Machine

/-! ### complete -/

@[simp] theorem complete_params (e : Bool) (s : State) :
    (complete e s).params = s.params := rfl
@[simp] theorem complete_data (e : Bool) (s : State) :
    (complete e s).data = s.data := rfl
@[simp] theorem complete_res0 (e : Bool) (s : State) :
    (complete e s).res0 = s.res0 := rfl
@[simp] theorem complete_res1 (e : Bool) (s : State) :
    (complete e s).res1 = s.res1 := rfl
@[simp] theorem complete_codewin (e : Bool) (s : State) :
    (complete e s).codewin = s.codewin := rfl
@[simp] theorem complete_freq (e : Bool) (s : State) :
    (complete e s).freq = s.freq := rfl
@[simp] theorem complete_tstate (e : Bool) (s : State) :
    (complete e s).tstate = s.tstate := rfl
@[simp] theorem complete_nodes (e : Bool) (s : State) :
    (complete e s).nodes = s.nodes := rfl
@[simp] theorem complete_root (e : Bool) (s : State) :
    (complete e s).root = s.root := rfl
@[simp] theorem complete_ncount (e : Bool) (s : State) :
    (complete e s).ncount = s.ncount := rfl
@[simp] theorem complete_lcount (e : Bool) (s : State) :
    (complete e s).lcount = s.lcount := rfl
@[simp] theorem complete_codes (e : Bool) (s : State) :
    (complete e s).codes = s.codes := rfl
@[simp] theorem complete_walkNode (e : Bool) (s : State) :
    (complete e s).walkNode = s.walkNode := rfl
@[simp] theorem complete_walkDepth (e : Bool) (s : State) :
    (complete e s).walkDepth = s.walkDepth := rfl
@[simp] theorem complete_pending (e : Bool) (s : State) :
    (complete e s).pending = s.pending := rfl
@[simp] theorem complete_lastErr (e : Bool) (s : State) :
    (complete e s).lastErr = 0#8 := rfl
@[simp] theorem complete_errSticky (e : Bool) (s : State) :
    (complete e s).errSticky = s.errSticky := rfl
@[simp] theorem complete_ovr (e : Bool) (s : State) :
    (complete e s).ovr = s.ovr := rfl
@[simp] theorem complete_symValid (e : Bool) (s : State) :
    (complete e s).symValid = e := rfl
@[simp] theorem complete_host (e : Bool) (s : State) :
    (complete e s).host = s.host := rfl
@[simp] theorem complete_turns (e : Bool) (s : State) :
    (complete e s).turns = s.turns := rfl
@[simp] theorem complete_replies (e : Bool) (s : State) :
    (complete e s).replies = s.replies := rfl
@[simp] theorem complete_draw (e : Bool) (s : State) :
    (complete e s).draw = s.draw := rfl

/-! ### raise -/

@[simp] theorem raise_params (e : ErrCode) (s : State) :
    (raise e s).params = s.params := rfl
@[simp] theorem raise_data (e : ErrCode) (s : State) :
    (raise e s).data = s.data := rfl
@[simp] theorem raise_res0 (e : ErrCode) (s : State) :
    (raise e s).res0 = s.res0 := rfl
@[simp] theorem raise_res1 (e : ErrCode) (s : State) :
    (raise e s).res1 = s.res1 := rfl
@[simp] theorem raise_codewin (e : ErrCode) (s : State) :
    (raise e s).codewin = s.codewin := rfl
@[simp] theorem raise_freq (e : ErrCode) (s : State) :
    (raise e s).freq = s.freq := rfl
@[simp] theorem raise_tstate (e : ErrCode) (s : State) :
    (raise e s).tstate = s.tstate := rfl
@[simp] theorem raise_nodes (e : ErrCode) (s : State) :
    (raise e s).nodes = s.nodes := rfl
@[simp] theorem raise_root (e : ErrCode) (s : State) :
    (raise e s).root = s.root := rfl
@[simp] theorem raise_ncount (e : ErrCode) (s : State) :
    (raise e s).ncount = s.ncount := rfl
@[simp] theorem raise_lcount (e : ErrCode) (s : State) :
    (raise e s).lcount = s.lcount := rfl
@[simp] theorem raise_codes (e : ErrCode) (s : State) :
    (raise e s).codes = s.codes := rfl
@[simp] theorem raise_walkNode (e : ErrCode) (s : State) :
    (raise e s).walkNode = s.walkNode := rfl
@[simp] theorem raise_walkDepth (e : ErrCode) (s : State) :
    (raise e s).walkDepth = s.walkDepth := rfl
@[simp] theorem raise_pending (e : ErrCode) (s : State) :
    (raise e s).pending = s.pending := rfl
@[simp] theorem raise_lastErr (e : ErrCode) (s : State) :
    (raise e s).lastErr = e.code := rfl
@[simp] theorem raise_errSticky (e : ErrCode) (s : State) :
    (raise e s).errSticky = true := rfl
@[simp] theorem raise_ovr (e : ErrCode) (s : State) :
    (raise e s).ovr = s.ovr := rfl
@[simp] theorem raise_symValid (e : ErrCode) (s : State) :
    (raise e s).symValid = false := rfl
@[simp] theorem raise_host (e : ErrCode) (s : State) :
    (raise e s).host = s.host := rfl
@[simp] theorem raise_turns (e : ErrCode) (s : State) :
    (raise e s).turns = s.turns := rfl
@[simp] theorem raise_replies (e : ErrCode) (s : State) :
    (raise e s).replies = s.replies := rfl
@[simp] theorem raise_draw (e : ErrCode) (s : State) :
    (raise e s).draw = s.draw := rfl

/-! ### invalidate -/

@[simp] theorem invalidate_params (s : State) :
    (invalidate s).params = s.params := rfl
@[simp] theorem invalidate_data (s : State) :
    (invalidate s).data = s.data := rfl
@[simp] theorem invalidate_res0 (s : State) :
    (invalidate s).res0 = s.res0 := rfl
@[simp] theorem invalidate_res1 (s : State) :
    (invalidate s).res1 = s.res1 := rfl
@[simp] theorem invalidate_codewin (s : State) :
    (invalidate s).codewin = s.codewin := rfl
@[simp] theorem invalidate_freq (s : State) :
    (invalidate s).freq = s.freq := rfl
@[simp] theorem invalidate_tstate (s : State) :
    (invalidate s).tstate = .none := rfl
@[simp] theorem invalidate_nodes (s : State) :
    (invalidate s).nodes = storeOf s.draw [] := rfl
@[simp] theorem invalidate_root (s : State) :
    (invalidate s).root = 0#9 := rfl
@[simp] theorem invalidate_ncount (s : State) :
    (invalidate s).ncount = 0#9 := rfl
@[simp] theorem invalidate_lcount (s : State) :
    (invalidate s).lcount = 0#9 := rfl
@[simp] theorem invalidate_codes (s : State) :
    (invalidate s).codes = noCodes := rfl
@[simp] theorem invalidate_walkNode (s : State) :
    (invalidate s).walkNode = 0#9 := rfl
@[simp] theorem invalidate_walkDepth (s : State) :
    (invalidate s).walkDepth = 0#8 := rfl
@[simp] theorem invalidate_pending (s : State) :
    (invalidate s).pending = s.pending := rfl
@[simp] theorem invalidate_lastErr (s : State) :
    (invalidate s).lastErr = s.lastErr := rfl
@[simp] theorem invalidate_errSticky (s : State) :
    (invalidate s).errSticky = s.errSticky := rfl
@[simp] theorem invalidate_ovr (s : State) :
    (invalidate s).ovr = s.ovr := rfl
@[simp] theorem invalidate_symValid (s : State) :
    (invalidate s).symValid = s.symValid := rfl
@[simp] theorem invalidate_host (s : State) :
    (invalidate s).host = s.host := rfl
@[simp] theorem invalidate_turns (s : State) :
    (invalidate s).turns = s.turns := rfl
@[simp] theorem invalidate_replies (s : State) :
    (invalidate s).replies = s.replies := rfl
@[simp] theorem invalidate_draw (s : State) :
    (invalidate s).draw = s.draw + 1 := rfl

/-! ### loadTree -/

@[simp] theorem loadTree_params (t : BuiltTree) (s : State) :
    (loadTree t s).params = s.params := rfl
@[simp] theorem loadTree_data (t : BuiltTree) (s : State) :
    (loadTree t s).data = s.data := rfl
@[simp] theorem loadTree_res0 (t : BuiltTree) (s : State) :
    (loadTree t s).res0 = s.res0 := rfl
@[simp] theorem loadTree_res1 (t : BuiltTree) (s : State) :
    (loadTree t s).res1 = s.res1 := rfl
@[simp] theorem loadTree_codewin (t : BuiltTree) (s : State) :
    (loadTree t s).codewin = s.codewin := rfl
@[simp] theorem loadTree_freq (t : BuiltTree) (s : State) :
    (loadTree t s).freq = s.freq := rfl
@[simp] theorem loadTree_tstate (t : BuiltTree) (s : State) :
    (loadTree t s).tstate = t.tstate := rfl
@[simp] theorem loadTree_nodes (t : BuiltTree) (s : State) :
    (loadTree t s).nodes = storeOf s.draw t.nodes := rfl
@[simp] theorem loadTree_root (t : BuiltTree) (s : State) :
    (loadTree t s).root = t.root := rfl
@[simp] theorem loadTree_ncount (t : BuiltTree) (s : State) :
    (loadTree t s).ncount = t.ncount := rfl
@[simp] theorem loadTree_lcount (t : BuiltTree) (s : State) :
    (loadTree t s).lcount = t.lcount := rfl
@[simp] theorem loadTree_codes (t : BuiltTree) (s : State) :
    (loadTree t s).codes = t.codes := rfl
@[simp] theorem loadTree_walkNode (t : BuiltTree) (s : State) :
    (loadTree t s).walkNode = t.root := rfl
@[simp] theorem loadTree_walkDepth (t : BuiltTree) (s : State) :
    (loadTree t s).walkDepth = 0#8 := rfl
@[simp] theorem loadTree_pending (t : BuiltTree) (s : State) :
    (loadTree t s).pending = s.pending := rfl
@[simp] theorem loadTree_lastErr (t : BuiltTree) (s : State) :
    (loadTree t s).lastErr = s.lastErr := rfl
@[simp] theorem loadTree_errSticky (t : BuiltTree) (s : State) :
    (loadTree t s).errSticky = s.errSticky := rfl
@[simp] theorem loadTree_ovr (t : BuiltTree) (s : State) :
    (loadTree t s).ovr = s.ovr := rfl
@[simp] theorem loadTree_symValid (t : BuiltTree) (s : State) :
    (loadTree t s).symValid = s.symValid := rfl
@[simp] theorem loadTree_host (t : BuiltTree) (s : State) :
    (loadTree t s).host = s.host := rfl
@[simp] theorem loadTree_turns (t : BuiltTree) (s : State) :
    (loadTree t s).turns = s.turns := rfl
@[simp] theorem loadTree_replies (t : BuiltTree) (s : State) :
    (loadTree t s).replies = s.replies := rfl
@[simp] theorem loadTree_draw (t : BuiltTree) (s : State) :
    (loadTree t s).draw = s.draw + 1 := rfl

/-! ### walkToRoot -/

@[simp] theorem walkToRoot_params (s : State) :
    (walkToRoot s).params = s.params := rfl
@[simp] theorem walkToRoot_data (s : State) :
    (walkToRoot s).data = s.data := rfl
@[simp] theorem walkToRoot_res0 (s : State) :
    (walkToRoot s).res0 = s.res0 := rfl
@[simp] theorem walkToRoot_res1 (s : State) :
    (walkToRoot s).res1 = s.res1 := rfl
@[simp] theorem walkToRoot_codewin (s : State) :
    (walkToRoot s).codewin = s.codewin := rfl
@[simp] theorem walkToRoot_freq (s : State) :
    (walkToRoot s).freq = s.freq := rfl
@[simp] theorem walkToRoot_tstate (s : State) :
    (walkToRoot s).tstate = s.tstate := rfl
@[simp] theorem walkToRoot_nodes (s : State) :
    (walkToRoot s).nodes = s.nodes := rfl
@[simp] theorem walkToRoot_root (s : State) :
    (walkToRoot s).root = s.root := rfl
@[simp] theorem walkToRoot_ncount (s : State) :
    (walkToRoot s).ncount = s.ncount := rfl
@[simp] theorem walkToRoot_lcount (s : State) :
    (walkToRoot s).lcount = s.lcount := rfl
@[simp] theorem walkToRoot_codes (s : State) :
    (walkToRoot s).codes = s.codes := rfl
@[simp] theorem walkToRoot_walkNode (s : State) :
    (walkToRoot s).walkNode = s.root := rfl
@[simp] theorem walkToRoot_walkDepth (s : State) :
    (walkToRoot s).walkDepth = 0#8 := rfl
@[simp] theorem walkToRoot_pending (s : State) :
    (walkToRoot s).pending = s.pending := rfl
@[simp] theorem walkToRoot_lastErr (s : State) :
    (walkToRoot s).lastErr = s.lastErr := rfl
@[simp] theorem walkToRoot_errSticky (s : State) :
    (walkToRoot s).errSticky = s.errSticky := rfl
@[simp] theorem walkToRoot_ovr (s : State) :
    (walkToRoot s).ovr = s.ovr := rfl
@[simp] theorem walkToRoot_symValid (s : State) :
    (walkToRoot s).symValid = s.symValid := rfl
@[simp] theorem walkToRoot_host (s : State) :
    (walkToRoot s).host = s.host := rfl
@[simp] theorem walkToRoot_turns (s : State) :
    (walkToRoot s).turns = s.turns := rfl
@[simp] theorem walkToRoot_replies (s : State) :
    (walkToRoot s).replies = s.replies := rfl
@[simp] theorem walkToRoot_draw (s : State) :
    (walkToRoot s).draw = s.draw := rfl

/-! ### setFreqAt -/

@[simp] theorem setFreqAt_params (s : State) (b : Byte) (v : Freq) :
    (s.setFreqAt b v).params = s.params := rfl
@[simp] theorem setFreqAt_data (s : State) (b : Byte) (v : Freq) :
    (s.setFreqAt b v).data = s.data := rfl
@[simp] theorem setFreqAt_res0 (s : State) (b : Byte) (v : Freq) :
    (s.setFreqAt b v).res0 = s.res0 := rfl
@[simp] theorem setFreqAt_res1 (s : State) (b : Byte) (v : Freq) :
    (s.setFreqAt b v).res1 = s.res1 := rfl
@[simp] theorem setFreqAt_codewin (s : State) (b : Byte) (v : Freq) :
    (s.setFreqAt b v).codewin = s.codewin := rfl
@[simp] theorem setFreqAt_freq (s : State) (b : Byte) (v : Freq) :
    (s.setFreqAt b v).freq = s.freq.set b.toNat v b.isLt := rfl
@[simp] theorem setFreqAt_tstate (s : State) (b : Byte) (v : Freq) :
    (s.setFreqAt b v).tstate = s.tstate := rfl
@[simp] theorem setFreqAt_nodes (s : State) (b : Byte) (v : Freq) :
    (s.setFreqAt b v).nodes = s.nodes := rfl
@[simp] theorem setFreqAt_root (s : State) (b : Byte) (v : Freq) :
    (s.setFreqAt b v).root = s.root := rfl
@[simp] theorem setFreqAt_ncount (s : State) (b : Byte) (v : Freq) :
    (s.setFreqAt b v).ncount = s.ncount := rfl
@[simp] theorem setFreqAt_lcount (s : State) (b : Byte) (v : Freq) :
    (s.setFreqAt b v).lcount = s.lcount := rfl
@[simp] theorem setFreqAt_codes (s : State) (b : Byte) (v : Freq) :
    (s.setFreqAt b v).codes = s.codes := rfl
@[simp] theorem setFreqAt_walkNode (s : State) (b : Byte) (v : Freq) :
    (s.setFreqAt b v).walkNode = s.walkNode := rfl
@[simp] theorem setFreqAt_walkDepth (s : State) (b : Byte) (v : Freq) :
    (s.setFreqAt b v).walkDepth = s.walkDepth := rfl
@[simp] theorem setFreqAt_pending (s : State) (b : Byte) (v : Freq) :
    (s.setFreqAt b v).pending = s.pending := rfl
@[simp] theorem setFreqAt_lastErr (s : State) (b : Byte) (v : Freq) :
    (s.setFreqAt b v).lastErr = s.lastErr := rfl
@[simp] theorem setFreqAt_errSticky (s : State) (b : Byte) (v : Freq) :
    (s.setFreqAt b v).errSticky = s.errSticky := rfl
@[simp] theorem setFreqAt_ovr (s : State) (b : Byte) (v : Freq) :
    (s.setFreqAt b v).ovr = s.ovr := rfl
@[simp] theorem setFreqAt_symValid (s : State) (b : Byte) (v : Freq) :
    (s.setFreqAt b v).symValid = s.symValid := rfl
@[simp] theorem setFreqAt_host (s : State) (b : Byte) (v : Freq) :
    (s.setFreqAt b v).host = s.host := rfl
@[simp] theorem setFreqAt_turns (s : State) (b : Byte) (v : Freq) :
    (s.setFreqAt b v).turns = s.turns := rfl
@[simp] theorem setFreqAt_replies (s : State) (b : Byte) (v : Freq) :
    (s.setFreqAt b v).replies = s.replies := rfl
@[simp] theorem setFreqAt_draw (s : State) (b : Byte) (v : Freq) :
    (s.setFreqAt b v).draw = s.draw := rfl

/-! ### clearPending -/

@[simp] theorem clearPending_params (s : State) :
    (clearPending s).params = s.params := rfl
@[simp] theorem clearPending_data (s : State) :
    (clearPending s).data = s.data := rfl
@[simp] theorem clearPending_res0 (s : State) :
    (clearPending s).res0 = s.res0 := rfl
@[simp] theorem clearPending_res1 (s : State) :
    (clearPending s).res1 = s.res1 := rfl
@[simp] theorem clearPending_codewin (s : State) :
    (clearPending s).codewin = s.codewin := rfl
@[simp] theorem clearPending_freq (s : State) :
    (clearPending s).freq = s.freq := rfl
@[simp] theorem clearPending_tstate (s : State) :
    (clearPending s).tstate = s.tstate := rfl
@[simp] theorem clearPending_nodes (s : State) :
    (clearPending s).nodes = s.nodes := rfl
@[simp] theorem clearPending_root (s : State) :
    (clearPending s).root = s.root := rfl
@[simp] theorem clearPending_ncount (s : State) :
    (clearPending s).ncount = s.ncount := rfl
@[simp] theorem clearPending_lcount (s : State) :
    (clearPending s).lcount = s.lcount := rfl
@[simp] theorem clearPending_codes (s : State) :
    (clearPending s).codes = s.codes := rfl
@[simp] theorem clearPending_walkNode (s : State) :
    (clearPending s).walkNode = s.walkNode := rfl
@[simp] theorem clearPending_walkDepth (s : State) :
    (clearPending s).walkDepth = s.walkDepth := rfl
@[simp] theorem clearPending_pending (s : State) :
    (clearPending s).pending = none := rfl
@[simp] theorem clearPending_lastErr (s : State) :
    (clearPending s).lastErr = s.lastErr := rfl
@[simp] theorem clearPending_errSticky (s : State) :
    (clearPending s).errSticky = s.errSticky := rfl
@[simp] theorem clearPending_ovr (s : State) :
    (clearPending s).ovr = s.ovr := rfl
@[simp] theorem clearPending_symValid (s : State) :
    (clearPending s).symValid = s.symValid := rfl
@[simp] theorem clearPending_host (s : State) :
    (clearPending s).host = s.host := rfl
@[simp] theorem clearPending_turns (s : State) :
    (clearPending s).turns = s.turns := rfl
@[simp] theorem clearPending_replies (s : State) :
    (clearPending s).replies = s.replies := rfl
@[simp] theorem clearPending_draw (s : State) :
    (clearPending s).draw = s.draw := rfl

/-! ### resetBlock -/

@[simp] theorem resetBlock_params (s : State) :
    (resetBlock s).params = s.params := rfl
@[simp] theorem resetBlock_data (s : State) :
    (resetBlock s).data = State.reset.data := rfl
@[simp] theorem resetBlock_res0 (s : State) :
    (resetBlock s).res0 = State.reset.res0 := rfl
@[simp] theorem resetBlock_res1 (s : State) :
    (resetBlock s).res1 = State.reset.res1 := rfl
@[simp] theorem resetBlock_codewin (s : State) :
    (resetBlock s).codewin = State.reset.codewin := rfl
@[simp] theorem resetBlock_freq (s : State) :
    (resetBlock s).freq = State.reset.freq := rfl
@[simp] theorem resetBlock_tstate (s : State) :
    (resetBlock s).tstate = State.reset.tstate := rfl
@[simp] theorem resetBlock_nodes (s : State) :
    (resetBlock s).nodes = State.reset.nodes := rfl
@[simp] theorem resetBlock_root (s : State) :
    (resetBlock s).root = State.reset.root := rfl
@[simp] theorem resetBlock_ncount (s : State) :
    (resetBlock s).ncount = State.reset.ncount := rfl
@[simp] theorem resetBlock_lcount (s : State) :
    (resetBlock s).lcount = State.reset.lcount := rfl
@[simp] theorem resetBlock_codes (s : State) :
    (resetBlock s).codes = State.reset.codes := rfl
@[simp] theorem resetBlock_walkNode (s : State) :
    (resetBlock s).walkNode = State.reset.walkNode := rfl
@[simp] theorem resetBlock_walkDepth (s : State) :
    (resetBlock s).walkDepth = State.reset.walkDepth := rfl
@[simp] theorem resetBlock_pending (s : State) :
    (resetBlock s).pending = State.reset.pending := rfl
@[simp] theorem resetBlock_lastErr (s : State) :
    (resetBlock s).lastErr = State.reset.lastErr := rfl
@[simp] theorem resetBlock_errSticky (s : State) :
    (resetBlock s).errSticky = State.reset.errSticky := rfl
@[simp] theorem resetBlock_ovr (s : State) :
    (resetBlock s).ovr = State.reset.ovr := rfl
@[simp] theorem resetBlock_symValid (s : State) :
    (resetBlock s).symValid = State.reset.symValid := rfl
@[simp] theorem resetBlock_host (s : State) :
    (resetBlock s).host = s.host := rfl
@[simp] theorem resetBlock_turns (s : State) :
    (resetBlock s).turns = s.turns := rfl
@[simp] theorem resetBlock_replies (s : State) :
    (resetBlock s).replies = s.replies := rfl
@[simp] theorem resetBlock_draw (s : State) :
    (resetBlock s).draw = s.draw := rfl

/-! ### hostRead -/

@[simp] theorem hostRead_params (off : Nat) (s : State) :
    (hostRead off s).params = s.params := rfl
@[simp] theorem hostRead_data (off : Nat) (s : State) :
    (hostRead off s).data = s.data := rfl
@[simp] theorem hostRead_res0 (off : Nat) (s : State) :
    (hostRead off s).res0 = s.res0 := rfl
@[simp] theorem hostRead_res1 (off : Nat) (s : State) :
    (hostRead off s).res1 = s.res1 := rfl
@[simp] theorem hostRead_codewin (off : Nat) (s : State) :
    (hostRead off s).codewin = s.codewin := rfl
@[simp] theorem hostRead_freq (off : Nat) (s : State) :
    (hostRead off s).freq = s.freq := rfl
@[simp] theorem hostRead_tstate (off : Nat) (s : State) :
    (hostRead off s).tstate = s.tstate := rfl
@[simp] theorem hostRead_nodes (off : Nat) (s : State) :
    (hostRead off s).nodes = s.nodes := rfl
@[simp] theorem hostRead_root (off : Nat) (s : State) :
    (hostRead off s).root = s.root := rfl
@[simp] theorem hostRead_ncount (off : Nat) (s : State) :
    (hostRead off s).ncount = s.ncount := rfl
@[simp] theorem hostRead_lcount (off : Nat) (s : State) :
    (hostRead off s).lcount = s.lcount := rfl
@[simp] theorem hostRead_codes (off : Nat) (s : State) :
    (hostRead off s).codes = s.codes := rfl
@[simp] theorem hostRead_walkNode (off : Nat) (s : State) :
    (hostRead off s).walkNode = s.walkNode := rfl
@[simp] theorem hostRead_walkDepth (off : Nat) (s : State) :
    (hostRead off s).walkDepth = s.walkDepth := rfl
@[simp] theorem hostRead_pending (off : Nat) (s : State) :
    (hostRead off s).pending = s.pending := rfl
@[simp] theorem hostRead_lastErr (off : Nat) (s : State) :
    (hostRead off s).lastErr = s.lastErr := rfl
@[simp] theorem hostRead_errSticky (off : Nat) (s : State) :
    (hostRead off s).errSticky = s.errSticky := rfl
@[simp] theorem hostRead_ovr (off : Nat) (s : State) :
    (hostRead off s).ovr = s.ovr := rfl
@[simp] theorem hostRead_symValid (off : Nat) (s : State) :
    (hostRead off s).symValid = s.symValid := rfl
@[simp] theorem hostRead_host (off : Nat) (s : State) :
    (hostRead off s).host = s.host := rfl
@[simp] theorem hostRead_turns (off : Nat) (s : State) :
    (hostRead off s).turns = s.turns := rfl
@[simp] theorem hostRead_replies (off : Nat) (s : State) :
    (hostRead off s).replies = s.replies ++ [.value (readReg off s)] := rfl
@[simp] theorem hostRead_draw (off : Nat) (s : State) :
    (hostRead off s).draw = if s.busy then s.draw + 1 else s.draw := rfl

/-! ### putData -/

@[simp] theorem putData_params (f : Word) (s : State) :
    (putData f s).params = s.params := rfl
@[simp] theorem putData_data (f : Word) (s : State) :
    (putData f s).data = f := rfl
@[simp] theorem putData_res0 (f : Word) (s : State) :
    (putData f s).res0 = s.res0 := rfl
@[simp] theorem putData_res1 (f : Word) (s : State) :
    (putData f s).res1 = s.res1 := rfl
@[simp] theorem putData_codewin (f : Word) (s : State) :
    (putData f s).codewin = s.codewin := rfl
@[simp] theorem putData_freq (f : Word) (s : State) :
    (putData f s).freq = s.freq := rfl
@[simp] theorem putData_tstate (f : Word) (s : State) :
    (putData f s).tstate = s.tstate := rfl
@[simp] theorem putData_nodes (f : Word) (s : State) :
    (putData f s).nodes = s.nodes := rfl
@[simp] theorem putData_root (f : Word) (s : State) :
    (putData f s).root = s.root := rfl
@[simp] theorem putData_ncount (f : Word) (s : State) :
    (putData f s).ncount = s.ncount := rfl
@[simp] theorem putData_lcount (f : Word) (s : State) :
    (putData f s).lcount = s.lcount := rfl
@[simp] theorem putData_codes (f : Word) (s : State) :
    (putData f s).codes = s.codes := rfl
@[simp] theorem putData_walkNode (f : Word) (s : State) :
    (putData f s).walkNode = s.walkNode := rfl
@[simp] theorem putData_walkDepth (f : Word) (s : State) :
    (putData f s).walkDepth = s.walkDepth := rfl
@[simp] theorem putData_pending (f : Word) (s : State) :
    (putData f s).pending = s.pending := rfl
@[simp] theorem putData_lastErr (f : Word) (s : State) :
    (putData f s).lastErr = s.lastErr := rfl
@[simp] theorem putData_errSticky (f : Word) (s : State) :
    (putData f s).errSticky = s.errSticky := rfl
@[simp] theorem putData_ovr (f : Word) (s : State) :
    (putData f s).ovr = s.ovr := rfl
@[simp] theorem putData_symValid (f : Word) (s : State) :
    (putData f s).symValid = s.symValid := rfl
@[simp] theorem putData_host (f : Word) (s : State) :
    (putData f s).host = s.host := rfl
@[simp] theorem putData_turns (f : Word) (s : State) :
    (putData f s).turns = s.turns := rfl
@[simp] theorem putData_replies (f : Word) (s : State) :
    (putData f s).replies = s.replies := rfl
@[simp] theorem putData_draw (f : Word) (s : State) :
    (putData f s).draw = s.draw := rfl

end Sys2Proof.Machine
end

