-- ==== Sys2Proof/Laws/Ops.lean ====
section
/-! SUPPORT. What each shared operation does, said once: table reads after writes, the node store
after a BUILD or Invalidate, completion and error entry, the register reads and the
window. -/

namespace Sys2Proof.Machine

/-! ### Table reads -/

@[simp] theorem tabulate_get {α : Type} (n : Nat) (f : Fin n → α) (i : Nat) (h : i < n) :
    (tabulate n f)[i] = f ⟨i, h⟩ := by
  simp [tabulate, Vector.getElem_mk]

@[simp] theorem freqAt_setFreqAt_same (s : State) (b : Byte) (v : Freq) :
    (s.setFreqAt b v).freqAt b = v := by
  simp [State.freqAt]

theorem freqAt_setFreqAt_other (s : State) {b c : Byte} (v : Freq) (h : c ≠ b) :
    (s.setFreqAt b v).freqAt c = s.freqAt c := by
  have hne : b.toNat ≠ c.toNat := fun hh => h (BitVec.eq_of_toNat_eq hh.symm)
  simp [State.freqAt, hne]

@[simp] theorem clearedFreq_get (b : Byte) : clearedFreq[b.toNat]'b.isLt = 0#24 := by
  simp [clearedFreq]

@[simp] theorem noCodes_get (b : Byte) :
    noCodes[b.toNat]'b.isLt = { used := false, len := 0#8, bits := 0#256 } := by
  simp [noCodes]

/-- FREQ is read from the field `freq` alone. -/
theorem freqAt_congr {s t : State} (h : t.freq = s.freq) (b : Byte) : t.freqAt b = s.freqAt b := by
  simp [State.freqAt, h]

/-- The code table is read from the field `codes` alone. -/
theorem codeAt_congr {s t : State} (h : t.codes = s.codes) (b : Byte) : t.codeAt b = s.codeAt b := by
  simp [State.codeAt, h]

/-- A node is read from the store and, for index 511 only, the draw counter. -/
theorem nodeAt_congr {s t : State} (h : t.nodes = s.nodes) (hd : t.draw = s.draw) (i : NodeIdx) :
    t.nodeAt i = s.nodeAt i := by
  simp [State.nodeAt, h, hd]

theorem storeOf_get (draw : Nat) (written : List Node) (i : Nat) (h : i < 511) :
    (storeOf draw written)[i] = written.getD i (Config.freeNode draw i) := by
  simp [storeOf]

/-- A written entry of the store is what was written. -/
theorem storeOf_get_written (draw : Nat) (written : List Node) (i : Nat) (h : i < 511)
    (hw : i < written.length) : (storeOf draw written)[i] = builtNode written i := by
  simp [storeOf_get, builtNode, List.getD_eq_getElem?_getD, List.getElem?_eq_getElem hw]

/-- After loading a tree, every written entry reads as BUILD computed it. -/
theorem nodeAt_loadTree (t : BuiltTree) (s : State) (i : NodeIdx) (h : i.toNat < 511)
    (hw : i.toNat < t.nodes.length) : (loadTree t s).nodeAt i = builtNode t.nodes i.toNat := by
  simp only [State.nodeAt, h, dif_pos, loadTree_nodes]
  exact storeOf_get_written _ _ _ h hw

/-- Nothing is in use after Invalidate(). -/
@[simp] theorem inUse_invalidate (s : State) (i : NodeIdx) : (invalidate s).inUse i = false := by
  simp [State.inUse]

/-! ### Completion and error entry -/

/-- No error has code 0. -/
theorem code_ne_zero (e : ErrCode) : e.code ≠ 0#8 := by cases e <;> decide

/-- The codes are 1 to 6. -/
theorem code_le_six (e : ErrCode) : e.code.toNat ≤ 6 := by cases e <;> decide

/-- Different errors have different codes. -/
theorem code_injective {e f : ErrCode} (h : e.code = f.code) : e = f := by
  cases e <;> cases f <;> first | rfl | (revert h; decide)

@[simp] theorem retire_next (t : State) : retire (.next t) = .next (clearPending t) := rfl

/-- What `retire` answers: next exactly when the command did, with PENDING cleared. -/
theorem retire_eq_next {r : Result} {u : State} (h : retire r = .next u) :
    ∃ t, r = .next t ∧ u = clearPending t := by
  cases r with
  | next t => exact ⟨t, rfl, by simpa [eq_comm] using h⟩
  | fault f => cases f
  | refused f => simp [retire] at h

/-! ### Registers -/

@[simp] theorem busy_clearPending (s : State) : (clearPending s).busy = false := rfl

/-- Every register name is decoded from its own offset. -/
theorem regAt_regOffset (r : Reg) : regAt (regOffset r) = some r := by
  cases r with
  | codewin k => revert k; decide
  | _ => rfl

/-- While nothing is pending a read returns the register exactly. -/
theorem readReg_idle {s : State} (h : s.busy = false) (r : Reg) :
    readReg (regOffset r) s = s.regWord r := by
  simp [readReg, regAt_regOffset, h]

theorem mixFree_bit (mask exact free : Word) (i : Nat) (h : mask.getLsbD i = true) :
    (mixFree mask exact free).getLsbD i = exact.getLsbD i := by
  simp [mixFree, h]

theorem statusWord_bit_zero (s : State) : s.statusWord.getLsbD 0 = s.busy := by
  unfold State.statusWord
  rw [BitVec.getLsbD_setWidth, BitVec.getLsbD_append]
  cases s.busy <;> rfl

/-- Bit 0 of a STATUS read is BUSY, also while busy: what `poll` tests. -/
theorem readReg_status_busy (s : State) :
    (readReg (regOffset .status) s).getLsbD 0 = s.busy := by
  cases hb : s.busy with
  | false => rw [readReg_idle hb]; simpa [State.regWord, hb] using statusWord_bit_zero s
  | true =>
    simp only [readReg, regAt_regOffset, hb, if_true]
    rw [mixFree_bit _ _ _ _ (by decide)]
    simpa [State.regWord, hb] using statusWord_bit_zero s

/-- A write to the window touches PENDING, DATA and OVR only. -/
theorem writeReg_cases (off : Nat) (v : Word) (s : State) :
    writeReg off v s = s ∨ writeReg off v s = { s with ovr := true } ∨
      writeReg off v s = { s with pending := some v } ∨
      writeReg off v s = { s with data := v } := by
  unfold writeReg
  split <;> first | (split <;> simp) | simp

/-! ### The window, offset by offset -/

/-- A register is decoded from its own offset and no other (R22). -/
theorem regAt_eq_some {off : Nat} {r : Reg} : regAt off = some r ↔ off = regOffset r := by
  constructor
  · intro h
    unfold regAt at h
    repeat' split at h
    all_goals first
      | (cases h; done)
      | (injection h with h; subst h; simp only [regOffset, Fin.ofNat]; omega)
  · rintro rfl; exact regAt_regOffset r

/-- The reserved offsets (R22). -/
theorem regAt_reserved {off : Nat} (h : 0x24 ≤ off ∧ off ≤ 0x3C ∨ 0x60 ≤ off) :
    regAt off = none := by
  cases hr : regAt off with
  | none => rfl
  | some r =>
    have := regAt_eq_some.1 hr
    cases r <;> simp only [regOffset] at this <;> omega

/-- A read of a reserved offset returns 0, busy or not (R33). -/
theorem readReg_reserved {off : Nat} (s : State) (h : 0x24 ≤ off ∧ off ≤ 0x3C ∨ 0x60 ≤ off) :
    readReg off s = 0#32 := by
  simp only [readReg, regAt_reserved h]

/-- A read while BUSY = 1 of a register that is exact then (R241). -/
theorem readReg_busy_exact {s : State} (h : s.busy = true) {r : Reg}
    (hr : exactMask r = BitVec.allOnes 32) : readReg (regOffset r) s = s.regWord r := by
  simp only [readReg, regAt_regOffset, h, if_true, hr, mixFree, BitVec.and_allOnes,
    BitVec.not_allOnes, BitVec.and_zero, BitVec.or_zero]

/-- A write to CMD (R25, R240). -/
theorem writeReg_cmd (v : Word) (s : State) :
    writeReg 0x08 v s = if s.busy then { s with ovr := true } else { s with pending := some v } :=
  rfl

/-- A write to DATA (R26, R240). -/
theorem writeReg_data (v : Word) (s : State) :
    writeReg 0x0C v s = if s.busy then { s with ovr := true } else { s with data := v } :=
  rfl

/-- A write to any other offset has no effect (R22, R33). -/
theorem writeReg_other {off : Nat} (v : Word) (s : State) (h1 : off ≠ 0x08) (h2 : off ≠ 0x0C) :
    writeReg off v s = s := by
  unfold writeReg
  split
  · next h => exact absurd (regAt_eq_some.1 h) h1
  · next h => exact absurd (regAt_eq_some.1 h) h2
  · rfl

/-- An aligned 32-bit access inside the window reaches the register at its offset (R61). -/
theorem classify_register (p : Params) {off : Nat} (h : off < 256) (h4 : off % 4 = 0) :
    classify p (p.base + off) .word = .register off := by
  have h1 : ¬ (p.base + off < p.base ∨ p.base + 256 ≤ p.base + off) := by omega
  have h2 : p.base + off - p.base = off := by omega
  simp only [classify, if_neg h1, h2, h4, and_self, if_true]

/-- Any other access inside the window is unsupported (R62, R63). -/
theorem classify_unsupported (p : Params) {off : Nat} {width : AccessWidth} (h : off < 256)
    (hu : width ≠ .word ∨ off % 4 ≠ 0) : classify p (p.base + off) width = .unsupported := by
  have h1 : ¬ (p.base + off < p.base ∨ p.base + 256 ≤ p.base + off) := by omega
  have h2 : p.base + off - p.base = off := by omega
  have h3 : ¬ (width = .word ∧ off % 4 = 0) := fun hh => hu.elim (· hh.1) (· hh.2)
  simp only [classify, if_neg h1, h2, if_neg h3]

/-- An access outside the window (R67). -/
theorem classify_outside (p : Params) {addr : Nat} (width : AccessWidth)
    (h : addr < p.base ∨ p.base + 256 ≤ addr) : classify p addr width = .outside :=
  if_pos h

/-- A register that is exact also while BUSY = 1 always reads as itself (R241). -/
theorem readReg_exact (s : State) {r : Reg} (hr : exactMask r = BitVec.allOnes 32) :
    readReg (regOffset r) s = s.regWord r := by
  cases h : s.busy with
  | false => exact readReg_idle h r
  | true => exact readReg_busy_exact h hr

end Sys2Proof.Machine
end

