-- ==== Sys2Proof/Laws/Step.lean ====
section
/-! SUPPORT. What a step can do, said once: the outcomes of a command, of EXEC, of a host access and
of `step`.  Later proofs cite these and do not unfold the step functions. -/

namespace Sys2Proof.Machine

/-- Every command answers a next state that is completed or raised, and leaves PENDING, the
parameters and the outside world alone. -/
theorem exec_next (i : Instr) (s : State) :
    ∃ t, exec i s = .next t ∧ SameOutside s t ∧ t.pending = s.pending ∧ t.data = s.data := by
  cases i <;>
    simp only [exec, execNop, execClrErr, execClearFreq, execCount, execSetFreq, execReadFreq,
      execBuild, execReadNode, execEncode, execDecReset, execDecBit, execDecEnd, walkBit] <;>
    (repeat' split) <;>
    exact ⟨_, rfl, ⟨rfl, rfl, rfl, rfl⟩, rfl, rfl⟩

/-- A command either ends with an error, which is the whole of its effect, or ends without one. -/
theorem exec_raise_or_ok (i : Instr) (s : State) :
    (∃ e, exec i s = .next (raise e s)) ∨ ∃ t, exec i s = .next t ∧ t.lastErr = 0#8 := by
  cases i <;>
    simp only [exec, execNop, execClrErr, execClearFreq, execCount, execSetFreq, execReadFreq,
      execBuild, execReadNode, execEncode, execDecReset, execDecBit, execDecEnd, walkBit] <;>
    (repeat' split) <;>
    first
      | exact .inl ⟨_, rfl⟩
      | exact .inr ⟨_, rfl, rfl⟩

/-- EXEC of a word: the command's own effect, or ILLEGAL_CMD, with PENDING cleared. -/
theorem execWord_cases (w : Word) (s : State) :
    (∃ i t, decode w = .ok i ∧ exec i s = .next t ∧ execWord w s = .next (clearPending t)) ∨
      (∃ e, decode w = .error e ∧ execWord w s = .next (clearPending (raise .illegalCmd s))) := by
  unfold execWord
  cases h : decode w with
  | ok i =>
    obtain ⟨t, ht, -⟩ := exec_next i s
    exact .inl ⟨i, t, rfl, ht, by simp [ht]⟩
  | error e => exact .inr ⟨e, rfl, rfl⟩

/-- The engine's step always answers a next state. -/
theorem engineStep_next (s : State) : ∃ t, engineStep s = .next t := by
  unfold engineStep
  cases s.pending with
  | none => exact ⟨_, rfl⟩
  | some w =>
    rcases execWord_cases w s with ⟨i, t, -, -, h⟩ | ⟨e, -, h⟩
    · exact ⟨_, h⟩
    · exact ⟨_, h⟩

/-- `issue` is the engine's step on the accepted command word. -/
theorem issue_eq (i : Instr) (s : State) :
    engineStep { s with pending := some (encode i) } = .next (issue i s) := by
  obtain ⟨t, ht⟩ := engineStep_next { s with pending := some (encode i) }
  simp [issue, ht]

/-- What an access does: refused outside the window or for REFUSE, a bus error, or its effect. -/
theorem busAccess_cases (addr : Nat) (width : AccessWidth) (f : Nat → State → State) (s : State) :
    (classify s.params addr width = .outside ∧
        busAccess addr width f s = .refused .outsideWindow) ∨
      (∃ off, classify s.params addr width = .register off ∧
        busAccess addr width f s = .next (f off s)) ∨
      (classify s.params addr width = .unsupported ∧ s.params.busSubword = .refuse ∧
        busAccess addr width f s = .refused .unsupportedAccess) ∨
      (classify s.params addr width = .unsupported ∧ s.params.busSubword = .busError ∧
        busAccess addr width f s = .next { s with replies := s.replies ++ [.busError] }) := by
  unfold busAccess
  cases hc : classify s.params addr width with
  | outside => exact .inl ⟨rfl, rfl⟩
  | register off => exact .inr (.inl ⟨off, rfl, rfl⟩)
  | unsupported =>
    cases hb : s.params.busSubword with
    | refuse => exact .inr (.inr (.inl ⟨rfl, rfl, rfl⟩))
    | busError => exact .inr (.inr (.inr ⟨rfl, rfl, rfl⟩))

/-- One step is a host step, an engine step or a reset step, by the schedule. -/
theorem step_cases (s : State) :
    (∃ ts, s.turns = .host :: ts ∧ step s = hostStep { s with turns := ts }) ∨
      (∃ ts, s.turns = .engine :: ts ∧ step s = engineStep { s with turns := ts }) ∨
      (∃ ts, s.turns = .reset :: ts ∧ step s = .next (resetBlock { s with turns := ts })) ∨
      (s.turns = [] ∧ s.busy = true ∧ step s = engineStep s) ∨
      (s.turns = [] ∧ s.busy = false ∧ step s = hostStep s) := by
  unfold step
  cases h : s.turns with
  | nil =>
    cases hb : s.busy with
    | true => exact .inr (.inr (.inr (.inl ⟨rfl, rfl, by simp⟩)))
    | false => exact .inr (.inr (.inr (.inr ⟨rfl, rfl, by simp⟩)))
  | cons a ts =>
    cases a with
    | host => exact .inl ⟨ts, rfl, rfl⟩
    | engine => exact .inr (.inl ⟨ts, rfl, rfl⟩)
    | reset => exact .inr (.inr (.inl ⟨ts, rfl, rfl⟩))

/-- While nothing is pending a host turn, of the schedule or after it, is a host step (R5; log
entry 1). -/
theorem step_host_idle {s : State} {ts : List Agent} (hp : s.pending = none)
    (ht : s.turns = .host :: ts ∨ (s.turns = [] ∧ ts = [])) :
    step s = hostStep { s with turns := ts } := by
  rcases ht with ht | ⟨ht, rfl⟩
  · simp only [step, ht]
  · have hs : ({ s with turns := [] } : State) = s := by rw [← ht]
    rw [hs]
    simp [step, ht, State.busy, hp]

/-- An engine turn, of the schedule or after it, executes the pending word and leaves nothing pending
(R44; log entry 1). -/
theorem step_engine_pending {s : State} {w : Word} (hp : s.pending = some w)
    (ht : s.turns = [] ∨ ∃ ts, s.turns = .engine :: ts) :
    ∃ t, step s = .next t ∧ execWord w { s with turns := s.turns.tail } = .next t ∧
      t.pending = none := by
  have hstep : step s = execWord w { s with turns := s.turns.tail } := by
    rcases ht with ht | ⟨ts, ht⟩
    · have hs : ({ s with turns := [] } : State) = s := by rw [← ht]
      rw [ht, List.tail_nil, hs]
      simp only [step, ht, State.busy, engineStep, hp, Option.isSome_some, if_true]
    · simp only [step, ht, List.tail_cons, engineStep, hp]
  rcases execWord_cases w { s with turns := s.turns.tail } with ⟨i, t, -, -, h⟩ | ⟨e, -, h⟩
  · exact ⟨_, by rw [hstep, h], h, rfl⟩
  · exact ⟨_, by rw [hstep, h], h, rfl⟩

/-- A write while BUSY = 1 touches OVR only (R240). -/
theorem writeReg_busy (off : Nat) (v : Word) {s : State} (h : s.busy = true) :
    writeReg off v s = s ∨ writeReg off v s = { s with ovr := true } := by
  unfold writeReg
  split <;> simp [h]

/-- A host step while BUSY = 1 that has an outcome leaves the block as it is but for OVR, and leaves
the schedule (R66, R240). -/
theorem hostStep_while_busy {s t : State} (hb : s.busy = true) (h : hostStep s = .next t) :
    t = { s with host := t.host, replies := t.replies, draw := t.draw, ovr := t.ovr } ∧
      ∀ op ∈ t.host, op ∈ s.host := by
  unfold hostStep at h
  split at h
  · cases h; exact ⟨rfl, fun _ => id⟩
  · next addr width rest hr =>
    have hmem : ∀ op ∈ rest, op ∈ s.host := fun op hop => hr ▸ List.mem_cons_of_mem _ hop
    rcases busAccess_cases addr width hostRead { s with host := rest } with
      ⟨-, h'⟩ | ⟨off, -, h'⟩ | ⟨-, -, h'⟩ | ⟨-, -, h'⟩ <;> rw [h'] at h <;> cases h
    · exact ⟨rfl, hmem⟩
    · exact ⟨rfl, hmem⟩
  · next addr width v rest hr =>
    have hmem : ∀ op ∈ rest, op ∈ s.host := fun op hop => hr ▸ List.mem_cons_of_mem _ hop
    rcases busAccess_cases addr width (fun off t => writeReg off v t) { s with host := rest } with
      ⟨-, h'⟩ | ⟨off, -, h'⟩ | ⟨-, -, h'⟩ | ⟨-, -, h'⟩ <;> rw [h'] at h <;> cases h
    · rcases writeReg_busy off v (s := { s with host := rest }) hb with hw | hw <;> rw [hw] <;>
        exact ⟨rfl, hmem⟩
    · exact ⟨rfl, hmem⟩
  · cases h
    refine ⟨rfl, fun op hop => ?_⟩
    simpa [hb] using hop

end Sys2Proof.Machine
end

