-- ==== Sys2Proof/Laws/Commands.lean ====
section
/-! SUPPORT. The outcome of every command on each of its paths, one equation a path, so that no later
proof unfolds a command's rule. -/

namespace Sys2Proof.Machine

variable {s : State}

theorem exec_nop (s : State) : exec .nop s = .next (complete false s) := rfl

theorem exec_clrErr (s : State) :
    exec .clrErr s = .next (complete false { s with errSticky := false, ovr := false }) := rfl

theorem exec_clearFreq (s : State) :
    exec .clearFreq s = .next (complete false (invalidate { s with freq := clearedFreq })) := rfl

/-- COUNT of an entry at its maximum (R111). -/
theorem exec_count_full {sym : Byte} (h : (s.freqAt sym).toNat = 2 ^ s.params.fw - 1) :
    exec (.count sym) s = .next (raise .freqOverflow s) :=
  if_pos (beq_iff_eq.2 h)

/-- COUNT below the maximum (R111). -/
theorem exec_count_ok {sym : Byte} (h : (s.freqAt sym).toNat ≠ 2 ^ s.params.fw - 1) :
    exec (.count sym) s =
      .next (complete false (invalidate (s.setFreqAt sym (s.freqAt sym + 1#24)))) :=
  if_neg fun hh => h (beq_iff_eq.1 hh)

/-- SET_FREQ of a DATA that does not fit (R113). -/
theorem exec_setFreq_large (sym : Byte) (h : 2 ^ s.params.fw ≤ s.data.toNat) :
    exec (.setFreq sym) s = .next (raise .freqOverflow s) :=
  if_pos (decide_eq_true h)

/-- SET_FREQ of a DATA that fits (R113). -/
theorem exec_setFreq_ok (sym : Byte) (h : s.data.toNat < 2 ^ s.params.fw) :
    exec (.setFreq sym) s = .next (complete false (invalidate (s.setFreqAt sym s.dataAsFreq))) :=
  if_neg fun hh => absurd (of_decide_eq_true hh) (Nat.not_le.2 h)

theorem exec_readFreq (sym : Byte) (s : State) :
    exec (.readFreq sym) s =
      .next (complete false { s with res0 := (s.freqAt sym).setWidth 32 }) := rfl

theorem exec_build (s : State) :
    exec .build s = .next (complete false (loadTree (buildTree s.freq) s)) := rfl

/-- READ_NODE of an entry in use (R140). -/
theorem exec_readNode_inUse {idx : NodeIdx} (h : s.inUse idx = true) :
    exec (.readNode idx) s =
      .next (complete false
        { s with res0 := (s.nodeAt idx).packed, res1 := (s.nodeAt idx).freq }) :=
  if_pos h

/-- READ_NODE of any other index (R140). -/
theorem exec_readNode_unused {idx : NodeIdx} (h : s.inUse idx = false) :
    exec (.readNode idx) s = .next (complete false { s with res0 := 0#32, res1 := 0#32 }) :=
  if_neg (by rw [h]; decide)

/-- Without a tree ENCODE and every DEC command raise NOT_BUILT (R202). -/
theorem exec_notBuilt (h : s.tstate = .none) (i : Instr)
    (hi : (∃ b, i = .encode b) ∨ i = .decReset ∨ (∃ bit, i = .decBit bit) ∨ i = .decEnd) :
    exec i s = .next (raise .notBuilt s) := by
  rcases hi with ⟨b, rfl⟩ | rfl | ⟨bit, rfl⟩ | rfl
  · exact if_pos h
  · exact if_pos h
  · simp only [exec, execDecBit, h]
  · simp only [exec, execDecEnd, h]

/-- ENCODE of a byte without a code (R160). -/
theorem exec_encode_unused {sym : Byte} (h : s.tstate ≠ .none)
    (hu : (s.codeAt sym).used = false) : exec (.encode sym) s = .next (raise .unusedSymbol s) :=
  (if_neg h).trans (if_pos hu)

/-- ENCODE of a byte with a code (R160). -/
theorem exec_encode_used {sym : Byte} (h : s.tstate ≠ .none) (hu : (s.codeAt sym).used = true) :
    exec (.encode sym) s =
      .next (complete false
        { s with res0 := (s.codeAt sym).len.setWidth 32, codewin := (s.codeAt sym).bits }) :=
  (if_neg h).trans (if_neg (by rw [hu]; decide))

/-- DEC_RESET with a tree (R171). -/
theorem exec_decReset_ok (h : s.tstate ≠ .none) :
    exec .decReset s = .next (complete false (walkToRoot s)) :=
  if_neg h

/-- DEC_BIT on a SINGLE tree (R172). -/
theorem exec_decBit_single (bit : Bool) (h : s.tstate = .single) :
    exec (.decBit bit) s = .next (raise .degenerateBit s) := by
  simp only [exec, execDecBit, h]

/-- DEC_BIT on an EMPTY tree (R172). -/
theorem exec_decBit_empty (bit : Bool) (h : s.tstate = .empty) :
    exec (.decBit bit) s = .next (complete false s) := by
  simp only [exec, execDecBit, h]

/-- DEC_BIT on a MULTI tree when the child is internal (R172). -/
theorem exec_decBit_internal {bit : Bool} (h : s.tstate = .multi)
    (hc : (s.nodeAt ((s.nodeAt s.walkNode).child bit)).internal = true) :
    exec (.decBit bit) s =
      .next (complete false
        { s with
          walkNode := (s.nodeAt s.walkNode).child bit, walkDepth := s.walkDepth + 1#8 }) := by
  simp only [exec, execDecBit, h, walkBit]
  rw [if_pos hc]

/-- DEC_BIT on a MULTI tree when the child is a leaf (R172). -/
theorem exec_decBit_leaf {bit : Bool} (h : s.tstate = .multi)
    (hc : (s.nodeAt ((s.nodeAt s.walkNode).child bit)).internal = false) :
    exec (.decBit bit) s =
      .next (complete true (walkToRoot
        { s with res0 := (s.nodeAt ((s.nodeAt s.walkNode).child bit)).byte.setWidth 32 })) := by
  simp only [exec, execDecBit, h, walkBit]
  rw [if_neg (by rw [hc]; decide)]

/-- DEC_END in the middle of a code (R173). -/
theorem exec_decEnd_truncated (h : s.tstate = .multi) (hd : s.walkDepth ≠ 0#8) :
    exec .decEnd s = .next (raise .truncatedCode s) := by
  simp only [exec, execDecEnd, h]
  exact if_neg hd

/-- DEC_END on a SINGLE tree (R173). -/
theorem exec_decEnd_single (h : s.tstate = .single) :
    exec .decEnd s =
      .next (complete false
        { s with
          res0 := (s.nodeAt s.root).byte.setWidth 32, res1 := (s.nodeAt s.root).freq }) := by
  simp only [exec, execDecEnd, h]

/-- DEC_END on an EMPTY tree, or on a MULTI tree at the root (R173). -/
theorem exec_decEnd_atRoot (h : s.tstate = .empty ∨ (s.tstate = .multi ∧ s.walkDepth = 0#8)) :
    exec .decEnd s = .next (complete false { s with res0 := 0#32, res1 := 0#32 }) := by
  rcases h with h | ⟨h, hd⟩
  · simp only [exec, execDecEnd, h]
  · simp only [exec, execDecEnd, h]
    exact if_pos hd

end Sys2Proof.Machine
end

