-- ==== Sys2Proof/Laws/PerInstr.lean ====
section
/-! SUPPORT. Statements made for every instruction, one lemma per constructor: the family OpField,
the OP field of the encoded word is the OP value of the mnemonic (R80, R85). -/

namespace Sys2Proof.Laws.OpField

/-- Bits [31:24] of the encoded instruction are its OP value (R80, R85). -/
def Statement (i : Instr) : Prop := opOf (encode i) = i.mnemonic.op

/-- The OP field of a command word whose operand stays below bit 24. -/
theorem opOf_commandWord (op : BitVec 8) (x : Word) (h : x.toNat < 2 ^ 24) :
    opOf (commandWord op x) = op := by
  apply BitVec.eq_of_toNat_eq
  have hx : x.toNat >>> 24 = 0 := by
    rw [Nat.shiftRight_eq_div_pow]; exact Nat.div_eq_of_lt h
  have ho := op.isLt
  simp only [opOf, commandWord, BitVec.extractLsb'_toNat, BitVec.toNat_or, BitVec.toNat_shiftLeft,
    BitVec.toNat_setWidth, Nat.shiftRight_or_distrib, hx, Nat.or_zero]
  rw [Nat.shiftLeft_eq, Nat.shiftRight_eq_div_pow]
  omega

theorem setWidth_lt {n : Nat} (v : BitVec n) (h : n ≤ 24) :
    (v.setWidth 32 : Word).toNat < 2 ^ 24 := by
  have h1 : v.toNat < 2 ^ 24 := Nat.lt_of_lt_of_le v.isLt (Nat.pow_le_pow_right (by decide) h)
  have h2 : v.toNat % 2 ^ 32 ≤ v.toNat := Nat.mod_le _ _
  simpa using Nat.lt_of_le_of_lt h2 h1

theorem nop : Statement .nop := rfl
theorem clrErr : Statement .clrErr := rfl
theorem clearFreq : Statement .clearFreq := rfl
theorem count (sym : Byte) : Statement (.count sym) :=
  opOf_commandWord _ _ (setWidth_lt sym (by decide))
theorem setFreq (sym : Byte) : Statement (.setFreq sym) :=
  opOf_commandWord _ _ (setWidth_lt sym (by decide))
theorem readFreq (sym : Byte) : Statement (.readFreq sym) :=
  opOf_commandWord _ _ (setWidth_lt sym (by decide))
theorem build : Statement .build := rfl
theorem readNode (idx : NodeIdx) : Statement (.readNode idx) :=
  opOf_commandWord _ _ (setWidth_lt idx (by decide))
theorem encode (sym : Byte) : Statement (.encode sym) :=
  opOf_commandWord _ _ (setWidth_lt sym (by decide))
theorem decReset : Statement .decReset := rfl
theorem decBit (bit : Bool) : Statement (.decBit bit) := by cases bit <;> rfl
theorem decEnd : Statement .decEnd := rfl

end Sys2Proof.Laws.OpField
end

