-- ==== Sys2Proof/Laws/Tree.lean ====
section
/-! SUPPORT. The tree builder, said once (43_tree_builder.md): the key order, the state of Merge after
every turn, the leaves of a table, the paths of the written entries, the code table, and what BUILD
computes by the number of symbols. -/

namespace Sys2Proof.Machine

/-! ### The key order (R14) -/

/-- The key of a node as one number: frequency first, then byte value. -/
def Node.key (a : Node) : Nat := a.freq.toNat * 256 + a.byte.toNat

/-- The key order is the order of the key numbers (R14). -/
theorem keyLt_iff (a b : Node) : a.keyLt b = true ↔ a.key < b.key := by
  have h1 := a.byte.isLt
  have h2 := b.byte.isLt
  simp only [Node.keyLt, Node.key, Bool.or_eq_true, Bool.and_eq_true, decide_eq_true_eq, beq_iff_eq,
    BitVec.lt_def, ← BitVec.toNat_inj]
  omega

/-- Nodes of different bytes have different keys (R135). -/
theorem key_ne_of_byte_ne {a b : Node} (h : a.byte ≠ b.byte) : a.key ≠ b.key := by
  have h1 := a.byte.isLt
  have h2 := b.byte.isLt
  have h3 : a.byte.toNat ≠ b.byte.toNat := fun hh => h (BitVec.eq_of_toNat_eq hh)
  simp only [Node.key]
  omega

/-! ### Reading the written entries -/

theorem builtNode_append_left (ns xs : List Node) {i : Nat} (h : i < ns.length) :
    builtNode (ns ++ xs) i = builtNode ns i := by
  simp [builtNode, List.getD_eq_getElem?_getD, List.getElem?_append_left h]

theorem builtNode_append_last (ns : List Node) (x : Node) :
    builtNode (ns ++ [x]) ns.length = x := by
  simp [builtNode]

theorem builtNode_of_length_le {ns : List Node} {i : Nat} (h : ns.length ≤ i) :
    builtNode ns i = default := by
  simp [builtNode, List.getD_eq_getElem?_getD, List.getElem?_eq_none h]

theorem default_internal : (default : Node).internal = false := rfl

/-! ### Selecting the smallest key (R133) -/

theorem smallerOf_cases (ns : List Node) (i j : Nat) :
    (smallerOf ns i j = i ∨ smallerOf ns i j = j) ∧
      (builtNode ns (smallerOf ns i j)).key ≤ (builtNode ns i).key ∧
      (builtNode ns (smallerOf ns i j)).key ≤ (builtNode ns j).key := by
  unfold smallerOf
  by_cases h : (builtNode ns j).keyLt (builtNode ns i) = true
  · rw [if_pos h]
    have := (keyLt_iff _ _).1 h
    exact ⟨.inr rfl, by omega, by omega⟩
  · rw [if_neg h]
    have : ¬ (builtNode ns j).key < (builtNode ns i).key := fun hh => h ((keyLt_iff _ _).2 hh)
    exact ⟨.inl rfl, by omega, by omega⟩

theorem foldl_smallerOf (ns : List Node) (rest : List Nat) (i : Nat) :
    rest.foldl (smallerOf ns) i ∈ i :: rest ∧
      ∀ j ∈ i :: rest, (builtNode ns (rest.foldl (smallerOf ns) i)).key ≤ (builtNode ns j).key := by
  induction rest generalizing i with
  | nil => simp
  | cons k rest ih =>
    obtain ⟨hmem, hle⟩ := ih (smallerOf ns i k)
    obtain ⟨hc, hi, hk⟩ := smallerOf_cases ns i k
    have hs := hle _ List.mem_cons_self
    simp only [List.foldl_cons]
    constructor
    · rcases List.mem_cons.1 hmem with h | h
      · rw [h]; rcases hc with h' | h' <;> simp [h']
      · simp [h]
    · intro j hj
      simp only [List.mem_cons] at hj
      rcases hj with rfl | rfl | hj
      · omega
      · omega
      · exact hle j (List.mem_cons_of_mem _ hj)

/-- `smallest` is a member of the working set and no member has a smaller key. -/
theorem smallest_spec (ns : List Node) {w : List Nat} (h : w ≠ []) :
    smallest ns w ∈ w ∧ ∀ j ∈ w, (builtNode ns (smallest ns w)).key ≤ (builtNode ns j).key := by
  cases w with
  | nil => exact absurd rfl h
  | cons i rest => exact foldl_smallerOf ns rest i

/-! ### What one merge keeps -/

/-- j is a child of entry i. -/
def ChildIn (ns : List Node) (j i : Nat) : Prop :=
  (builtNode ns i).internal = true ∧
    ((builtNode ns i).left.toNat = j ∨ (builtNode ns i).right.toNat = j)

/-- j is in the working set just before entry m is written (R133). -/
def LiveIn (ns : List Node) (m j : Nat) : Prop := j < m ∧ ∀ i < m, ¬ ChildIn ns j i

theorem childIn_append {ns xs : List Node} {j i : Nat} (h : i < ns.length) :
    ChildIn (ns ++ xs) j i ↔ ChildIn ns j i := by
  simp [ChildIn, builtNode_append_left ns xs h]

theorem liveIn_append {ns xs : List Node} {m j : Nat} (h : m ≤ ns.length) :
    LiveIn (ns ++ xs) m j ↔ LiveIn ns m j := by
  unfold LiveIn
  constructor
  · rintro ⟨h1, h2⟩
    exact ⟨h1, fun i hi hc => h2 i hi ((childIn_append (by omega)).2 hc)⟩
  · rintro ⟨h1, h2⟩
    exact ⟨h1, fun i hi hc => h2 i hi ((childIn_append (by omega)).1 hc)⟩

/-- What BUILD writes at an internal entry i: the node over the two smallest keys of the working
set of that moment (R133). -/
structure MergedAt (ns : List Node) (i : Nat) : Prop where
  internal : (builtNode ns i).internal = true
  left_live : LiveIn ns i (builtNode ns i).left.toNat
  right_live : LiveIn ns i (builtNode ns i).right.toNat
  byte_eq : (builtNode ns i).byte = (builtNode ns (builtNode ns i).left.toNat).byte
  byte_lt : (builtNode ns (builtNode ns i).left.toNat).byte.toNat <
    (builtNode ns (builtNode ns i).right.toNat).byte.toNat
  freq_eq : (builtNode ns i).freq = (builtNode ns (builtNode ns i).left.toNat).freq +
    (builtNode ns (builtNode ns i).right.toNat).freq
  smallest : ∀ j, LiveIn ns i j → j ≠ (builtNode ns i).left.toNat →
    j ≠ (builtNode ns i).right.toNat →
    (builtNode ns (builtNode ns i).left.toNat).key < (builtNode ns j).key ∧
      (builtNode ns (builtNode ns i).right.toNat).key < (builtNode ns j).key

theorem MergedAt.append {ns xs : List Node} {i : Nat} (h : MergedAt ns i) (hi : i < ns.length) :
    MergedAt (ns ++ xs) i := by
  have e : ∀ k, k ≤ i → builtNode (ns ++ xs) k = builtNode ns k := fun k hk =>
    builtNode_append_left ns xs (by omega)
  have el := e _ (Nat.le_of_lt h.left_live.1)
  have er := e _ (Nat.le_of_lt h.right_live.1)
  have ei := e i (Nat.le_refl i)
  have hl : ∀ j, LiveIn (ns ++ xs) i j ↔ LiveIn ns i j := fun j => liveIn_append (by omega)
  constructor
  · rw [ei]; exact h.internal
  · rw [ei, hl]; exact h.left_live
  · rw [ei, hl]; exact h.right_live
  · rw [ei, el]; exact h.byte_eq
  · rw [ei, el, er]; exact h.byte_lt
  · rw [ei, el, er]; exact h.freq_eq
  · intro j hj h1 h2
    rw [ei] at h1 h2
    rw [hl] at hj
    rw [ei, el, er, e j (Nat.le_of_lt hj.1)]
    exact h.smallest j hj h1 h2

/-- The state of Merge over `leaves` with entries `ns` written and working set `w` (R133, R135). -/
structure MergeState (leaves ns : List Node) (w : List Nat) : Prop where
  leaf : ∀ x ∈ leaves, x.internal = false
  /-- The leaves stay where they were written. -/
  pre : ∃ xs, ns = leaves ++ xs
  /-- Each merge adds one entry and makes the working set one smaller. -/
  count : ns.length + w.length = 2 * leaves.length
  nodup : w.Nodup
  /-- The working set is the entries no merge has taken. -/
  live : ∀ j, j ∈ w ↔ LiveIn ns ns.length j
  /-- Bytes in the working set are pairwise different (R135). -/
  bytes : ∀ j ∈ w, ∀ k ∈ w, j ≠ k → (builtNode ns j).byte ≠ (builtNode ns k).byte
  /-- Every entry after the leaves was written by a merge. -/
  merged : ∀ i, leaves.length ≤ i → i < ns.length → MergedAt ns i
  /-- No entry has two parents. -/
  parent : ∀ j i k, i < ns.length → k < ns.length → ChildIn ns j i → ChildIn ns j k → i = k

theorem MergeState.leaf_entry {leaves ns : List Node} {w : List Nat} (h : MergeState leaves ns w)
    {i : Nat} (hi : i < leaves.length) : (builtNode ns i).internal = false := by
  obtain ⟨xs, rfl⟩ := h.pre
  rw [builtNode_append_left _ _ hi]
  have : builtNode leaves i = leaves[i] := by
    simp [builtNode, List.getD_eq_getElem?_getD, List.getElem?_eq_getElem hi]
  rw [this]
  exact h.leaf _ (List.getElem_mem hi)

/-- A child stands below its parent. -/
theorem MergeState.child_lt {leaves ns : List Node} {w : List Nat} (h : MergeState leaves ns w)
    {j i : Nat} (hi : i < ns.length) (hc : ChildIn ns j i) : j < i := by
  by_cases hl : i < leaves.length
  · exact absurd hc.1 (by rw [h.leaf_entry hl]; decide)
  · have hm := h.merged i (by omega) hi
    rcases hc.2 with rfl | rfl
    · exact hm.left_live.1
    · exact hm.right_live.1

/-- The links of a parent are the two merged entries, the one of smaller byte on the left. -/
theorem parentOf_links (ns : List Node) {a c : Nat} (ha : a < 512) (hc : c < 512)
    (hb : (builtNode ns a).byte ≠ (builtNode ns c).byte) :
    (((parentOf ns a c).left.toNat = a ∧ (parentOf ns a c).right.toNat = c) ∨
      ((parentOf ns a c).left.toNat = c ∧ (parentOf ns a c).right.toNat = a)) ∧
    (parentOf ns a c).byte = (builtNode ns (parentOf ns a c).left.toNat).byte ∧
    (builtNode ns (parentOf ns a c).left.toNat).byte.toNat <
      (builtNode ns (parentOf ns a c).right.toNat).byte.toNat ∧
    (parentOf ns a c).freq = (builtNode ns (parentOf ns a c).left.toNat).freq +
      (builtNode ns (parentOf ns a c).right.toNat).freq := by
  have hn : (builtNode ns a).byte.toNat ≠ (builtNode ns c).byte.toNat :=
    fun h => hb (BitVec.eq_of_toNat_eq h)
  have ea : a % 512 = a := Nat.mod_eq_of_lt ha
  have ec : c % 512 = c := Nat.mod_eq_of_lt hc
  by_cases h : (builtNode ns a).byte < (builtNode ns c).byte
  · have h' := BitVec.lt_def.1 h
    simp only [parentOf, if_pos h, BitVec.toNat_ofNat, Nat.reducePow, ea, ec]
    exact ⟨.inl ⟨trivial, trivial⟩, trivial, h', trivial⟩
  · have h' : ¬ (builtNode ns a).byte.toNat < (builtNode ns c).byte.toNat :=
      fun hh => h (BitVec.lt_def.2 hh)
    simp only [parentOf, if_neg h, BitVec.toNat_ofNat, Nat.reducePow, ea, ec]
    exact ⟨.inr ⟨trivial, trivial⟩, trivial, by omega, BitVec.add_comm _ _⟩

/-- One merge keeps the state of Merge. -/
theorem MergeState.merge {leaves ns : List Node} {w : List Nat} (h : MergeState leaves ns w)
    (hn : leaves.length ≤ 256) (hw : 2 ≤ w.length) :
    MergeState leaves
      (ns ++ [parentOf ns (smallest ns w) (smallest ns (w.erase (smallest ns w)))])
      ((w.erase (smallest ns w)).erase (smallest ns (w.erase (smallest ns w))) ++ [ns.length]) := by
  obtain ⟨ha, hale⟩ := smallest_spec ns (w := w) (by intro hh; simp [hh] at hw)
  generalize smallest ns w = a at *
  have hwa : (w.erase a).length = w.length - 1 := List.length_erase_of_mem ha
  obtain ⟨hc', hcle⟩ := smallest_spec ns (w := w.erase a) (by
    intro hh; rw [hh] at hwa; simp at hwa; omega)
  generalize smallest ns (w.erase a) = c at *
  have hmem : ∀ j, j ∈ w.erase a ↔ j ≠ a ∧ j ∈ w := fun j => h.nodup.mem_erase_iff
  have hmem2 : ∀ j, j ∈ (w.erase a).erase c ↔ j ≠ c ∧ j ≠ a ∧ j ∈ w := fun j => by
    rw [(h.nodup.erase a).mem_erase_iff, hmem]
  obtain ⟨hca, hc⟩ := (hmem c).1 hc'
  have hal := (h.live a).1 ha
  have hcl := (h.live c).1 hc
  have hlen : ns.length ≤ 510 := by have := h.count; omega
  have hbyte := h.bytes a ha c hc (Ne.symm hca)
  obtain ⟨hlr, hxb, hxlt, hxf⟩ := parentOf_links ns (a := a) (c := c)
    (by have := hal.1; omega) (by have := hcl.1; omega) hbyte
  generalize hx : parentOf ns a c = x at *
  have hxi : x.internal = true := by rw [← hx]; rfl
  have hlast := builtNode_append_last ns x
  have hold : ∀ k, k < ns.length → builtNode (ns ++ [x]) k = builtNode ns k :=
    fun k hk => builtNode_append_left ns _ hk
  have hchild : ∀ j, ChildIn (ns ++ [x]) j ns.length ↔ j = a ∨ j = c := by
    intro j
    simp only [ChildIn, hlast, hxi, true_and]
    rcases hlr with ⟨h1, h2⟩ | ⟨h1, h2⟩ <;> rw [h1, h2] <;> omega
  have hlive : ∀ j, LiveIn (ns ++ [x]) ns.length j ↔ LiveIn ns ns.length j :=
    fun j => liveIn_append (Nat.le_refl _)
  have hll : x.left.toNat < ns.length ∧ x.right.toNat < ns.length := by
    have := hal.1; have := hcl.1
    rcases hlr with ⟨h1, h2⟩ | ⟨h1, h2⟩ <;> omega
  have hlen' : (ns ++ [x]).length = ns.length + 1 := by simp
  constructor
  · exact h.leaf
  · obtain ⟨xs, hxs⟩ := h.pre
    exact ⟨xs ++ [x], by rw [hxs, List.append_assoc]⟩
  · have h1 : ((w.erase a).erase c).length = w.length - 2 := by
      rw [List.length_erase_of_mem hc', hwa]; omega
    have := h.count
    simp only [List.length_append, List.length_singleton, h1]
    omega
  · refine List.nodup_append.2 ⟨(h.nodup.erase a).erase c, by simp, ?_⟩
    intro j hj k hk
    have := ((h.live j).1 ((hmem2 j).1 hj).2.2).1
    simp only [List.mem_singleton] at hk
    omega
  · intro j
    simp only [List.mem_append, hmem2, List.mem_singleton, hlen']
    constructor
    · rintro (⟨hjc, hja, hj⟩ | rfl)
      · obtain ⟨hjl, hjn⟩ := (h.live j).1 hj
        refine ⟨by omega, fun i hi hcj => ?_⟩
        by_cases hi' : i < ns.length
        · exact hjn i hi' ((childIn_append hi').1 hcj)
        · have : i = ns.length := by omega
          subst this
          rcases (hchild j).1 hcj with h1 | h1 <;> contradiction
      · refine ⟨by omega, fun i hi hcj => ?_⟩
        by_cases hi' : i < ns.length
        · have := h.child_lt hi' ((childIn_append hi').1 hcj)
          omega
        · have : i = ns.length := by omega
          subst this
          have := hal.1; have := hcl.1
          rcases (hchild ns.length).1 hcj with h1 | h1 <;> omega
    · rintro ⟨hjl, hjn⟩
      by_cases hj : j = ns.length
      · exact .inr hj
      · left
        have hnc := fun hh => hjn ns.length (by omega) ((hchild j).2 hh)
        refine ⟨fun hh => hnc (.inr hh), fun hh => hnc (.inl hh), (h.live j).2 ⟨by omega, ?_⟩⟩
        exact fun i hi hcj => hjn i (by omega) ((childIn_append hi).2 hcj)
  · have key : ∀ j ∈ (w.erase a).erase c,
        (builtNode (ns ++ [x]) j).byte ≠ (builtNode (ns ++ [x]) ns.length).byte := by
      intro j hj
      obtain ⟨hjc, hja, hjw⟩ := (hmem2 j).1 hj
      rw [hold j ((h.live j).1 hjw).1, hlast, hxb]
      rcases hlr with ⟨h1, -⟩ | ⟨h1, -⟩ <;> rw [h1]
      · exact h.bytes j hjw a ha hja
      · exact h.bytes j hjw c hc hjc
    intro j hj k hk hjk
    simp only [List.mem_append, List.mem_singleton] at hj hk
    rcases hj with hj | rfl <;> rcases hk with hk | rfl
    · have hj' := ((hmem2 j).1 hj).2.2
      have hk' := ((hmem2 k).1 hk).2.2
      rw [hold j ((h.live j).1 hj').1, hold k ((h.live k).1 hk').1]
      exact h.bytes j hj' k hk' hjk
    · exact key j hj
    · exact (key k hk).symm
    · exact absurd rfl hjk
  · intro i hi hil
    rw [hlen'] at hil
    by_cases hi' : i < ns.length
    · exact (h.merged i hi hi').append hi'
    · have : i = ns.length := by omega
      subst this
      have hmin : ∀ j, LiveIn ns ns.length j → j ≠ a → j ≠ c →
          (builtNode ns a).key < (builtNode ns j).key ∧
            (builtNode ns c).key < (builtNode ns j).key := by
        intro j hj hja hjc
        have hjw := (h.live j).2 hj
        have h1 := hale j hjw
        have h2 := hcle j ((hmem j).2 ⟨hja, hjw⟩)
        have h3 := key_ne_of_byte_ne (h.bytes a ha j hjw (Ne.symm hja))
        have h4 := key_ne_of_byte_ne (h.bytes c hc j hjw (Ne.symm hjc))
        omega
      constructor
      · rw [hlast]; exact hxi
      · rw [hlast, hlive]; rcases hlr with ⟨h1, -⟩ | ⟨h1, -⟩ <;> rw [h1] <;> assumption
      · rw [hlast, hlive]; rcases hlr with ⟨-, h1⟩ | ⟨-, h1⟩ <;> rw [h1] <;> assumption
      · rw [hlast, hold _ hll.1]; exact hxb
      · rw [hlast, hold _ hll.1, hold _ hll.2]; exact hxlt
      · rw [hlast, hold _ hll.1, hold _ hll.2]; exact hxf
      · intro j hj h1 h2
        rw [hlast] at h1 h2
        rw [hlive] at hj
        rw [hlast, hold _ hll.1, hold _ hll.2, hold j hj.1]
        rcases hlr with ⟨e1, e2⟩ | ⟨e1, e2⟩ <;> rw [e1, e2] <;> rw [e1] at h1 <;> rw [e2] at h2
        · exact hmin j hj h1 h2
        · exact (hmin j hj h2 h1).symm
  · have hfresh : ∀ j i, i < ns.length → ChildIn (ns ++ [x]) j i →
        ¬ ChildIn (ns ++ [x]) j ns.length := by
      intro j i hi hci hcn
      have hci' := (childIn_append hi).1 hci
      rcases (hchild j).1 hcn with rfl | rfl
      · exact hal.2 i hi hci'
      · exact hcl.2 i hi hci'
    intro j i k hi hk hci hck
    rw [hlen'] at hi hk
    by_cases hi' : i < ns.length <;> by_cases hk' : k < ns.length
    · exact h.parent j i k hi' hk' ((childIn_append hi').1 hci) ((childIn_append hk').1 hck)
    · have : k = ns.length := by omega
      subst this
      exact absurd hck (hfresh j i hi' hci)
    · have : i = ns.length := by omega
      subst this
      exact absurd hci (hfresh j k hk' hck)
    · omega

/-- The loop of Merge keeps its state and ends with one element in the working set. -/
theorem MergeState.loop {leaves : List Node} (hn : leaves.length ≤ 256) (fuel : Nat) :
    ∀ {ns : List Node} {w : List Nat}, MergeState leaves ns w → 1 ≤ w.length →
      w.length ≤ fuel + 1 →
      MergeState leaves (mergeLoop fuel ns w).1 (mergeLoop fuel ns w).2 ∧
        (mergeLoop fuel ns w).2.length = 1 := by
  induction fuel with
  | zero =>
    intro ns w h h1 h2
    exact ⟨h, by simp only [mergeLoop]; omega⟩
  | succ fuel ih =>
    intro ns w h h1 h2
    unfold mergeLoop
    by_cases hw : 2 ≤ w.length
    · simp only [if_pos hw]
      have hm := h.merge hn hw
      have hc := hm.count
      have hc0 := h.count
      refine ih hm ?_ ?_ <;> (simp only [List.length_append, List.length_singleton] at hc ⊢; omega)
    · simp only [if_neg hw]
      exact ⟨h, by omega⟩

/-! ### The leaves (R130) -/

/-- FREQ of a table at a byte. -/
def freqOf (freq : Vector Freq 256) (b : Byte) : Freq := freq[b.toNat]'b.isLt

theorem freqAt_eq (s : State) (b : Byte) : s.freqAt b = freqOf s.freq b := rfl

/-- The bytes of non-zero frequency in ascending order (R130). -/
def presentBytes (freq : Vector Freq 256) : List Byte :=
  allBytes.filter fun b => freqOf freq b != 0#24

theorem zipIdx_eq_map_range {α : Type} [Inhabited α] (l : List α) :
    l.zipIdx = (List.range l.length).map fun i => (l.getD i default, i) := by
  apply List.ext_getElem
  · simp
  · intro i h1 h2
    simp at h1
    simp [List.getD_eq_getElem?_getD, h1]

/-- The leaves are the present bytes in ascending order, each with its frequency (R130). -/
theorem leafNodes_eq (freq : Vector Freq 256) :
    leafNodes freq = (presentBytes freq).map fun b => leafNode b (freqOf freq b) := by
  have hlen : freq.toList.length = 256 := by simp
  have hf : ∀ i, i < 256 → freq.toList.getD i default = freqOf freq (BitVec.ofNat 8 i) := by
    intro i hi
    have : (BitVec.ofNat 8 i).toNat = i := by simp [Nat.mod_eq_of_lt hi]
    simp [freqOf, List.getD_eq_getElem?_getD, this, hi]
  unfold leafNodes presentBytes allBytes
  rw [zipIdx_eq_map_range, hlen, List.filterMap_map, List.filter_map, List.map_map,
    ← List.filterMap_eq_map, ← List.filterMap_eq_filter, List.filterMap_filterMap]
  apply List.filterMap_congr
  intro i hi
  have hi' : i < 256 := List.mem_range.1 hi
  simp only [Function.comp, hf i hi']
  by_cases h : freqOf freq (BitVec.ofNat 8 i) = 0#24 <;> simp [h, Option.guard]

theorem allBytes_sorted : allBytes.Pairwise (fun a b => a.toNat < b.toNat) := by
  refine List.pairwise_map.2 (List.pairwise_lt_range.imp_of_mem fun {i j} hi hj hij => ?_)
  have hi' := List.mem_range.1 hi
  have hj' := List.mem_range.1 hj
  simpa [Nat.mod_eq_of_lt hi', Nat.mod_eq_of_lt hj'] using hij

theorem allBytes_nodup : allBytes.Nodup :=
  allBytes_sorted.imp fun h he => absurd (congrArg BitVec.toNat he) (Nat.ne_of_lt h)

theorem mem_allBytes (b : Byte) : b ∈ allBytes := by
  refine List.mem_map.2 ⟨b.toNat, List.mem_range.2 b.isLt, ?_⟩
  simp

theorem mem_presentBytes {freq : Vector Freq 256} {b : Byte} :
    b ∈ presentBytes freq ↔ freqOf freq b ≠ 0#24 := by
  simp [presentBytes, mem_allBytes]

theorem presentBytes_sorted (freq : Vector Freq 256) :
    (presentBytes freq).Pairwise (fun a b => a.toNat < b.toNat) :=
  allBytes_sorted.filter _

theorem presentBytes_length_le (freq : Vector Freq 256) : (presentBytes freq).length ≤ 256 :=
  Nat.le_trans (List.length_filter_le _ _) (by decide +kernel)

theorem leafNodes_length (freq : Vector Freq 256) :
    (leafNodes freq).length = (presentBytes freq).length := by
  simp [leafNodes_eq]

/-- Leaf k of the leaf list. -/
theorem builtNode_leafNodes (freq : Vector Freq 256) {k : Nat} (h : k < (presentBytes freq).length) :
    builtNode (leafNodes freq) k =
      leafNode (presentBytes freq)[k] (freqOf freq (presentBytes freq)[k]) := by
  simp [builtNode, leafNodes_eq, List.getD_eq_getElem?_getD, h]

theorem leafNodes_leaf (freq : Vector Freq 256) : ∀ x ∈ leafNodes freq, x.internal = false := by
  intro x hx
  rw [leafNodes_eq] at hx
  obtain ⟨b, -, rfl⟩ := List.mem_map.1 hx
  rfl

theorem presentBytes_getElem_lt (freq : Vector Freq 256) {i j : Nat} (hij : i < j)
    (hj : j < (presentBytes freq).length) :
    (presentBytes freq)[i].toNat < (presentBytes freq)[j].toNat :=
  List.pairwise_iff_getElem.1 (presentBytes_sorted freq) i j (by omega) hj hij

/-- Merge starts with every leaf in the working set (R133). -/
theorem mergeState_start (freq : Vector Freq 256) :
    MergeState (leafNodes freq) (leafNodes freq) (List.range (leafNodes freq).length) := by
  have hleaf : ∀ i, (builtNode (leafNodes freq) i).internal = false := by
    intro i
    by_cases hi : i < (leafNodes freq).length
    · have : builtNode (leafNodes freq) i = (leafNodes freq)[i] := by
        simp [builtNode, List.getD_eq_getElem?_getD, List.getElem?_eq_getElem hi]
      rw [this]
      exact leafNodes_leaf freq _ (List.getElem_mem hi)
    · rw [builtNode_of_length_le (by omega)]; rfl
  have hnc : ∀ j i, ¬ ChildIn (leafNodes freq) j i := fun j i h => by
    rw [ChildIn, hleaf] at h; exact absurd h.1 (by decide)
  constructor
  · exact leafNodes_leaf freq
  · exact ⟨[], by simp⟩
  · simp; omega
  · exact List.nodup_range
  · intro j
    simp only [List.mem_range, LiveIn]
    exact ⟨fun h => ⟨h, fun i _ => hnc j i⟩, fun h => h.1⟩
  · intro j hj k hk hjk hb
    simp only [List.mem_range, leafNodes_length] at hj hk
    rw [builtNode_leafNodes freq hj, builtNode_leafNodes freq hk] at hb
    have hb' : (presentBytes freq)[j] = (presentBytes freq)[k] := hb
    rcases Nat.lt_or_gt_of_ne hjk with h | h
    · have := presentBytes_getElem_lt freq h hk; rw [hb'] at this; omega
    · have := presentBytes_getElem_lt freq h hj; rw [hb'] at this; omega
  · intro i hi hil; omega
  · intro j i k _ _ hci; exact absurd hci (hnc j i)

/-- What Merge leaves over the leaves of a table of at least one symbol: the merge state with one
element in the working set, which is the last entry written (R133). -/
theorem mergeAll_spec (freq : Vector Freq 256) (h : 1 ≤ (leafNodes freq).length) :
    MergeState (leafNodes freq) (mergeAll (leafNodes freq)).1 [(mergeAll (leafNodes freq)).2] ∧
      (mergeAll (leafNodes freq)).1.length = 2 * (leafNodes freq).length - 1 ∧
      (mergeAll (leafNodes freq)).2 = 2 * (leafNodes freq).length - 2 := by
  have hn : (leafNodes freq).length ≤ 256 := by
    rw [leafNodes_length]; exact presentBytes_length_le freq
  obtain ⟨hm, hl⟩ := (mergeState_start freq).loop hn (leafNodes freq).length (by simpa using h)
    (by simp)
  unfold mergeAll
  generalize mergeLoop (leafNodes freq).length (leafNodes freq)
    (List.range (leafNodes freq).length) = m at *
  obtain ⟨ns, w⟩ := m
  obtain ⟨r, rfl⟩ := List.length_eq_one_iff.1 hl
  have hc := hm.count
  simp only [List.length_singleton] at hc
  refine ⟨hm, by simp only; omega, ?_⟩
  simp only [List.headD_cons]
  -- the last entry is no child of an earlier one, so it is the one element left
  have hlast : LiveIn ns ns.length (ns.length - 1) := by
    refine ⟨by omega, fun i hi hci => ?_⟩
    have := hm.child_lt hi hci
    omega
  have := (hm.live _).2 hlast
  simp only [List.mem_singleton] at this
  omega

/-! ### Paths in the written entries -/

/-- The child of entry i that a code bit selects. -/
def childOf (ns : List Node) (i : Nat) (b : Bool) : Nat := ((builtNode ns i).child b).toNat

/-- The entry reached from entry i along a path; `none` when a bit is left over at a leaf. -/
def follow (ns : List Node) : Nat → List Bool → Option Nat
  | i, [] => some i
  | i, b :: q => if (builtNode ns i).internal then follow ns (childOf ns i b) q else none

theorem childIn_iff {ns : List Node} {j i : Nat} :
    ChildIn ns j i ↔ (builtNode ns i).internal = true ∧ ∃ b, childOf ns i b = j := by
  simp only [ChildIn, childOf, Node.child, Bool.exists_bool, Bool.false_eq_true, if_false, if_true]

theorem follow_append (ns : List Node) (q r : List Bool) (i : Nat) :
    follow ns i (q ++ r) = (follow ns i q).bind fun j => follow ns j r := by
  induction q generalizing i with
  | nil => rfl
  | cons b q ih =>
    simp only [List.cons_append, follow]
    split
    · exact ih _
    · rfl

/-- A path that ends with one more bit ends at the child of an internal entry. -/
theorem follow_snoc {ns : List Node} {q : List Bool} {b : Bool} {i j : Nat} :
    follow ns i (q ++ [b]) = some j ↔
      ∃ k, follow ns i q = some k ∧ (builtNode ns k).internal = true ∧ childOf ns k b = j := by
  rw [follow_append]
  cases h : follow ns i q with
  | none => simp
  | some k =>
    simp only [Option.bind_some, follow, Option.some.injEq]
    constructor
    · intro hh
      by_cases hk : (builtNode ns k).internal = true
      · rw [if_pos hk] at hh
        exact ⟨k, rfl, hk, by simpa using hh⟩
      · rw [if_neg hk] at hh
        cases hh
    · rintro ⟨k', rfl, hk, rfl⟩
      rw [if_pos hk]

variable {leaves ns : List Node} {w : List Nat}

theorem MergeState.childOf_lt (h : MergeState leaves ns w) {i : Nat} (hi : i < ns.length)
    (hint : (builtNode ns i).internal = true) (b : Bool) : childOf ns i b < i :=
  h.child_lt hi (childIn_iff.2 ⟨hint, b, rfl⟩)

/-- The two children of an entry are different. -/
theorem MergeState.childOf_inj (h : MergeState leaves ns w) {i : Nat} (hi : i < ns.length)
    (hint : (builtNode ns i).internal = true) {b c : Bool} (hbc : childOf ns i b = childOf ns i c) :
    b = c := by
  have hl : leaves.length ≤ i := by
    by_cases hl : i < leaves.length
    · rw [h.leaf_entry hl] at hint; cases hint
    · omega
  have hlt := (h.merged i hl hi).byte_lt
  have hne : (builtNode ns i).left.toNat ≠ (builtNode ns i).right.toNat := fun hh => by
    rw [hh] at hlt; omega
  cases b <;> cases c <;> simp [childOf, Node.child] at hbc ⊢ <;> omega

/-- Going down a path goes to ever smaller indices. -/
theorem MergeState.follow_le (h : MergeState leaves ns w) (q : List Bool) :
    ∀ {i j : Nat}, i < ns.length → follow ns i q = some j → j + q.length ≤ i := by
  induction q with
  | nil => intro i j _ hf; simp only [follow, Option.some.injEq] at hf; subst hf; simp
  | cons b q ih =>
    intro i j hi hf
    by_cases hint : (builtNode ns i).internal = true
    · rw [follow, if_pos hint] at hf
      have hlt := h.childOf_lt hi hint b
      have := ih (by omega) hf
      simp only [List.length_cons]
      omega
    · rw [follow, if_neg hint] at hf; cases hf

theorem MergeState.internal_iff (h : MergeState leaves ns w) {i : Nat} (hi : i < ns.length) :
    (builtNode ns i).internal = true ↔ leaves.length ≤ i := by
  constructor
  · intro hint
    by_cases hl : i < leaves.length
    · rw [h.leaf_entry hl] at hint; cases hint
    · omega
  · exact fun hl => (h.merged i hl hi).internal

/-- A path from the root to an internal entry has at most n − 2 bits, to a leaf at most n − 1
(R139). -/
theorem MergeState.path_length (h : MergeState leaves ns w) {r j : Nat} {q : List Bool}
    (hr : r < ns.length) (hrr : r ≤ 2 * leaves.length - 2) (hf : follow ns r q = some j) :
    q.length ≤ leaves.length - 1 ∧
      ((builtNode ns j).internal = true → q.length ≤ leaves.length - 2) := by
  have hle := h.follow_le q hr hf
  refine ⟨?_, fun hint => ?_⟩
  · rcases List.eq_nil_or_concat q with rfl | ⟨q', b, rfl⟩
    · simp
    · rw [List.concat_eq_append] at hf ⊢
      have hc := h.count
      clear hle
      obtain ⟨k, hk, hint, -⟩ := follow_snoc.1 hf
      have hk' := h.follow_le q' hr hk
      have := (h.internal_iff (by omega)).1 hint
      simp only [List.length_append, List.length_singleton]
      omega
  · have := (h.internal_iff (by omega)).1 hint
    omega

/-- An entry has one path from the root only. -/
theorem MergeState.path_unique (h : MergeState leaves ns w) {r : Nat} (hr : r < ns.length)
    (hroot : ∀ i < ns.length, ¬ ChildIn ns r i) :
    ∀ (q q' : List Bool) {j : Nat}, follow ns r q = some j → follow ns r q' = some j → q = q' := by
  intro q
  induction hq : q.length generalizing q with
  | zero =>
    intro q' j hf hf'
    have : q = [] := List.length_eq_zero_iff.1 hq
    subst this
    simp only [follow, Option.some.injEq] at hf
    subst hf
    rcases List.eq_nil_or_concat q' with rfl | ⟨q1, b, rfl⟩
    · rfl
    · rw [List.concat_eq_append] at hf'
      obtain ⟨k, hk, hint, hc⟩ := follow_snoc.1 hf'
      have := h.follow_le q1 hr hk
      exact absurd (childIn_iff.2 ⟨hint, b, hc⟩) (hroot k (by omega))
  | succ n ih =>
    intro q' j hf hf'
    rcases List.eq_nil_or_concat q with rfl | ⟨q1, b, rfl⟩
    · simp at hq
    rw [List.concat_eq_append] at hf hq ⊢
    obtain ⟨k, hk, hint, hc⟩ := follow_snoc.1 hf
    have hkl := h.follow_le q1 hr hk
    rcases List.eq_nil_or_concat q' with rfl | ⟨q1', b', rfl⟩
    · simp only [follow, Option.some.injEq] at hf'
      subst hf'
      exact absurd (childIn_iff.2 ⟨hint, b, hc⟩) (hroot k (by omega))
    · rw [List.concat_eq_append] at hf' ⊢
      obtain ⟨k', hk', hint', hc'⟩ := follow_snoc.1 hf'
      have hkl' := h.follow_le q1' hr hk'
      have hkk := h.parent j k k' (by omega) (by omega) (childIn_iff.2 ⟨hint, b, hc⟩)
        (childIn_iff.2 ⟨hint', b', hc'⟩)
      subst hkk
      have hbb := h.childOf_inj (by omega) hint (hc.trans hc'.symm)
      have := ih q1 (by simpa using hq) q1' hk hk'
      rw [this, hbb]

/-- Every entry is on a path from the one element left in the working set. -/
theorem MergeState.path_exists {r : Nat} (h : MergeState leaves ns [r]) :
    ∀ {j : Nat}, j < ns.length → ∃ q, follow ns r q = some j := by
  intro j hj
  induction hk : ns.length - j using Nat.strongRecOn generalizing j with
  | ind m ih =>
    by_cases hjr : j = r
    · exact ⟨[], by simp [follow, hjr]⟩
    · have hnl : ¬ LiveIn ns ns.length j := fun hh => hjr (by simpa using (h.live j).2 hh)
      have : ∃ i, i < ns.length ∧ ChildIn ns j i := by
        by_contra hh
        exact hnl ⟨hj, fun i hi hc => hh ⟨i, hi, hc⟩⟩
      obtain ⟨i, hi, hc⟩ := this
      have hlt := h.child_lt hi hc
      obtain ⟨q, hq⟩ := ih (ns.length - i) (by omega) hi rfl
      obtain ⟨hint, b, hb⟩ := childIn_iff.1 hc
      exact ⟨q ++ [b], follow_snoc.2 ⟨i, hq, hint, hb⟩⟩

/-! ### Visit and GenCodes (R134) -/

/-- Visit answers exactly the leaves below entry i, each with the path to it. -/
theorem MergeState.mem_visit (h : MergeState leaves ns w) (fuel : Nat) :
    ∀ {i : Nat} {p : List Bool} {b : Byte} {p' : List Bool}, i < ns.length → i < fuel →
      ((b, p') ∈ visit ns fuel i p ↔
        ∃ q j, p' = p ++ q ∧ follow ns i q = some j ∧ (builtNode ns j).internal = false ∧
          (builtNode ns j).byte = b) := by
  induction fuel with
  | zero => intro i p b p' _ hi; omega
  | succ fuel ih =>
    intro i p b p' hi hif
    unfold visit
    by_cases hint : (builtNode ns i).internal = true
    · simp only [if_pos hint, List.mem_append]
      have hl := h.childOf_lt hi hint false
      have hr := h.childOf_lt hi hint true
      have el : (builtNode ns i).left.toNat = childOf ns i false := rfl
      have er : (builtNode ns i).right.toNat = childOf ns i true := rfl
      rw [el, er, ih (by omega) (by omega), ih (by omega) (by omega)]
      constructor
      · rintro (⟨q, j, rfl, hf, hj⟩ | ⟨q, j, rfl, hf, hj⟩)
        · exact ⟨false :: q, j, by simp, by rw [follow, if_pos hint]; exact hf, hj⟩
        · exact ⟨true :: q, j, by simp, by rw [follow, if_pos hint]; exact hf, hj⟩
      · rintro ⟨q, j, rfl, hf, hj⟩
        cases q with
        | nil =>
          simp only [follow, Option.some.injEq] at hf
          subst hf
          rw [hint] at hj; cases hj.1
        | cons c q =>
          rw [follow, if_pos hint] at hf
          cases c with
          | false => exact .inl ⟨q, j, by simp, hf, hj⟩
          | true => exact .inr ⟨q, j, by simp, hf, hj⟩
    · simp only [if_neg hint, List.mem_singleton, Prod.mk.injEq]
      constructor
      · rintro ⟨rfl, rfl⟩
        exact ⟨[], i, by simp, rfl, by simpa using hint, rfl⟩
      · rintro ⟨q, j, rfl, hf, hj1, hj2⟩
        cases q with
        | nil =>
          simp only [follow, Option.some.injEq] at hf
          subst hf
          exact ⟨hj2.symm, by simp⟩
        | cons c q => rw [follow, if_neg hint] at hf; cases hf

/-- The table after recording leaves: a byte that is recorded, always with one path, has that
path's code, and a byte that is not keeps its entry. -/
theorem foldl_recordCode (l : List (Byte × List Bool)) (b : Byte) :
    ∀ table : Vector CodeEntry 256,
      ((∀ x ∈ l, x.1 ≠ b) →
        (l.foldl recordCode table)[b.toNat]'b.isLt = table[b.toNat]'b.isLt) ∧
      ∀ p, (b, p) ∈ l → (∀ p', (b, p') ∈ l → p' = p) →
        (l.foldl recordCode table)[b.toNat]'b.isLt = codeOfPath p := by
  induction l with
  | nil => intro table; simp
  | cons x l ih =>
    intro table
    have hset : x.1 ≠ b → (recordCode table x)[b.toNat]'b.isLt = table[b.toNat]'b.isLt := by
      intro hne
      have : x.1.toNat ≠ b.toNat := fun hh => hne (BitVec.eq_of_toNat_eq hh)
      simp [recordCode, this]
    refine ⟨fun hno => ?_, fun p hp huniq => ?_⟩
    · rw [List.foldl_cons, (ih _).1 fun y hy => hno y (List.mem_cons_of_mem _ hy)]
      exact hset (hno x List.mem_cons_self)
    · rw [List.foldl_cons]
      by_cases hmem : ∃ p', (b, p') ∈ l
      · obtain ⟨p', hp'⟩ := hmem
        have := huniq p' (List.mem_cons_of_mem _ hp')
        subst this
        exact (ih _).2 p' hp' fun p'' h'' => huniq p'' (List.mem_cons_of_mem _ h'')
      · have hx : x = (b, p) := by
          rcases List.mem_cons.1 hp with h | h
          · exact h.symm
          · exact absurd ⟨p, h⟩ hmem
        rw [(ih _).1 fun y hy hyb => hmem ⟨y.2, by rw [← hyb]; exact hy⟩, hx]
        simp [recordCode]

/-- The code table of a tree whose leaves have different bytes: the entry of a leaf's byte is the
code of the path to it, every other byte is unused (R134). -/
theorem MergeState.genCodes_spec {r : Nat} (h : MergeState leaves ns [r])
    (hdist : ∀ j k, j < leaves.length → k < leaves.length →
      (builtNode ns j).byte = (builtNode ns k).byte → j = k) (b : Byte) :
    ((∀ j, j < leaves.length → (builtNode ns j).byte ≠ b) →
      (genCodes ns r)[b.toNat]'b.isLt = { used := false, len := 0#8, bits := 0#256 }) ∧
    ∀ j q, j < leaves.length → (builtNode ns j).byte = b → follow ns r q = some j →
      (genCodes ns r)[b.toNat]'b.isLt = codeOfPath q := by
  have hrl := (h.live r).1 (by simp)
  have hr := hrl.1
  have hmem : ∀ c p', (c, p') ∈ visit ns ns.length r [] ↔
      ∃ j, follow ns r p' = some j ∧ (builtNode ns j).internal = false ∧
        (builtNode ns j).byte = c := by
    intro c p'
    rw [h.mem_visit ns.length hr hr]
    constructor
    · rintro ⟨q, j, rfl, hj⟩; exact ⟨j, by simpa using hj⟩
    · rintro ⟨j, hj⟩; exact ⟨p', j, by simp, hj⟩
  have hleaf : ∀ {j : Nat} {q : List Bool}, follow ns r q = some j →
      (builtNode ns j).internal = false → j < leaves.length := by
    intro j q hf hi
    have hle := h.follow_le q hr hf
    by_contra hh
    have := (h.internal_iff (i := j) (by omega)).2 (by omega)
    rw [hi] at this; cases this
  obtain ⟨hno, hyes⟩ := foldl_recordCode (visit ns ns.length r []) b noCodes
  unfold genCodes
  refine ⟨fun hb => ?_, fun j q hj hjb hf => ?_⟩
  · rw [hno, noCodes_get]
    rintro ⟨c, p'⟩ hx hcb
    obtain ⟨j, hf, hi, hjc⟩ := (hmem c p').1 hx
    exact hb j (hleaf hf hi) (hjc.trans hcb)
  · refine hyes q ((hmem b q).2 ⟨j, hf, h.leaf_entry hj, hjb⟩) fun p' hp' => ?_
    obtain ⟨k, hfk, hik, hkb⟩ := (hmem b p').1 hp'
    have := hdist k j (hleaf hfk hik) hj (hkb.trans hjb.symm)
    subst this
    exact h.path_unique hr hrl.2 p' q hfk hf

/-! ### The bits of a code (R32, R134) -/

theorem pathNat_testBit (p : List Bool) : ∀ i, (pathNat p).testBit i = p.getD i false := by
  induction p with
  | nil => intro i; simp [pathNat]
  | cons b p ih =>
    intro i
    have hb : b.toNat < 2 := by cases b <;> decide
    cases i with
    | zero =>
      simp only [pathNat, Nat.testBit_zero, List.getD_cons_zero]
      cases b <;> simp
    | succ i =>
      have : (b.toNat + 2 * pathNat p) / 2 = pathNat p := by omega
      simp only [pathNat, Nat.testBit_succ, this, ih, List.getD_cons_succ]

/-- The bits of a code entry are the path's, and 0 from its length on. -/
theorem codeOfPath_bit (p : List Bool) (hp : p.length ≤ 255) (i : Nat) :
    (codeOfPath p).bits.getLsbD i = p.getD i false := by
  simp only [codeOfPath, BitVec.getLsbD_ofNat, pathNat_testBit]
  by_cases hi : i < 256
  · simp [hi]
  · have : p[i]? = none := List.getElem?_eq_none (by omega)
    simp [hi, List.getD_eq_getElem?_getD, this]

theorem codeOfPath_len (p : List Bool) (hp : p.length ≤ 255) :
    (codeOfPath p).len.toNat = p.length := by
  simp [codeOfPath]; omega

/-- The path read back from a code entry is the path it was made of. -/
theorem codeOfPath_path (p : List Bool) (hp : p.length ≤ 255) : (codeOfPath p).path = p := by
  unfold CodeEntry.path
  rw [codeOfPath_len p hp]
  apply List.ext_getElem
  · simp
  · intro i h1 h2
    simp [codeOfPath_bit p hp, List.getD_eq_getElem?_getD, h2]

/-! ### What BUILD computes, by the number of symbols (R131, R132) -/

theorem buildTree_empty {freq : Vector Freq 256} (h : (leafNodes freq).length = 0) :
    buildTree freq = { tstate := .empty, nodes := [], root := 0#9, ncount := 0#9, lcount := 0#9,
                       codes := noCodes } := by
  simp only [buildTree, h]

theorem buildTree_single {freq : Vector Freq 256} (h : (leafNodes freq).length = 1) :
    buildTree freq = { tstate := .single, nodes := leafNodes freq, root := 0#9, ncount := 1#9,
                       lcount := 1#9, codes := genCodes (leafNodes freq) 0 } := by
  simp only [buildTree, h]

/-- On two or more symbols: a MULTI tree of 2n − 1 entries whose root is the last one. -/
theorem buildTree_multi {freq : Vector Freq 256} (h : 2 ≤ (leafNodes freq).length) :
    (buildTree freq).tstate = .multi ∧
      (buildTree freq).nodes = (mergeAll (leafNodes freq)).1 ∧
      (buildTree freq).nodes.length = 2 * (leafNodes freq).length - 1 ∧
      (buildTree freq).root.toNat = 2 * (leafNodes freq).length - 2 ∧
      (buildTree freq).ncount.toNat = 2 * (leafNodes freq).length - 1 ∧
      (buildTree freq).lcount.toNat = (leafNodes freq).length ∧
      (buildTree freq).codes =
        genCodes (mergeAll (leafNodes freq)).1 (2 * (leafNodes freq).length - 2) := by
  obtain ⟨-, hlen, hroot⟩ := mergeAll_spec freq (by omega)
  have hle : (leafNodes freq).length ≤ 256 := by
    rw [leafNodes_length]; exact presentBytes_length_le freq
  obtain ⟨n, hn⟩ : ∃ n, (leafNodes freq).length = n + 2 := ⟨_, (Nat.sub_add_cancel h).symm⟩
  have hb : buildTree freq =
      { tstate := .multi
        nodes := (mergeAll (leafNodes freq)).1
        root := BitVec.ofNat 9 (mergeAll (leafNodes freq)).2
        ncount := BitVec.ofNat 9 (2 * (n + 2) - 1)
        lcount := BitVec.ofNat 9 (n + 2)
        codes := genCodes (mergeAll (leafNodes freq)).1 (mergeAll (leafNodes freq)).2 } := by
    simp only [buildTree, hn]
  rw [hb]
  simp only [hlen, hroot, BitVec.toNat_ofNat, true_and, and_true]
  omega

/-- The tree fits the store, whatever FREQ is (R8). -/
theorem buildTree_length_le (freq : Vector Freq 256) : (buildTree freq).nodes.length ≤ 511 := by
  have hle : (leafNodes freq).length ≤ 256 := by
    rw [leafNodes_length]; exact presentBytes_length_le freq
  rcases Nat.lt_or_ge (leafNodes freq).length 2 with h | h
  · rcases Nat.lt_or_ge (leafNodes freq).length 1 with h0 | h1
    · rw [buildTree_empty (by omega)]; simp
    · rw [buildTree_single (by omega)]; simp only; omega
  · rw [(buildTree_multi h).2.2.1]; omega

/-- The written entries are as many as NCOUNT says (R37). -/
theorem buildTree_ncount (freq : Vector Freq 256) :
    (buildTree freq).ncount.toNat = (buildTree freq).nodes.length := by
  rcases Nat.lt_or_ge (leafNodes freq).length 2 with h | h
  · rcases Nat.lt_or_ge (leafNodes freq).length 1 with h0 | h1
    · rw [buildTree_empty (by omega)]; simp
    · have : (leafNodes freq).length = 1 := by omega
      rw [buildTree_single this]; simp [this]
  · obtain ⟨-, -, hl, -, hn, -⟩ := buildTree_multi h
    omega

/-- In a state whose entries in use are the ones BUILD wrote, walking the store is walking the
written entries. -/
theorem descend_eq_follow {s : State} {freq : Vector Freq 256}
    (hn : ∀ i : NodeIdx, i.toNat < (buildTree freq).nodes.length →
      s.nodeAt i = builtNode (buildTree freq).nodes i.toNat)
    (hlt : ∀ i b, i < (buildTree freq).nodes.length →
      (builtNode (buildTree freq).nodes i).internal = true →
      childOf (buildTree freq).nodes i b < (buildTree freq).nodes.length)
    (q : List Bool) : ∀ {i j : NodeIdx}, i.toNat < (buildTree freq).nodes.length →
      (s.descend i q = some j ↔ follow (buildTree freq).nodes i.toNat q = some j.toNat) := by
  induction q with
  | nil => intro i j _; simp [State.descend, follow, BitVec.toNat_inj]
  | cons b q ih =>
    intro i j hi
    simp only [State.descend, follow, hn i hi]
    split
    · next hint => exact ih (hlt i.toNat b hi hint)
    · simp

/-! ### The invariant after BUILD -/

/-- `issue .build` loads the tree BUILD computes from FREQ. -/
theorem issue_build (s : State) :
    issue .build s =
      clearPending (complete false (loadTree (buildTree s.freq)
        { s with pending := some (encode .build) })) := rfl

/-- The entries in use after a BUILD are the ones it wrote (R36). -/
theorem nodeAt_issue_build (s : State) (i : NodeIdx)
    (h : i.toNat < (buildTree s.freq).nodes.length) :
    (issue .build s).nodeAt i = builtNode (buildTree s.freq).nodes i.toNat :=
  nodeAt_loadTree (buildTree s.freq) { s with pending := some (encode .build) } i
    (Nat.lt_of_lt_of_le h (buildTree_length_le _)) h

/-- The block's invariant holds after a BUILD of any table of FW-bit entries. -/
theorem inv_issue_build {s : State} (hp : s.params.wf = true) (hf : FreqBounded s) :
    Inv (issue .build s) := by
  have huse : ∀ i, (issue .build s).inUse i = true →
      i.toNat < (buildTree s.freq).nodes.length := by
    intro i hi
    rw [← buildTree_ncount]
    simp only [State.inUse, Bool.and_eq_true, decide_eq_true_eq] at hi
    exact hi.2
  have htree : TreeMatchesFreq (issue .build s) := by
    unfold TreeMatchesFreq
    split
    · next hn =>
      have hn' : (buildTree s.freq).tstate = .none := hn
      rcases Nat.lt_or_ge (leafNodes s.freq).length 2 with h | h
      · rcases Nat.lt_or_ge (leafNodes s.freq).length 1 with h0 | h1
        · rw [buildTree_empty (by omega)] at hn'; cases hn'
        · rw [buildTree_single (by omega)] at hn'; cases hn'
      · rw [(buildTree_multi h).1] at hn'; cases hn'
    · exact ⟨rfl, rfl, rfl, rfl, rfl, fun i hi => nodeAt_issue_build s i (huse i hi)⟩
  refine ⟨hp, hf, ⟨show (0#8).toNat ≤ 6 by decide, fun h => absurd rfl h, fun h => by cases h⟩, htree, ?_⟩
  unfold WalkOk
  rcases Nat.lt_or_ge (leafNodes s.freq).length 2 with h | h
  · have hroot : (buildTree s.freq).root = 0#9 ∧ (buildTree s.freq).tstate ≠ .multi := by
      rcases Nat.lt_or_ge (leafNodes s.freq).length 1 with h0 | h1
      · rw [buildTree_empty (by omega)]; exact ⟨rfl, by decide⟩
      · rw [buildTree_single (by omega)]; exact ⟨rfl, by intro hh; cases hh⟩
    rw [if_neg (by exact hroot.2)]
    exact ⟨hroot.1, rfl⟩
  · obtain ⟨ht, hns, hlen, hr, hnc, -⟩ := buildTree_multi h
    have hrl : (buildTree s.freq).root.toNat < (buildTree s.freq).nodes.length := by omega
    rw [if_pos (by exact ht)]
    refine ⟨?_, ?_, [], rfl, rfl⟩
    · show ((issue .build s).nodeAt (buildTree s.freq).root).internal = true
      rw [nodeAt_issue_build s _ hrl, hns]
      exact ((mergeAll_spec s.freq (by omega)).1.internal_iff (by rw [← hns]; exact hrl)).2
        (by omega)
    · simp only [State.inUse, Bool.and_eq_true, Bool.or_eq_true, beq_iff_eq, decide_eq_true_eq]
      refine ⟨.inr ht, ?_⟩
      show (buildTree s.freq).root < (buildTree s.freq).ncount
      rw [BitVec.lt_def]
      omega

/-! ### The code table of BUILD (R131, R134) -/

/-- On one or more symbols BUILD's entries, root and code table are those of Merge and GenCodes. -/
theorem buildTree_merge {freq : Vector Freq 256} (h : 1 ≤ (leafNodes freq).length) :
    (buildTree freq).nodes = (mergeAll (leafNodes freq)).1 ∧
      (buildTree freq).root.toNat = 2 * (leafNodes freq).length - 2 ∧
      (buildTree freq).tstate ≠ .none ∧ (buildTree freq).tstate ≠ .empty ∧
      (buildTree freq).codes =
        genCodes (mergeAll (leafNodes freq)).1 (2 * (leafNodes freq).length - 2) := by
  rcases Nat.lt_or_ge (leafNodes freq).length 2 with h2 | h2
  · have h1 : (leafNodes freq).length = 1 := by omega
    obtain ⟨hm, hlen, -⟩ := mergeAll_spec freq h
    obtain ⟨xs, hxs⟩ := hm.pre
    have hnil : xs = [] := by
      have := congrArg List.length hxs
      simp only [List.length_append] at this
      exact List.length_eq_zero_iff.1 (by omega)
    rw [hnil, List.append_nil] at hxs
    rw [buildTree_single h1, hxs, h1]
    exact ⟨rfl, rfl, (by intro hh; cases hh), (by intro hh; cases hh), rfl⟩
  · obtain ⟨ht, hn, -, hr, -, -, hc⟩ := buildTree_multi h2
    exact ⟨hn, hr, by rw [ht]; decide, by rw [ht]; decide, hc⟩

/-- Leaf k of the written entries. -/
theorem builtNode_mergeAll {freq : Vector Freq 256} (h : 1 ≤ (leafNodes freq).length) {k : Nat}
    (hk : k < (presentBytes freq).length) :
    builtNode (mergeAll (leafNodes freq)).1 k =
      leafNode (presentBytes freq)[k] (freqOf freq (presentBytes freq)[k]) := by
  obtain ⟨xs, hxs⟩ := (mergeAll_spec freq h).1.pre
  rw [hxs, builtNode_append_left _ _ (by rw [leafNodes_length]; exact hk), builtNode_leafNodes freq hk]

/-- The code table of BUILD (R131, R134, R138): a byte of frequency 0 has the sentinel entry; any
other byte has the code of the one path from the root to its leaf. -/
theorem buildTree_codes (freq : Vector Freq 256) (b : Byte) :
    (freqOf freq b = 0#24 →
      (buildTree freq).codes[b.toNat]'b.isLt = { used := false, len := 0#8, bits := 0#256 }) ∧
    (freqOf freq b ≠ 0#24 → ∃ k q, k < (presentBytes freq).length ∧
      k < (buildTree freq).nodes.length ∧
      builtNode (buildTree freq).nodes k = leafNode b (freqOf freq b) ∧
      follow (buildTree freq).nodes (buildTree freq).root.toNat q = some k ∧ q.length ≤ 255 ∧
      (buildTree freq).codes[b.toNat]'b.isLt = codeOfPath q) := by
  rcases Nat.lt_or_ge (leafNodes freq).length 1 with h0 | h1
  · have h0' : (leafNodes freq).length = 0 := by omega
    have hnone : freqOf freq b = 0#24 := by
      by_contra hb
      have := List.length_pos_of_mem (mem_presentBytes.2 hb)
      rw [← leafNodes_length] at this; omega
    rw [buildTree_empty h0']
    exact ⟨fun _ => noCodes_get b, fun hb => absurd hnone hb⟩
  · obtain ⟨hn, hr, -, -, hc⟩ := buildTree_merge h1
    obtain ⟨hm, hlen, hroot⟩ := mergeAll_spec freq h1
    have hpl := leafNodes_length freq
    have hp256 := presentBytes_length_le freq
    rw [hroot] at hm
    have hbyte : ∀ j, (hj : j < (leafNodes freq).length) →
        (builtNode (mergeAll (leafNodes freq)).1 j).byte = (presentBytes freq)[j]'(by omega) := by
      intro j hj; rw [builtNode_mergeAll h1 (by omega)]; rfl
    have hspec := hm.genCodes_spec (fun j k hj hk he => by
      rw [hbyte j hj, hbyte k hk] at he
      by_contra hjk
      rcases Nat.lt_or_gt_of_ne hjk with h | h
      · have := presentBytes_getElem_lt freq h (by omega); rw [he] at this; omega
      · have := presentBytes_getElem_lt freq h (by omega); rw [he] at this; omega) b
    simp only [hc, hn, hr]
    refine ⟨fun hb => hspec.1 fun j hj he => ?_, fun hb => ?_⟩
    · rw [hbyte j hj] at he
      have := mem_presentBytes.1 (he ▸ List.getElem_mem (show j < (presentBytes freq).length by omega))
      exact this hb
    · obtain ⟨k, hk, hkb⟩ := List.getElem_of_mem (mem_presentBytes.2 hb)
      obtain ⟨q, hq⟩ := hm.path_exists (show k < (mergeAll (leafNodes freq)).1.length by omega)
      refine ⟨k, q, hk, by omega, by rw [builtNode_mergeAll h1 hk, hkb], hq, ?_, ?_⟩
      · have := (hm.path_length (by omega) (Nat.le_refl _) hq).1
        omega
      · exact hspec.2 k q (by omega) ((hbyte k (by omega)).trans hkb) hq

/-- In a state whose entries in use are the ones BUILD wrote, walking the store from the root is
walking the written entries. -/
theorem descend_root_iff {s : State} {freq : Vector Freq 256}
    (hn : ∀ i : NodeIdx, i.toNat < (buildTree freq).nodes.length →
      s.nodeAt i = builtNode (buildTree freq).nodes i.toNat)
    (h : 1 ≤ (leafNodes freq).length) (q : List Bool) (j : NodeIdx) :
    s.descend (buildTree freq).root q = some j ↔
      follow (buildTree freq).nodes (buildTree freq).root.toNat q = some j.toNat := by
  obtain ⟨hns, hr, -, -, -⟩ := buildTree_merge h
  obtain ⟨hm, hlen, -⟩ := mergeAll_spec freq h
  refine descend_eq_follow hn (fun i b hi hint => ?_) q (by rw [hns]; omega)
  rw [hns] at hi hint ⊢
  exact Nat.lt_trans (hm.childOf_lt hi hint b) hi

end Sys2Proof.Machine
end

