-- ==== Sys2Proof/Tests/Slice0.lean ====
section
/-! SUPPORT. Tests: the checks refuse ill-formed terms, words decode as R85 says, one step of every
command gives what 95_test_vectors.md and the command rules give, and every statement with premises
has a state and operands that meet them. -/

namespace Sys2Proof.Tests

set_option Elab.async false

open Sys2Proof.Machine

/-! ### Helpers -/

/-- The reset state with the listed frequencies. -/
def table (l : List (Byte × Freq)) : State :=
  l.foldl (fun s p => s.setFreqAt p.1 p.2) State.reset

/-- The same after BUILD. -/
def built (l : List (Byte × Freq)) : State := issue .build (table l)

/-- A component of the state a command leaves, if it answers a next state. -/
def after {α : Type} (r : Result) (f : State → α) : Option α :=
  match r with
  | .next t => some (f t)
  | _ => none

/-- Run commands one after another, each from idle. -/
def run (s : State) (l : List Instr) : State := l.foldl (fun t i => issue i t) s

/-- The worked example S1 of 95_test_vectors.md. -/
def s1 : List (Byte × Freq) := [(97, 2), (98, 4), (99, 8), (100, 16), (102, 2)]

/-- Two leaves (TB3). -/
def tb3 : List (Byte × Freq) := [(97, 5), (98, 1)]

/-- One leaf (TB2). -/
def tb2 : List (Byte × Freq) := [(255, 7)]

/-! ### Ill-formed terms are refused -/

theorem test_wf_operand_on_format_N : (SourceCommand.mk .nop (some (.int 0))).wf = false := by decide
theorem test_wf_missing_operand : (SourceCommand.mk .count none).wf = false := by decide
theorem test_wf_sym_too_large : (SourceCommand.mk .count (some (.int 256))).wf = false := by decide
theorem test_wf_idx_too_large :
    (SourceCommand.mk .readNode (some (.int 512))).wf = false := by decide
theorem test_wf_bit_too_large : (SourceCommand.mk .decBit (some (.int 2))).wf = false := by decide
theorem test_wf_char_too_large :
    (SourceCommand.mk .encode (some (.chr (Char.ofNat 960)))).wf = false := by decide
theorem test_wf_accepts : (SourceCommand.mk .encode (some (.chr 'a'))).wf = true := by decide
theorem test_params_fw_zero : ({ Params.default with fw := 0 } : Params).wf = false := by decide
theorem test_params_fw_25 : ({ Params.default with fw := 25 } : Params).wf = false := by decide
theorem test_params_base_unaligned :
    ({ Params.default with base := 4 } : Params).wf = false := by decide
theorem test_params_default : Params.default.wf = true := by decide
theorem test_bytes_too_short : decodeBytes [0x61#8, 0, 0] = none := rfl

/-! ### Words written out from R85 -/

theorem test_decode_nop : decode 0x00000000#32 = .ok .nop := rfl
theorem test_decode_clrErr : decode 0x01000000#32 = .ok .clrErr := rfl
theorem test_decode_clearFreq : decode 0x10000000#32 = .ok .clearFreq := rfl
theorem test_decode_count : decode 0x11000061#32 = .ok (.count 97) := rfl
theorem test_decode_setFreq : decode 0x12000061#32 = .ok (.setFreq 97) := rfl
theorem test_decode_readFreq : decode 0x130000FF#32 = .ok (.readFreq 255) := rfl
theorem test_decode_build : decode 0x20000000#32 = .ok .build := rfl
theorem test_decode_readNode : decode 0x210001FF#32 = .ok (.readNode 511) := rfl
theorem test_decode_encode : decode 0x30000065#32 = .ok (.encode 101) := rfl
theorem test_decode_decReset : decode 0x40000000#32 = .ok .decReset := rfl
theorem test_decode_decBit_0 : decode 0x41000000#32 = .ok (.decBit false) := rfl
theorem test_decode_decBit_1 : decode 0x41000001#32 = .ok (.decBit true) := rfl
theorem test_decode_decEnd : decode 0x42000000#32 = .ok .decEnd := rfl
theorem test_decode_nop_reserved : decode 0x00000001#32 = .error .reservedBit := rfl
theorem test_decode_node_reserved : decode 0x21000200#32 = .error .reservedBit := rfl
theorem test_decode_unassigned : decode 0x05000000#32 = .error .unassignedOp := rfl
theorem test_decode_bytes : decodeBytes [0x61, 0x00, 0x00, 0x11] = some (.ok (.count 97)) := rfl
theorem test_encode_readNode : encode (.readNode 5) = 0x21000005#32 := rfl
theorem test_assemble_char :
    assemble ⟨.count, some (.chr 'a')⟩ = some 0x11000061#32 := by decide

/-! ### One step of each command (vectors of 95_test_vectors.md, examples of the command rules) -/

/-- CT2: STATUS 0x436, NOP, STATUS 0x036. -/
theorem test_nop :
    after (exec .nop
      { State.reset with tstate := .multi, errSticky := true, lastErr := 4 }) State.statusWord =
      some 0x036#32 := by decide

/-- CT3: STATUS 0x170, CLR_ERR, STATUS 0x010. -/
theorem test_clrErr :
    after (exec .clrErr { State.reset with errSticky := true, ovr := true, lastErr := 1 })
      State.statusWord = some 0x010#32 := by decide

/-- CT7: the word of COUNT with bit 8 set raises ILLEGAL_CMD: STATUS 0x136. -/
theorem test_illegal :
    after (step ({ State.reset with tstate := .multi }.withFetchWord 32 0x11000100))
      State.statusWord = some 0x136#32 := by decide

/-- FQ2: CLEAR_FREQ on the S1 tree. -/
theorem test_clearFreq :
    after (exec .clearFreq (built s1)) (fun t => (t.statusWord, t.treeWord, t.freqAt 97)) =
      some (0x010#32, 0#32, 0#24) := by decide +kernel

/-- FQ3: COUNT 255 twice. -/
theorem test_count : (run State.reset [.count 255, .count 255]).freqAt 255 = 2#24 := by
  decide +kernel

/-- FQ4: with FW = 1 the second COUNT raises FREQ_OVERFLOW: STATUS 0x230, FREQ[5] stays 1. -/
theorem test_count_overflow :
    (fun t : State => (t.statusWord, t.freqAt 5))
      (run { State.reset with params := { Params.default with fw := 1 } } [.count 5, .count 5]) =
      (0x230#32, 1#24) := by decide +kernel

/-- FQ5: DATA = 0xFFFFFF is accepted with FW = 24. -/
theorem test_setFreq :
    after (exec (.setFreq 9) (putData 0x00FFFFFF State.reset)) (·.freqAt 9) =
      some 0xFFFFFF#24 := by decide +kernel

/-- FQ6: DATA = 0x01000000 raises FREQ_OVERFLOW with FW = 24. -/
theorem test_setFreq_overflow :
    after (exec (.setFreq 9) (putData 0x01000000 State.reset)) (fun t => (t.lastErr, t.freqAt 9)) =
      some (2#8, 0#24) := by decide +kernel

/-- FQ11: READ_FREQ 102 of S1. -/
theorem test_readFreq :
    after (exec (.readFreq 102) (built s1)) (fun t => (t.res0, t.statusWord)) =
      some (2#32, 0x016#32) := by decide +kernel

/-- S1: BUILD gives TREE 0x00141208, WALK 0x008 and STATUS 0x016. -/
theorem test_build_s1 :
    after (exec .build (table s1)) (fun t => (t.treeWord, t.walkWord, t.statusWord)) =
      some (0x00141208#32, 0x008#32, 0x016#32) := by decide +kernel

/-- TB1: BUILD of an empty table is EMPTY: STATUS 0x012. -/
theorem test_build_empty :
    after (exec .build State.reset) (fun t => (t.treeWord, t.statusWord)) =
      some (0#32, 0x012#32) := by decide +kernel

/-- TB3: the smaller key goes right when its byte is larger: READ_NODE 2 = 0x00080361/6. -/
theorem test_readNode_child_order :
    after (exec (.readNode 2) (built tb3)) (fun t => (t.res0, t.res1)) =
      some (0x00080361#32, 6#32) := by decide +kernel

/-- S1: READ_NODE 8 = 0x00181F61/32; READ_NODE 9 is not in use. -/
theorem test_readNode_s1 :
    (after (exec (.readNode 8) (built s1)) (fun t => (t.res0, t.res1)),
      after (exec (.readNode 9) (built s1)) (fun t => (t.res0, t.res1))) =
      (some (0x00181F61#32, 32#32), some (0#32, 0#32)) := by decide +kernel

/-- S1: ENCODE 102 gives "0001". -/
theorem test_encode_s1 :
    after (exec (.encode 102) (built s1)) (fun t => (t.res0, t.codewinWord 0)) =
      some (4#32, 8#32) := by decide +kernel

/-- EN2: ENCODE 101 on S1 raises UNUSED_SYMBOL: STATUS 0x436. -/
theorem test_encode_unused :
    after (exec (.encode 101) (built s1)) State.statusWord = some 0x436#32 := by decide +kernel

/-- DE15: DEC_RESET from WALK 0x406. -/
theorem test_decReset :
    (run (built s1) [.decBit false, .decBit false, .decReset]).walkWord = 0x008#32 := by
  decide +kernel

/-- DE4: 0, 0, 0, 1 emits 102 and returns to the root: STATUS 0x01E. -/
theorem test_decBit_emit :
    (fun t : State => (t.res0, t.walkWord, t.statusWord))
      (run (built s1) [.decBit false, .decBit false, .decBit false, .decBit true]) =
      (102#32, 0x008#32, 0x01E#32) := by decide +kernel

/-- DE11: DEC_BIT on a SINGLE tree raises DEGENERATE_BIT: STATUS 0x634. -/
theorem test_decBit_single :
    after (exec (.decBit true) (built tb2)) State.statusWord = some 0x634#32 := by decide +kernel

/-- DE7: DEC_END mid-path raises TRUNCATED_CODE with the walk unchanged: STATUS 0x526, WALK 0x605. -/
theorem test_decEnd_truncated :
    (fun t : State => (t.statusWord, t.walkWord))
      (run (built s1) [.decBit false, .decBit false, .decBit false, .decEnd]) =
      (0x526#32, 0x605#32) := by decide +kernel

/-- DE12: DEC_END on {255:7} gives 255 and 7. -/
theorem test_decEnd_single :
    after (exec .decEnd (built tb2)) (fun t => (t.res0, t.res1)) = some (255#32, 7#32) := by
  decide +kernel

/-! ### The bus, the step, reset -/

/-- RG1, RG2, RG5: ID, PARAMS and STATUS at reset. -/
theorem test_reset_registers :
    (readReg 0x00 State.reset, readReg 0x04 State.reset, readReg 0x10 State.reset) =
      (0x48554646#32, 0x01FFFF18#32, 0x00000010#32) := by decide

/-- P7, steps 2 to 4: a DATA write while SET_FREQ is pending is dropped and sets OVR. -/
theorem test_overrun :
    after (step { State.reset with
      pending := some 0x12000001#32, data := 9, turns := [.host]
      host := [.write 0x0C .word 3] }) (fun t => (t.data, t.ovr, t.pending)) =
      some (9#32, true, some 0x12000001#32) := by decide

/-- RG12: a STATUS read while busy shows BUSY = 1 exactly. -/
theorem test_busy_status :
    (readReg 0x10 { State.reset with pending := some 0#32 }).getLsbD 0 = true :=
  readReg_status_busy _

/-- RG13: a byte read at offset 0x11 under REFUSE has no step. -/
theorem test_refuse :
    (match step { State.reset with host := [.read 0x11 .byte] } with
      | .refused .unsupportedAccess => true
      | _ => false) = true := by decide

/-- RG14: a halfword write at offset 0x08 under BUS_ERROR issues no command. -/
theorem test_bus_error :
    after (step { State.reset with
      params := { Params.default with busSubword := .busError }
      host := [.write 0x08 .half 0] }) (fun t => (t.pending, t.replies)) =
      some (none, [.busError]) := by decide

/-- HZ1: RESET abandons a pending command: STATUS 0x010. -/
theorem test_reset_step :
    after (step { State.reset with turns := [.reset], pending := some 0#32, errSticky := true })
      State.statusWord = some 0x010#32 := by decide

/-- P1: "aabc" encodes to 001011 with header 97 2 98 1 99 1. -/
theorem test_encode_buffer :
    (match encodeBuffer [97, 97, 98, 99] State.reset with
      | .ok (_, header, code) => some (header, codeText code)
      | .error _ => none) =
      some ([(97, 2), (98, 1), (99, 1)], ['0', '0', '1', '0', '1', '1']) := by decide +kernel

/-- P2: decoding gives it back. -/
theorem test_decode_buffer :
    (match decodeBuffer (headerTokens [(97, 2), (98, 1), (99, 1)])
        [false, false, true, false, true, true] State.reset with
      | .ok (_, out) => some out
      | .error _ => none) = some [97, 97, 98, 99] := by decide +kernel

/-- S4: an odd token count is MalformedHeader. -/
theorem test_malformed_header : parseHeader [.int 97] = .error .malformedHeader := rfl

/-! ### Witnesses: states and operands that meet the premises of the statements -/

/-- A one-step result given as an equation, for the witnesses below. -/
def errorIs (c : BitVec 8) (i : Instr) (s : State) : Prop :=
  ∃ t, exec i s = .next t ∧ t.lastErr = c

/-- The reset state with FW = 1 and FREQ[5] at its maximum, 1. -/
def full5 : State := { State.reset with params := { Params.default with fw := 1 } }.setFreqAt 5 1

/-- The S1 tree (MULTI) with the walk at the internal entry 6, two bits below the root. -/
def midWalk : State := { built s1 with walkNode := 6#9, walkDepth := 2#8 }

theorem freqBounded_default {s : State} (h : s.params = Params.default) : FreqBounded s := by
  intro b
  rw [h]
  exact (s.freqAt b).isLt

theorem freqAt_reset (b : Byte) : State.reset.freqAt b = 0#24 := by
  simp [State.freqAt, State.reset]

theorem freqBounded_full5 : FreqBounded full5 := by
  intro b
  by_cases h : b = 5
  · subst h; decide +kernel
  · rw [full5, freqAt_setFreqAt_other _ _ h]
    have : ({ State.reset with params := { Params.default with fw := 1 } }).freqAt b = 0#24 :=
      freqAt_reset b
    rw [this]; exact Nat.two_pow_pos _

/-- A byte that is not listed has frequency 0. -/
theorem freqAt_table_other {l : List (Byte × Freq)} {b : Byte} (h : ∀ p ∈ l, p.1 ≠ b) :
    (table l).freqAt b = 0#24 := by
  suffices ∀ s : State, s.freqAt b = 0#24 →
      (l.foldl (fun s p => s.setFreqAt p.1 p.2) s).freqAt b = 0#24 from this _ (freqAt_reset b)
  induction l with
  | nil => exact fun s hs => hs
  | cons p l ih =>
    intro s hs
    refine ih (fun q hq => h q (List.mem_cons_of_mem _ hq)) _ ?_
    rw [freqAt_setFreqAt_other _ _ (h p List.mem_cons_self).symm]
    exact hs

theorem inv_reset : Inv State.reset :=
  ⟨rfl, freqBounded_default rfl, by unfold ErrorFieldsOk; decide, ⟨rfl, rfl, rfl, rfl⟩, ⟨rfl, rfl⟩⟩

theorem inv_empty : Inv (issue .build State.reset) :=
  inv_issue_build rfl (freqBounded_default rfl)

theorem inv_tb2 : Inv (built tb2) := inv_issue_build rfl (freqBounded_default rfl)
theorem inv_tb3 : Inv (built tb3) := inv_issue_build rfl (freqBounded_default rfl)
theorem inv_s1 : Inv (built s1) := inv_issue_build rfl (freqBounded_default rfl)

theorem tb2_single : (built tb2).tstate = .single := by decide +kernel
theorem tb3_multi : (built tb3).tstate = .multi := by decide +kernel
theorem s1_multi : (built s1).tstate = .multi := by decide +kernel

/-- The invariant also holds in the middle of a walk. -/
theorem inv_midWalk : Inv midWalk := by
  refine ⟨rfl, freqBounded_default rfl, ⟨by decide +kernel, fun h => absurd rfl h, ?_⟩,
    inv_s1.2.2.2.1, ?_⟩
  · intro h; cases h
  · unfold WalkOk
    rw [if_pos (by exact s1_multi)]
    exact ⟨by decide +kernel, by decide +kernel, [false, false], rfl, by decide +kernel⟩


/-! Encoding -/

theorem witness_EncodeDecodeRoundTrip : ∃ w i, decode w = .ok i := ⟨0x210001FF#32, _, rfl⟩

theorem witness_DecodingTotalAndUnambiguous :
    (∃ w : Word, ∃ r ∈ opcodeTable, ∃ q ∈ opcodeTable,
      w &&& r.mask = r.pattern ∧ w &&& q.mask = q.pattern) ∧
    ∃ w : Word, ∀ r ∈ opcodeTable, w &&& r.mask ≠ r.pattern :=
  ⟨⟨0x41000001#32, by decide⟩, 0x41000002#32, by decide⟩

/-- Both ends of every range of unassigned OP values, and a reserved bit of each format (R87). -/
theorem witness_IllegalWordsRaiseIllegalCmd_words :
    ([0x02FFFFFF#32, 0x0F000000#32, 0x14000000#32, 0x1F000000#32, 0x22000000#32, 0x2F000000#32,
        0x31000000#32, 0x3F000000#32, 0x43000000#32, 0xFF000000#32].all
      fun w => match decode w with | .error .unassignedOp => true | _ => false) = true ∧
    ([0x00000001#32, 0x42800000#32, 0x13000100#32, 0x21000200#32, 0x41000002#32].all
      fun w => match decode w with | .error .reservedBit => true | _ => false) = true := by decide

theorem witness_IllegalWordsRaiseIllegalCmd :
    ∃ (s : State) (w : Word) (e : IllegalWord), decode w = .error e ∧ s.pending = some w :=
  ⟨{ State.reset with pending := some 0x05000000#32 }, _, _, rfl, rfl⟩

theorem witness_OperandsAreTheirFields :
    decode 0x110000FF#32 = .ok (.count 255) ∧ decode 0x12000080#32 = .ok (.setFreq 128) ∧
      decode 0x13000000#32 = .ok (.readFreq 0) ∧ decode 0x300000FF#32 = .ok (.encode 255) ∧
      decode 0x21000100#32 = .ok (.readNode 256) ∧ decode 0x41000001#32 = .ok (.decBit true) ∧
      decode 0x20000000#32 = .ok .build := ⟨rfl, rfl, rfl, rfl, rfl, rfl, rfl⟩

/-- The largest operand of each field is accepted and the next one is refused. -/
theorem witness_AssemblerNeverTruncates :
    ([⟨.encode, some (.int 255)⟩, ⟨.readNode, some (.int 511)⟩, ⟨.decBit, some (.int 1)⟩,
        ⟨.nop, none⟩, ⟨.count, some (.chr 'a')⟩].all fun c : SourceCommand => c.wf) = true ∧
    ([⟨.encode, some (.int 256)⟩, ⟨.readNode, some (.int 512)⟩, ⟨.decBit, some (.int 2)⟩,
        ⟨.nop, some (.int 0)⟩, ⟨.count, none⟩].all fun c : SourceCommand => !c.wf) = true := by
  decide

/-! The step and errors -/

theorem witness_StepExecutesPendingCommand (ts : List Agent) :
    ∃ (s : State) (w : Word) (i : Instr), s.pending = some w ∧ decode w = .ok i ∧ s.turns = ts :=
  ⟨{ State.reset with pending := some 0x11000061#32, turns := ts }, _, _, rfl, rfl, rfl⟩

theorem witness_EveryWordCompletes (w : Word) : ∃ s : State, s.pending = some w :=
  ⟨{ State.reset with pending := some w }, rfl⟩

/-- A pending word whose EXEC raises: DEC_END without a tree, and an illegal word. -/
theorem witness_ErrorEntryIsPrecise :
    (∃ s t : State, s.pending = some (encode .decEnd) ∧ engineStep s = .next t ∧
      t.lastErr ≠ 0#8) ∧
    ∃ s t : State, s.pending = some 0x05000000#32 ∧ engineStep s = .next t ∧ t.lastErr ≠ 0#8 :=
  ⟨⟨{ State.reset with pending := some (encode .decEnd) }, _, rfl, rfl, by decide⟩,
    { State.reset with pending := some 0x05000000#32 }, _, rfl, rfl, by decide⟩

theorem witness_FailedCommandFailsAgain :
    ∃ (s t : State) (w : Word), s.pending = some w ∧ engineStep s = .next t ∧ t.lastErr ≠ 0#8 :=
  ⟨{ State.reset with pending := some (encode .decEnd) }, _, _, rfl, rfl, by decide⟩

/-- Every error of a command is raised somewhere. -/
theorem witness_ErrorCodesAndTheirCauses :
    (∃ s, errorIs 2 (.count 5) s) ∧ (∃ s, errorIs 2 (.setFreq 5) s) ∧
      (∃ s, errorIs 3 .decReset s) ∧ (∃ s, errorIs 3 (.encode 0) s) ∧
      (∃ s, errorIs 4 (.encode 101) s) ∧ (∃ s, errorIs 5 .decEnd s) ∧
      ∃ s, errorIs 6 (.decBit true) s :=
  ⟨⟨full5, raise .freqOverflow full5,
      by simp [exec, execCount, State.freqFull, full5, freqMax, Params.default], rfl⟩,
    ⟨putData 0x01000000#32 State.reset, _, rfl, rfl⟩, ⟨State.reset, _, rfl, rfl⟩,
    ⟨State.reset, _, rfl, rfl⟩,
    ⟨{ State.reset with tstate := .multi }, raise .unusedSymbol { State.reset with tstate := .multi },
      by simp [exec, execEncode, State.codeAt, State.reset, noCodes], rfl⟩,
    ⟨{ State.reset with tstate := .multi, walkDepth := 1 }, _, rfl, rfl⟩,
    { State.reset with tstate := .single }, _, rfl, rfl⟩

theorem witness_StickyBitsClearedOnlyByClrErrOrReset :
    (∃ s t : State, step s = .next t ∧ s.errSticky = true ∧ t.errSticky = false) ∧
    ∃ s t : State, step s = .next t ∧ s.ovr = true ∧ t.ovr = false :=
  ⟨⟨{ State.reset with errSticky := true, pending := some (encode .clrErr) }, _, rfl, rfl, rfl⟩,
    { State.reset with ovr := true, turns := [.reset] }, _, rfl, rfl, rfl⟩

/-- CLEAR_FREQ and a reset change a non-zero entry. -/
theorem witness_OnlyFrequencyCommandsWriteFreq :
    (∃ s t : State, s.pending = some (encode .clearFreq) ∧ step s = .next t ∧
      t.freqAt 5 ≠ s.freqAt 5) ∧
    ∃ s t : State, s.turns = [.reset] ∧ step s = .next t ∧ t.freqAt 5 ≠ s.freqAt 5 :=
  ⟨⟨{ full5 with pending := some (encode .clearFreq) }, _, rfl, rfl, by decide +kernel⟩,
    { full5 with turns := [.reset] }, _, rfl, rfl, by decide +kernel⟩

/-- DEC_END on a SINGLE tree writes RES0 and RES1, and ENCODE on a MULTI tree writes CODEWIN. -/
theorem witness_ResultRegisterWriters :
    (∃ s t : State, exec .decEnd s = .next t ∧ t.res0 ≠ s.res0) ∧
    (∃ s t : State, exec .decEnd s = .next t ∧ t.res1 ≠ s.res1) ∧
    ∃ s t : State, exec (.encode 102) s = .next t ∧ t.codewin ≠ s.codewin := by
  obtain ⟨t, ht, -⟩ := exec_next (.encode 102) (built s1)
  refine ⟨⟨{ State.reset with tstate := .empty, res0 := 1 }, _, rfl, by decide⟩,
    ⟨{ State.reset with tstate := .empty, res1 := 1 }, _, rfl, by decide⟩, built s1, t, ht, ?_⟩
  have h := test_encode_s1
  rw [ht] at h
  have h0 : t.codewinWord 0 = 8#32 := congrArg Prod.snd (Option.some.inj h)
  intro he
  have : (built s1).codewinWord 0 = 8#32 := by rw [← h0]; simp [State.codewinWord, he]
  exact absurd this (by decide)

/-! Commands -/

theorem witness_NopOnlyCompletes : ∃ s : State, s.statusWord = 0x00000436#32 :=
  ⟨{ State.reset with tstate := .multi, errSticky := true, lastErr := 4 }, by decide⟩

theorem witness_ClrErrClearsStickyBits : ∃ s : State, s.statusWord = 0x00000170#32 :=
  ⟨{ State.reset with errSticky := true, ovr := true, lastErr := 1 }, by decide⟩

theorem witness_CountAddsOneOrOverflows :
    (∃ s : State, s.params.wf = true ∧ FreqBounded s ∧
      (s.freqAt 5).toNat = 2 ^ s.params.fw - 1) ∧
    ∃ s : State, s.params.wf = true ∧ FreqBounded s ∧
      (s.freqAt 5).toNat ≠ 2 ^ s.params.fw - 1 :=
  ⟨⟨full5, by decide, freqBounded_full5, by decide +kernel⟩,
    State.reset, by decide, freqBounded_default rfl, by decide +kernel⟩

theorem witness_SetFreqLoadsDataOrOverflows :
    (∃ s : State, s.params.wf = true ∧ 2 ^ s.params.fw = s.data.toNat) ∧
    ∃ s : State, s.params.wf = true ∧ s.data.toNat + 1 = 2 ^ s.params.fw :=
  ⟨⟨putData 0x01000000#32 State.reset, by decide, by decide⟩,
    putData 0x00FFFFFF#32 State.reset, by decide, by decide⟩

/-- Tables with none, two and all 256 symbols; one symbol is the SINGLE case of the next theorem. -/
theorem witness_BuildSetsTreeRegisters :
    ∀ n ∈ [0, 2, 256], ∃ s : State,
      (allBytes.filter fun b => s.freqAt b != 0#24).length = n := by
  intro n hn
  simp only [List.mem_cons, List.not_mem_nil, or_false] at hn
  rcases hn with rfl | rfl | rfl
  · exact ⟨State.reset, by simp [freqAt_reset]⟩
  · refine ⟨table tb3, ?_⟩
    have h : (leafNodes (table tb3).freq).length = 2 := by decide +kernel
    rwa [leafNodes_length] at h
  · refine ⟨{ State.reset with freq := Vector.replicate 256 1#24 }, ?_⟩
    simp [State.freqAt, allBytes]

theorem witness_ReadNodeShowsEntriesInUse :
    ((built tb3).tstate = .multi ∧ 2#9 < (built tb3).ncount) ∧
    ((built tb2).tstate = .single ∧ 0#9 < (built tb2).ncount) ∧
    ¬ 3#9 < (built tb3).ncount ∧ State.reset.tstate = .none := by decide +kernel

theorem witness_EncodeReturnsCode :
    State.reset.tstate = .none ∧
    ((built tb3).tstate ≠ .none ∧ ((built tb3).codeAt 99).used = false) ∧
    ((built tb3).tstate ≠ .none ∧ ((built tb3).codeAt 98).used = true) := by decide +kernel

theorem witness_DecResetReturnsToRoot :
    State.reset.tstate = .none ∧ midWalk.tstate ≠ .none := by decide +kernel

/-- One state for each tree state, and an internal and a leaf child. -/
theorem witness_DecBitWalksOrEmits :
    State.reset.tstate = .none ∧ (built tb2).tstate = .single ∧
    (issue .build State.reset).tstate = .empty ∧ midWalk.tstate = .multi ∧
    (midWalk.nodeAt (midWalk.nodeAt midWalk.walkNode).left).internal = true ∧
    (midWalk.nodeAt (midWalk.nodeAt midWalk.walkNode).right).internal = false := by decide +kernel

theorem witness_DecEndReportsTheEnd :
    State.reset.tstate = .none ∧ (midWalk.tstate = .multi ∧ midWalk.walkDepth ≠ 0#8) ∧
    (built tb2).tstate = .single ∧ (issue .build State.reset).tstate = .empty ∧
    ((built tb3).tstate = .multi ∧ (built tb3).walkDepth = 0#8) := by decide +kernel

/-! The tree -/

theorem witness_LeavesStandInByteOrder :
    (allBytes.filter fun b => (table tb3).freqAt b != 0#24)[1]? = some 98#8 := by decide +kernel

theorem witness_BuildOfZeroOrOneSymbol :
    (∀ b, State.reset.freqAt b = 0#24) ∧
    (table tb2).freqAt 255 ≠ 0#24 ∧ ∀ c, c ≠ 255#8 → (table tb2).freqAt c = 0#24 :=
  ⟨freqAt_reset, by decide +kernel, fun c hc => freqAt_table_other (by simpa [tb2] using hc.symm)⟩

theorem witness_BuildMergesGlobalMinima :
    ∃ s t, exec .build s = .next t ∧ t.tstate = .multi := by
  obtain ⟨t, ht, -⟩ := exec_next .build (table tb3)
  refine ⟨table tb3, t, ht, ?_⟩
  have h : after (exec .build (table tb3)) (·.tstate) = some .multi := by decide +kernel
  rw [ht] at h
  exact Option.some.inj h

/-- Before the one merge of TB3 both leaves are in the working set. -/
theorem witness_WorkingSetBytesDistinct :
    (built tb3).lcount ≤ 2#9 ∧ 2#9 ≤ (built tb3).ncount ∧ (built tb3).live 2 0 ∧
      (built tb3).live 2 1 := by
  have h0 : ((built tb3).nodeAt 0).internal = false := by decide +kernel
  have h1 : ((built tb3).nodeAt 1).internal = false := by decide +kernel
  have hleaf : ∀ i : NodeIdx, i < 2 → ((built tb3).nodeAt i).internal = false := by
    intro i hi
    have : i = 0 ∨ i = 1 := by bv_omega
    rcases this with rfl | rfl
    · exact h0
    · exact h1
  refine ⟨by decide +kernel, by decide +kernel, ⟨by decide, ?_⟩, by decide, ?_⟩ <;>
    exact fun i hi hc => by rw [State.isChildOf, hleaf i hi] at hc; exact absurd hc.1 (by decide)

theorem witness_TrieInvariantsHold :
    (∃ s, Inv s ∧ s.tstate = .single) ∧
    (∃ s, Inv s ∧ s.tstate = .multi ∧ s.inUse 0 = true) ∧
    ∃ s, Inv s ∧ s.tstate = .multi ∧ s.walkDepth ≠ 0#8 :=
  ⟨⟨built tb2, inv_tb2, tb2_single⟩, ⟨built tb3, inv_tb3, tb3_multi, by decide +kernel⟩,
    midWalk, inv_midWalk, s1_multi, by decide +kernel⟩

theorem witness_TreeRegistersFollowTreeState :
    ∀ c ∈ [TState.none, .empty, .single, .multi], ∃ s, Inv s ∧ s.tstate = c := by
  intro c _
  cases c with
  | none => exact ⟨State.reset, inv_reset, rfl⟩
  | empty => exact ⟨_, inv_empty, by decide +kernel⟩
  | single => exact ⟨_, inv_tb2, tb2_single⟩
  | multi => exact ⟨_, inv_tb3, tb3_multi⟩

/-- A used byte, whose code has one bit, and a byte without a leaf. -/
theorem witness_CodesAreRootToLeafPaths :
    ∃ s t, exec .build s = .next t ∧ (t.codeAt 98).used = true ∧ (t.codeAt 98).len.toNat = 1 ∧
      (t.codeAt 99).used = false :=
  ⟨table tb3, _, rfl, by decide +kernel⟩

theorem witness_ChildOrderIsByteOrder :
    ((table tb3).freqAt 97 = 5#24 ∧ (table tb3).freqAt 98 = 1#24 ∧
      ∀ b, b ≠ 97#8 → b ≠ 98#8 → (table tb3).freqAt b = 0#24) ∧
    ∃ s : State, s.freqAt 10 = 3#24 ∧ s.freqAt 20 = 1#24 ∧ s.freqAt 30 = 1#24 ∧
      ∀ b, b ≠ 10#8 → b ≠ 20#8 → b ≠ 30#8 → s.freqAt b = 0#24 :=
  ⟨⟨by decide +kernel, by decide +kernel, fun b h1 h2 =>
      freqAt_table_other (by simpa [tb3] using ⟨h1.symm, h2.symm⟩)⟩,
    table [(10, 3), (20, 1), (30, 1)], by decide +kernel, by decide +kernel, by decide +kernel,
    fun b h1 h2 h3 => freqAt_table_other (by simpa using ⟨h1.symm, h2.symm, h3.symm⟩)⟩

/-- Two states of the same FREQ, one with a tree and one without. -/
theorem witness_BuildDependsOnFreqOnly :
    (table tb3).freq = (built tb3).freq ∧ (table tb3).tstate ≠ (built tb3).tstate ∧
      (built tb3).inUse 2 = true := ⟨rfl, by rw [tb3_multi]; decide +kernel, by decide +kernel⟩

theorem witness_CodesArePrefixFree :
    (∃ s, Inv s ∧ s.tstate = .multi ∧ (s.codeAt 97).used = true ∧ (s.codeAt 98).used = true) ∧
    ∃ s, Inv s ∧ s.tstate = .single ∧ (s.codeAt 255).used = true :=
  ⟨⟨built tb3, inv_tb3, tb3_multi, by decide +kernel⟩, built tb2, inv_tb2, tb2_single,
    by decide +kernel⟩

theorem witness_TreeBounds :
    (∃ s, Inv s ∧ s.tstate = .single ∧ (s.codeAt 255).used = true ∧ s.inUse 0 = true) ∧
    ∃ s t, Inv s ∧ s.tstate = .multi ∧ (s.codeAt 97).used = true ∧ s.inUse 8 = true ∧
      exec (.decBit false) s = .next t ∧ t.symValid = false := by
  obtain ⟨t, ht, -⟩ := exec_next (.decBit false) midWalk
  refine ⟨⟨built tb2, inv_tb2, tb2_single, by decide +kernel⟩, midWalk, t, inv_midWalk, s1_multi,
    by decide +kernel, by decide +kernel, ht, ?_⟩
  have h : after (exec (.decBit false) midWalk) (·.symValid) = some false := by decide +kernel
  rw [ht] at h
  exact Option.some.inj h

/-! Sequences of commands -/

theorem witness_CountingABuffer :
    (∃ (s : State) (buffer : List Byte), s.params.wf = true ∧
      ∀ b, buffer.count b ≤ 2 ^ s.params.fw - 1) ∧
    ∃ (s : State) (buffer : List Byte), s.params.wf = true ∧
      ∃ b, 2 ^ s.params.fw - 1 < buffer.count b :=
  ⟨⟨full5, [5, 6], by decide, by decide +kernel⟩, full5, [5, 5], by decide, 5, by decide⟩

/-- The empty buffer, one distinct byte, and two; each non-empty one has a first and a last byte. -/
theorem witness_EncodingABuffer :
    (∀ buffer ∈ [[], [97#8, 97#8], [97#8, 98#8]], ∃ s : State, s.params.wf = true ∧
      ∀ b, buffer.count b ≤ 2 ^ s.params.fw - 1) ∧
    [97#8, 98#8] = [] ++ 97#8 :: [98#8] ∧ [97#8, 98#8] = [97#8] ++ 98#8 :: [] ∧
    (∀ b ∈ [97#8, 97#8], b = 97#8) ∧ 97#8 ∈ [97#8, 98#8] ∧ 98#8 ∈ [97#8, 98#8] ∧ 97#8 ≠ 98#8 := by
  refine ⟨fun buffer h => ⟨State.reset, by decide, fun b => ?_⟩, by decide⟩
  have h1 : buffer.count b ≤ buffer.length := List.count_le_length
  have h2 : buffer.length ≤ 2 := by
    simp only [List.mem_cons, List.not_mem_nil, or_false] at h
    rcases h with rfl | rfl | rfl <;> decide
  have h3 : State.reset.params.fw = 24 := rfl
  rw [h3]; omega

/-- On S1: codes in a row, and the proper non-empty prefix "0" of the code of 102, which has four
bits (S1 of 95_test_vectors.md). -/
theorem witness_DecodingACodeString :
    Inv (built s1) ∧ (built s1).tstate = .multi ∧ (built s1).walkDepth = 0#8 ∧
    (∀ x ∈ [97#8, 102#8], ((built s1).codeAt x).used = true) ∧
    [false] <+: (built s1).codePath 102 ∧ [false] ≠ (built s1).codePath 102 := by
  have h : (built s1).codePath 102 = [false, false, false, true] := by decide +kernel
  refine ⟨inv_s1, s1_multi, rfl, by decide +kernel, ?_, ?_⟩ <;> rw [h]
  · exact ⟨_, rfl⟩
  · decide

theorem witness_EncodeThenDecodeIsIdentity :
    ∃ (s s' : State) (buffer : List Byte), s.params.wf = true ∧ s'.params.wf = true ∧
      s'.params.fw = s.params.fw ∧ buffer ≠ [] ∧ ∀ b, buffer.count b ≤ 2 ^ s.params.fw - 1 :=
  ⟨full5, full5, [5, 6], by decide, by decide, rfl, by decide, by decide +kernel⟩

theorem witness_HeaderCodec :
    (∃ tokens : List Token, tokens.length % 2 = 1) ∧
    (∃ tokens : List Token, .other ∈ tokens ∧ tokens.length % 2 = 0) ∧ ∃ v : Nat, 255 < v :=
  ⟨⟨[.int 97], by decide⟩, ⟨[.int 97, .other], by decide⟩, 256, by decide⟩

theorem witness_StaleTreeIsNeverUsed :
    (∃ s t, exec .clearFreq s = .next t ∧ t.lastErr = 0#8) ∧
    (∃ s t, exec (.count 5) s = .next t ∧ t.lastErr = 0#8) ∧
    ∃ s t, exec (.setFreq 5) s = .next t ∧ t.lastErr = 0#8 :=
  ⟨⟨built tb3, _, rfl, rfl⟩,
    ⟨State.reset, complete false (invalidate (State.reset.setFreqAt 5 (State.reset.freqAt 5 + 1#24))),
      by simp [exec, execCount, State.freqFull, State.freqAt, State.reset, freqMax, Params.default],
      rfl⟩,
    State.reset, _, rfl, rfl⟩

/-! Registers and the bus -/

theorem witness_ComposedRegisterFields : State.reset.params.wf = true ∧ 255 / 32 < 8 := by decide

/-- The offsets at which the clauses of the register reads meet. -/
def edgeOffsets : List Nat :=
  [0x00, 0x04, 0x08, 0x0C, 0x10, 0x14, 0x18, 0x1C, 0x20, 0x24, 0x3C, 0x40, 0x5C, 0x60, 0xFC]

/-- Each edge offset falls under exactly one clause of IdleReadsReturnRegisters. -/
theorem test_edge_offsets :
    ∀ off ∈ edgeOffsets, off < 256 ∧ off % 4 = 0 ∧
      ([decide (off ≤ 0x20), decide (0x24 ≤ off ∧ off ≤ 0x3C), decide (0x60 ≤ off),
        decide (∃ k : Fin 8, off = 0x40 + 4 * k.val)].filter id).length = 1 := by decide

/-- On a host turn of the schedule, and with the schedule used up. -/
theorem witness_IdleReadsReturnRegisters (off : Nat) :
    (∃ (s : State) (rest : List HostOp) (ts : List Agent), s.pending = none ∧
      s.turns = .host :: ts ∧ s.host = .read (s.params.base + off) .word :: rest) ∧
    ∃ (s : State) (rest : List HostOp), s.pending = none ∧ s.turns = [] ∧
      s.host = .read (s.params.base + off) .word :: rest :=
  ⟨⟨{ State.reset with turns := [.host, .engine], host := [.read (0 + off) .word] }, [], [.engine],
      rfl, rfl, rfl⟩,
    { State.reset with host := [.read (0 + off) .word] }, [], rfl, rfl, rfl⟩

theorem witness_BusyReadsExactParts (off : Nat) :
    ∃ (s : State) (rest : List HostOp) (ts : List Agent), s.pending.isSome = true ∧
      s.turns = .host :: ts ∧ s.host = .read (s.params.base + off) .word :: rest :=
  ⟨{ State.reset with
      pending := some 0#32, turns := [.host], host := [.read (0 + off) .word] },
    [], [], rfl, rfl, rfl⟩

theorem witness_IdleWrites (off : Nat) (v : Word) :
    (∃ (s : State) (rest : List HostOp) (ts : List Agent), s.pending = none ∧
      s.turns = .host :: ts ∧ s.host = .write (s.params.base + off) .word v :: rest) ∧
    ∃ (s : State) (rest : List HostOp), s.pending = none ∧ s.turns = [] ∧
      s.host = .write (s.params.base + off) .word v :: rest :=
  ⟨⟨{ State.reset with turns := [.host, .engine], host := [.write (0 + off) .word v] }, [],
      [.engine], rfl, rfl, rfl⟩,
    { State.reset with host := [.write (0 + off) .word v] }, [], rfl, rfl, rfl⟩

theorem witness_BusyWritesAreDropped (off : Nat) (v : Word) :
    ∃ (s : State) (rest : List HostOp) (ts : List Agent), s.pending.isSome = true ∧
      s.turns = .host :: ts ∧ s.host = .write (s.params.base + off) .word v :: rest :=
  ⟨{ State.reset with
      pending := some 0#32, turns := [.host], host := [.write (0 + off) .word v] },
    [], [], rfl, rfl, rfl⟩

/-- A byte read, and a word write at offset 0xFD, under each value of BUS_SUBWORD. -/
theorem witness_UnsupportedAccesses (b : BusSubword) :
    (∃ (s : State) (ts : List Agent), s.params.busSubword = b ∧ s.turns = .host :: ts ∧
      s.host = [.read (s.params.base + 0) .byte]) ∧
    ∃ (s : State) (ts : List Agent), s.params.busSubword = b ∧ s.turns = .host :: ts ∧
      0xFD % 4 ≠ 0 ∧ s.host = [.write (s.params.base + 0xFD) .word 0#32] :=
  ⟨⟨{ State.reset with
        params := { Params.default with busSubword := b }, turns := [.host]
        host := [.read 0 .byte] }, [], rfl, rfl, rfl⟩,
    { State.reset with
        params := { Params.default with busSubword := b }, turns := [.host]
        host := [.write 0xFD .word 0#32] }, [], rfl, rfl, by decide, rfl⟩

/-- The addresses just below and just above the window, and a 64-bit access that reaches into it from
below under BUS_ERROR. -/
theorem witness_AccessOutsideWindowRefused :
    (∃ (s : State) (ts : List Agent), s.turns = .host :: ts ∧ 255 < s.params.base ∧
      s.host = [.read 255 .word]) ∧
    (∃ (s : State) (ts : List Agent), s.turns = .host :: ts ∧ s.params.base + 256 ≤ 256 ∧
      s.host = [.write 256 .word 0#32]) ∧
    ∃ (s : State) (ts : List Agent), s.turns = .host :: ts ∧ 252 < s.params.base ∧
      s.params.busSubword = .busError ∧ s.host = [.read 252 .double] :=
  ⟨⟨{ State.reset with
        params := { Params.default with base := 256 }, turns := [.host]
        host := [.read 255 .word] }, [], rfl, by decide, rfl⟩,
    ⟨{ State.reset with turns := [.host], host := [.write 256 .word 0#32] }, [], rfl, by decide,
      rfl⟩,
    { State.reset with
        params := { fw := 24, base := 256, busSubword := .busError }, turns := [.host]
        host := [.read 252 .double] }, [], rfl, by decide, rfl, rfl⟩

theorem witness_PendingSetFreqKeepsItsOperand :
    ∃ (s t : State) (v : Word) (rest : List HostOp) (ts : List Agent),
      s.params.wf = true ∧ s.pending = some (encode (.setFreq 1)) ∧
      s.data.toNat < 2 ^ s.params.fw ∧ s.turns = .host :: .engine :: ts ∧
      s.host = .write (s.params.base + 0x0C) .word v :: rest ∧ step s = .next t :=
  ⟨{ State.reset with
      pending := some (encode (.setFreq 1)), data := 9, turns := [.host, .engine]
      host := [.write 0x0C .word 3] }, _, 3, [], [], by decide, rfl, by decide, rfl, rfl, rfl⟩

/-! Reset, schedules, whole-machine rules -/

theorem witness_ResetLoadsResetValues :
    ∃ (s : State) (ts : List Agent), s.turns = .reset :: ts ∧ s.freqAt 5 ≠ 0#24 :=
  ⟨{ full5 with turns := [.reset] }, [], rfl, by decide +kernel⟩

/-- Both ends of the range of FW. -/
theorem witness_ResetHasInvariant :
    ({ fw := 1, base := 0, busSubword := .busError } : Params).wf = true ∧
    ({ fw := 24, base := 256, busSubword := .refuse } : Params).wf = true := by decide

/-- An engine step from a state with the invariant. -/
theorem witness_StepKeepsInvariant :
    ∃ s t : State, Inv s ∧ s.pending = some (encode .build) ∧ step s = .next t :=
  ⟨{ State.reset with pending := some (encode .build) }, _, inv_reset, rfl, rfl⟩

theorem witness_ParametersNeverChange : ∃ s t : State, step s = .next t ∧ s ≠ t :=
  ⟨{ State.reset with pending := some 0#32 }, _, rfl, fun h => by
    have := congrArg State.pending h
    cases this⟩

/-- Two states that differ, in an entry that is not in use. -/
theorem witness_UnusedEntriesUnobservable :
    ∃ s s' t : State, Inv s ∧ SameButUnused s s' ∧ s.nodeAt 0 ≠ s'.nodeAt 0 ∧ step s = .next t :=
  ⟨State.reset,
    { State.reset with
      nodes := Vector.replicate 511 { byte := 1, freq := 0, internal := false, left := 0, right := 0 } },
    _, inv_reset, ⟨fun i hi => absurd hi (by rw [State.inUse]; exact Bool.false_ne_true), rfl⟩,
    by decide +kernel, rfl⟩

/-- Host turns first, and operations of every kind that has a step. -/
theorem witness_PendingCommandIsEventuallyExecuted :
    ∃ s : State, s.pending = some (encode .build) ∧ NoReset s ∧ s.turns = [.host, .host] ∧
      s.host = [.poll, .read 0x10 .word, .write 0x08 .half 0] ∧
      classify s.params 0x10 .word = .register 0x10 ∧
      classify s.params 0x08 .half = .unsupported ∧ s.params.busSubword = .busError :=
  ⟨{ State.reset with
      params := { Params.default with busSubword := .busError }
      pending := some (encode .build), turns := [.host, .host]
      host := [.poll, .read 0x10 .word, .write 0x08 .half 0] },
    rfl, by unfold NoReset; decide, rfl, rfl, by decide, by decide, rfl⟩

theorem witness_CmdwIssuesAndPolls (i : Instr) :
    ∃ (s : State) (rest : List HostOp), s.pending = none ∧ s.turns = [] ∧
      s.host = cmdw s.params i ++ rest :=
  ⟨{ State.reset with host := cmdw Params.default i ++ [] }, [], rfl, rfl, rfl⟩

end Sys2Proof.Tests
end

section
/-! The parameters are constants (R6, R10, R15), and so are the registers ID and PARAMS (R23, R24):
one frame lemma per agent of R5, then one for the step. -/

namespace Sys2Proof.Machine

/-! ### No agent changes the parameters -/

@[simp] theorem writeReg_params (off : Nat) (v : Word) (s : State) :
    (writeReg off v s).params = s.params := by
  rcases writeReg_cases off v s with h | h | h | h <;> rw [h]

/-- An access keeps the parameters when its effect on a register does. -/
theorem busAccess_params {addr : Nat} {width : AccessWidth} {f : Nat → State → State} {s t : State}
    (h : busAccess addr width f s = .next t) (hf : ∀ off, (f off s).params = s.params) :
    t.params = s.params := by
  rcases busAccess_cases addr width f s with
    ⟨-, h'⟩ | ⟨off, -, h'⟩ | ⟨-, -, h'⟩ | ⟨-, -, h'⟩ <;> rw [h'] at h <;> cases h
  · exact hf off
  · rfl

theorem hostStep_params {s t : State} (h : hostStep s = .next t) : t.params = s.params := by
  unfold hostStep at h
  split at h
  · cases h; rfl
  · exact (busAccess_params h fun off => hostRead_params off _ :)
  · exact (busAccess_params h fun off => writeReg_params off _ _ :)
  · cases h; rfl

/-- EXEC changes neither the parameters nor anything outside the block (R44, R210). -/
theorem execWord_sameOutside {w : Word} {s t : State} (h : execWord w s = .next t) :
    SameOutside s t := by
  rcases execWord_cases w s with ⟨i, u, -, hu, h'⟩ | ⟨e, -, h'⟩ <;> rw [h'] at h <;> cases h
  · obtain ⟨u', hu', hsame, -, -⟩ := exec_next i s
    cases hu.symm.trans hu'
    exact hsame
  · exact ⟨rfl, rfl, rfl, rfl⟩

/-- The engine changes neither the parameters nor anything outside the block (R44, R219). -/
theorem engineStep_sameOutside {s t : State} (h : engineStep s = .next t) : SameOutside s t := by
  unfold engineStep at h
  split at h
  · exact execWord_sameOutside h
  · cases h; exact ⟨rfl, rfl, rfl, rfl⟩

theorem engineStep_params {s t : State} (h : engineStep s = .next t) : t.params = s.params :=
  (engineStep_sameOutside h).left

/-- Whichever agent moves, the parameters stay (log entry 4). -/
theorem step_params {s t : State} (h : step s = .next t) : t.params = s.params := by
  rcases step_cases s with
    ⟨ts, -, h'⟩ | ⟨ts, -, h'⟩ | ⟨ts, -, h'⟩ | ⟨-, -, h'⟩ | ⟨-, -, h'⟩ <;> rw [h'] at h
  · exact (hostStep_params h :)
  · exact (engineStep_params h :)
  · cases h; rfl
  · exact engineStep_params h
  · exact hostStep_params h

/-! ### ID and PARAMS read exactly, busy or not (R241) -/

theorem readReg_id (s : State) : readReg 0x00 s = 0x48554646#32 :=
  readReg_exact s (r := .id) rfl

theorem readReg_params (s : State) : readReg 0x04 s = s.paramsWord :=
  readReg_exact s (r := .params) rfl

/-- PARAMS is a function of the parameters alone (R24). -/
theorem paramsWord_congr {s t : State} (h : t.params = s.params) : t.paramsWord = s.paramsWord := by
  simp only [State.paramsWord, h]

/-- Settles O57: every agent's step keeps the parameters, PARAMS depends on nothing else, and both
registers are among those that read exactly while busy. -/
theorem parametersNeverChange : Obligations.ParametersNeverChange := by
  intro s t h
  have hp : t.params = s.params := step_params h
  have hw : t.paramsWord = s.paramsWord := paramsWord_congr hp
  have hr : readReg 0x04 t = readReg 0x04 s := by rw [readReg_params, readReg_params, hw]
  exact ⟨hp, hw, hr, readReg_id s, readReg_id t⟩

end Sys2Proof.Machine
end

section
/-! What a command can do, said once: the errors it raises with their causes (R200–R206), and the
effect of each path of each command, as one relation that later proofs split by cases. -/

namespace Sys2Proof.Machine

/-- The causes of the errors of R202–R206, in a state that executes command i. -/
inductive Raises (s : State) : Instr → ErrCode → Prop
  | count_full {sym : Byte} (h : (s.freqAt sym).toNat = 2 ^ s.params.fw - 1) :
      Raises s (.count sym) .freqOverflow
  | setFreq_large {sym : Byte} (h : 2 ^ s.params.fw ≤ s.data.toNat) :
      Raises s (.setFreq sym) .freqOverflow
  | notBuilt {i : Instr} (h : s.tstate = .none)
      (hi : (∃ b, i = .encode b) ∨ i = .decReset ∨ (∃ bit, i = .decBit bit) ∨ i = .decEnd) :
      Raises s i .notBuilt
  | unusedSymbol {sym : Byte} (h : s.tstate ≠ .none) (hu : (s.codeAt sym).used = false) :
      Raises s (.encode sym) .unusedSymbol
  | degenerateBit {bit : Bool} (h : s.tstate = .single) : Raises s (.decBit bit) .degenerateBit
  | truncatedCode (h : s.tstate = .multi) (hd : s.walkDepth ≠ 0#8) :
      Raises s .decEnd .truncatedCode

/-- Command i takes state s to the given state: one constructor a path (R100–R173). -/
inductive Ran (s : State) : Instr → State → Prop
  | raised {i : Instr} {e : ErrCode} (h : Raises s i e) : Ran s i (raise e s)
  | nop : Ran s .nop (complete false s)
  | clrErr : Ran s .clrErr (complete false { s with errSticky := false, ovr := false })
  | clearFreq : Ran s .clearFreq (complete false (invalidate { s with freq := clearedFreq }))
  | count {sym : Byte} (h : (s.freqAt sym).toNat ≠ 2 ^ s.params.fw - 1) :
      Ran s (.count sym) (complete false (invalidate (s.setFreqAt sym (s.freqAt sym + 1#24))))
  | setFreq {sym : Byte} (h : s.data.toNat < 2 ^ s.params.fw) :
      Ran s (.setFreq sym) (complete false (invalidate (s.setFreqAt sym s.dataAsFreq)))
  | readFreq {sym : Byte} :
      Ran s (.readFreq sym) (complete false { s with res0 := (s.freqAt sym).setWidth 32 })
  | build : Ran s .build (complete false (loadTree (buildTree s.freq) s))
  | readNode_inUse {idx : NodeIdx} (h : s.inUse idx = true) :
      Ran s (.readNode idx) (complete false
        { s with res0 := (s.nodeAt idx).packed, res1 := (s.nodeAt idx).freq })
  | readNode_unused {idx : NodeIdx} (h : s.inUse idx = false) :
      Ran s (.readNode idx) (complete false { s with res0 := 0#32, res1 := 0#32 })
  | encode {sym : Byte} (h : s.tstate ≠ .none) (hu : (s.codeAt sym).used = true) :
      Ran s (.encode sym) (complete false
        { s with res0 := (s.codeAt sym).len.setWidth 32, codewin := (s.codeAt sym).bits })
  | decReset (h : s.tstate ≠ .none) : Ran s .decReset (complete false (walkToRoot s))
  | decBit_empty {bit : Bool} (h : s.tstate = .empty) : Ran s (.decBit bit) (complete false s)
  | decBit_internal {bit : Bool} (h : s.tstate = .multi)
      (hc : (s.nodeAt ((s.nodeAt s.walkNode).child bit)).internal = true) :
      Ran s (.decBit bit) (complete false
        { s with
          walkNode := (s.nodeAt s.walkNode).child bit, walkDepth := s.walkDepth + 1#8 })
  | decBit_leaf {bit : Bool} (h : s.tstate = .multi)
      (hc : (s.nodeAt ((s.nodeAt s.walkNode).child bit)).internal = false) :
      Ran s (.decBit bit) (complete true (walkToRoot
        { s with res0 := (s.nodeAt ((s.nodeAt s.walkNode).child bit)).byte.setWidth 32 }))
  | decEnd_single (h : s.tstate = .single) :
      Ran s .decEnd (complete false
        { s with
          res0 := (s.nodeAt s.root).byte.setWidth 32, res1 := (s.nodeAt s.root).freq })
  | decEnd_atRoot (h : s.tstate = .empty ∨ (s.tstate = .multi ∧ s.walkDepth = 0#8)) :
      Ran s .decEnd (complete false { s with res0 := 0#32, res1 := 0#32 })

theorem exec_of_raises {s : State} {i : Instr} {e : ErrCode} (h : Raises s i e) :
    exec i s = .next (raise e s) := by
  cases h with
  | count_full h => exact exec_count_full h
  | setFreq_large h => exact exec_setFreq_large _ h
  | notBuilt h hi => exact exec_notBuilt h i hi
  | unusedSymbol h hu => exact exec_encode_unused h hu
  | degenerateBit h => exact exec_decBit_single _ h
  | truncatedCode h hd => exact exec_decEnd_truncated h hd

theorem exec_of_ran {s t : State} {i : Instr} (h : Ran s i t) : exec i s = .next t := by
  cases h with
  | raised h => exact exec_of_raises h
  | nop => exact exec_nop s
  | clrErr => exact exec_clrErr s
  | clearFreq => exact exec_clearFreq s
  | count h => exact exec_count_ok h
  | setFreq h => exact exec_setFreq_ok _ h
  | readFreq => exact exec_readFreq _ s
  | build => exact exec_build s
  | readNode_inUse h => exact exec_readNode_inUse h
  | readNode_unused h => exact exec_readNode_unused h
  | encode h hu => exact exec_encode_used h hu
  | decReset h => exact exec_decReset_ok h
  | decBit_empty h => exact exec_decBit_empty _ h
  | decBit_internal h hc => exact exec_decBit_internal h hc
  | decBit_leaf h hc => exact exec_decBit_leaf h hc
  | decEnd_single h => exact exec_decEnd_single h
  | decEnd_atRoot h => exact exec_decEnd_atRoot h

/-- In every state every command takes one of the paths: the causes are exhaustive. -/
theorem exists_ran (i : Instr) (s : State) : ∃ t, Ran s i t := by
  cases i with
  | nop => exact ⟨_, .nop⟩
  | clrErr => exact ⟨_, .clrErr⟩
  | clearFreq => exact ⟨_, .clearFreq⟩
  | count sym =>
    by_cases h : (s.freqAt sym).toNat = 2 ^ s.params.fw - 1
    · exact ⟨_, .raised (.count_full h)⟩
    · exact ⟨_, .count h⟩
  | setFreq sym =>
    rcases Nat.lt_or_ge s.data.toNat (2 ^ s.params.fw) with h | h
    · exact ⟨_, .setFreq h⟩
    · exact ⟨_, .raised (.setFreq_large h)⟩
  | readFreq sym => exact ⟨_, .readFreq⟩
  | build => exact ⟨_, .build⟩
  | readNode idx =>
    cases h : s.inUse idx with
    | false => exact ⟨_, .readNode_unused h⟩
    | true => exact ⟨_, .readNode_inUse h⟩
  | encode sym =>
    by_cases h : s.tstate = .none
    · exact ⟨_, .raised (.notBuilt h (.inl ⟨sym, rfl⟩))⟩
    · cases hu : (s.codeAt sym).used with
      | false => exact ⟨_, .raised (.unusedSymbol h hu)⟩
      | true => exact ⟨_, .encode h hu⟩
  | decReset =>
    by_cases h : s.tstate = .none
    · exact ⟨_, .raised (.notBuilt h (.inr (.inl rfl)))⟩
    · exact ⟨_, .decReset h⟩
  | decBit bit =>
    cases h : s.tstate with
    | none => exact ⟨_, .raised (.notBuilt h (.inr (.inr (.inl ⟨bit, rfl⟩))))⟩
    | empty => exact ⟨_, .decBit_empty h⟩
    | single => exact ⟨_, .raised (.degenerateBit h)⟩
    | multi =>
      cases hc : (s.nodeAt ((s.nodeAt s.walkNode).child bit)).internal with
      | false => exact ⟨_, .decBit_leaf h hc⟩
      | true => exact ⟨_, .decBit_internal h hc⟩
  | decEnd =>
    cases h : s.tstate with
    | none => exact ⟨_, .raised (.notBuilt h (.inr (.inr (.inr rfl))))⟩
    | empty => exact ⟨_, .decEnd_atRoot (.inl h)⟩
    | single => exact ⟨_, .decEnd_single h⟩
    | multi =>
      by_cases hd : s.walkDepth = 0#8
      · exact ⟨_, .decEnd_atRoot (.inr ⟨h, hd⟩)⟩
      · exact ⟨_, .raised (.truncatedCode h hd)⟩

/-- The relation is exactly what `exec` computes. -/
theorem ran_iff_exec {s t : State} {i : Instr} : Ran s i t ↔ exec i s = .next t := by
  refine ⟨exec_of_ran, fun h => ?_⟩
  obtain ⟨u, hu⟩ := exists_ran i s
  cases (exec_of_ran hu).symm.trans h
  exact hu

/-! ### EXEC of a word, and the two halves of a step -/

/-- EXEC of a word ends in the state its command leaves, or in ILLEGAL_CMD, with PENDING cleared. -/
theorem execWord_ran {w : Word} {s u : State} (h : execWord w s = .next u) :
    ∃ t, u = clearPending t ∧
      ((∃ i, decode w = .ok i ∧ Ran s i t) ∨
        (∃ e, decode w = .error e ∧ t = raise .illegalCmd s)) := by
  rcases execWord_cases w s with ⟨i, t, hd, ht, h'⟩ | ⟨e, hd, h'⟩ <;> cases h'.symm.trans h
  · exact ⟨t, rfl, .inl ⟨i, hd, ran_iff_exec.2 ht⟩⟩
  · exact ⟨_, rfl, .inr ⟨e, hd, rfl⟩⟩

/-- Of the block a host step changes at most PENDING, DATA and OVR (R66, R240). -/
theorem hostStep_frame {s t : State} (h : hostStep s = .next t) :
    t = { s with
      host := t.host, replies := t.replies, draw := t.draw, ovr := t.ovr, pending := t.pending
      data := t.data } := by
  unfold hostStep at h
  split at h
  · cases h; rfl
  · next addr width rest _ =>
    rcases busAccess_cases addr width hostRead { s with host := rest } with
      ⟨-, h'⟩ | ⟨off, -, h'⟩ | ⟨-, -, h'⟩ | ⟨-, -, h'⟩ <;> cases h'.symm.trans h <;> rfl
  · next addr width v rest _ =>
    rcases busAccess_cases addr width (fun off t => writeReg off v t) { s with host := rest } with
      ⟨-, h'⟩ | ⟨off, -, h'⟩ | ⟨-, -, h'⟩ | ⟨-, -, h'⟩ <;> cases h'.symm.trans h
    · rcases writeReg_cases off v { s with host := rest } with hw | hw | hw | hw <;> rw [hw]
    · rfl
  · cases h; rfl

theorem engineStep_cases {s t : State} (h : engineStep s = .next t) :
    (s.pending = none ∧ t = s) ∨ ∃ w, s.pending = some w ∧ execWord w s = .next t := by
  unfold engineStep at h
  split at h
  · next w hw => exact .inr ⟨w, hw, h⟩
  · next hn => cases h; exact .inl ⟨hn, rfl⟩

/-- The agent that has the turn (R5, R251; log entry 1). -/
def State.mover (s : State) : Agent :=
  match s.turns with
  | a :: _ => a
  | [] => if s.busy then .engine else .host

/-- The state with the turn used up. -/
def State.useTurn (s : State) : State := { s with turns := s.turns.tail }

/-- The step of one agent (R5). -/
def agentStep : Agent → State → Result
  | .host => hostStep
  | .engine => engineStep
  | .reset => resetStep

/-- A step is the step of the agent that has the turn, in the state with that turn used up. -/
theorem step_eq_agentStep (s : State) : step s = agentStep s.mover s.useTurn := by
  unfold step State.mover State.useTurn
  cases h : s.turns with
  | nil =>
    have hs : ({ s with turns := [] } : State) = s := by rw [← h]
    rw [List.tail_nil, hs]
    cases s.busy <;> rfl
  | cons a ts => cases a <;> rfl

theorem turns_of_mover_reset {s : State} (h : s.mover = .reset) : ∃ ts, s.turns = .reset :: ts := by
  unfold State.mover at h
  cases ht : s.turns with
  | nil => rw [ht] at h; cases hb : s.busy <;> rw [hb] at h <;> cases h
  | cons a ts => rw [ht] at h; exact ⟨ts, by rw [show a = .reset from h]⟩

end Sys2Proof.Machine
end

section
/-! The tree in the state: under `TreeMatchesFreq` the entries in use are the ones Merge writes over
FREQ, so that the facts about Merge (`MergeState`) are facts about the block (R36, R37, R42). -/

namespace Sys2Proof.Machine

variable {s t : State}

/-! ### The tree state BUILD computes, by the number of symbols (R131) -/

theorem buildTree_tstate_cases (freq : Vector Freq 256) :
    ((buildTree freq).tstate = .empty ∧ (leafNodes freq).length = 0) ∨
      ((buildTree freq).tstate = .single ∧ (leafNodes freq).length = 1) ∨
      ((buildTree freq).tstate = .multi ∧ 2 ≤ (leafNodes freq).length) := by
  by_cases h0 : (leafNodes freq).length = 0
  · exact .inl ⟨by rw [buildTree_empty h0], h0⟩
  by_cases h1 : (leafNodes freq).length = 1
  · exact .inr (.inl ⟨by rw [buildTree_single h1], h1⟩)
  have h2 : 2 ≤ (leafNodes freq).length := by omega
  exact .inr (.inr ⟨(buildTree_multi h2).1, h2⟩)

/-- The tree state tells how many symbols there are: none, one, or more. -/
theorem leafNodes_length_of_tstate (freq : Vector Freq 256) :
    ((buildTree freq).tstate = .empty → (leafNodes freq).length = 0) ∧
      ((buildTree freq).tstate = .single → (leafNodes freq).length = 1) ∧
      ((buildTree freq).tstate = .multi → 2 ≤ (leafNodes freq).length) := by
  rcases buildTree_tstate_cases freq with ⟨h, hl⟩ | ⟨h, hl⟩ | ⟨h, hl⟩ <;> simp [h, hl]

theorem leafNodes_length_le (freq : Vector Freq 256) : (leafNodes freq).length ≤ 256 := by
  rw [leafNodes_length]; exact presentBytes_length_le freq

/-- NCOUNT and LCOUNT of a tree of n leaves (R37). -/
theorem buildTree_counts {freq : Vector Freq 256} (h : 1 ≤ (leafNodes freq).length) :
    (buildTree freq).ncount.toNat = 2 * (leafNodes freq).length - 1 ∧
      (buildTree freq).lcount.toNat = (leafNodes freq).length := by
  rcases buildTree_tstate_cases freq with ⟨-, h0⟩ | ⟨-, h1⟩ | ⟨-, h2⟩
  · omega
  · rw [buildTree_single h1, h1]; exact ⟨rfl, rfl⟩
  · obtain ⟨-, -, -, -, hn, hl, -⟩ := buildTree_multi h2
    exact ⟨hn, hl⟩

/-! ### The two cases of `TreeMatchesFreq` -/

theorem TreeMatchesFreq.cleared (h : TreeMatchesFreq s) (hn : s.tstate = .none) :
    s.root = 0#9 ∧ s.ncount = 0#9 ∧ s.lcount = 0#9 ∧ s.codes = noCodes := by
  unfold TreeMatchesFreq at h
  rwa [if_pos hn] at h

theorem TreeMatchesFreq.built (h : TreeMatchesFreq s) (hn : s.tstate ≠ .none) :
    s.tstate = (buildTree s.freq).tstate ∧ s.root = (buildTree s.freq).root ∧
      s.ncount = (buildTree s.freq).ncount ∧ s.lcount = (buildTree s.freq).lcount ∧
      s.codes = (buildTree s.freq).codes ∧
      ∀ i : NodeIdx, s.inUse i = true → s.nodeAt i = builtNode (buildTree s.freq).nodes i.toNat := by
  unfold TreeMatchesFreq at h
  rwa [if_neg hn] at h

/-! ### Reading the node store -/

/-- A named entry is read from the store alone (R8, R36). -/
theorem nodeAt_of_lt {i : NodeIdx} (h : i.toNat < 511) : s.nodeAt i = s.nodes[i.toNat] :=
  dif_pos h

theorem inUse_iff {i : NodeIdx} :
    s.inUse i = true ↔ (s.tstate = .single ∨ s.tstate = .multi) ∧ i.toNat < s.ncount.toNat := by
  simp [State.inUse, BitVec.lt_def]

theorem ne_none_of_tree (h : s.tstate = .single ∨ s.tstate = .multi) : s.tstate ≠ .none := by
  rcases h with h | h <;> rw [h] <;> decide

/-- Under `TreeMatchesFreq` an entry in use is one of the entries BUILD writes. -/
theorem TreeMatchesFreq.inUse_lt (h : TreeMatchesFreq s) {i : NodeIdx} (hi : s.inUse i = true) :
    i.toNat < 511 := by
  obtain ⟨htree, hlt⟩ := inUse_iff.1 hi
  obtain ⟨-, -, hn, -⟩ := h.built (ne_none_of_tree htree)
  rw [hn, buildTree_ncount] at hlt
  exact Nat.lt_of_lt_of_le hlt (buildTree_length_le _)

/-! ### A state that holds a tree -/

/-- The store of s holds `ns`, the tree Merge writes over the n leaves of FREQ (R37, R42 (f)). -/
structure HoldsTree (s : State) (n : Nat) (ns : List Node) : Prop where
  leaves : (leafNodes s.freq).length = n
  one_le : 1 ≤ n
  le : n ≤ 256
  entries : (buildTree s.freq).nodes = ns
  length : ns.length = 2 * n - 1
  merge : MergeState (leafNodes s.freq) ns [2 * n - 2]
  root_built : s.root = (buildTree s.freq).root
  root : s.root.toNat = 2 * n - 2
  ncount : s.ncount.toNat = 2 * n - 1
  lcount : s.lcount.toNat = n
  inUse : ∀ {i : NodeIdx}, s.inUse i = true ↔ i.toNat < 2 * n - 1
  nodeAt : ∀ {i : NodeIdx}, i.toNat < 2 * n - 1 → s.nodeAt i = builtNode ns i.toNat

theorem TreeMatchesFreq.holdsTree (h : TreeMatchesFreq s)
    (ht : s.tstate = .single ∨ s.tstate = .multi) :
    HoldsTree s (leafNodes s.freq).length (buildTree s.freq).nodes := by
  obtain ⟨hts, hroot, hncount, hlcount, -, hnode⟩ := h.built (ne_none_of_tree ht)
  have hone : 1 ≤ (leafNodes s.freq).length := by
    rcases buildTree_tstate_cases s.freq with ⟨he, -⟩ | ⟨-, h1⟩ | ⟨-, h2⟩
    · rw [hts, he] at ht; rcases ht with ht | ht <;> cases ht
    · omega
    · omega
  obtain ⟨hns, hr, -⟩ := buildTree_merge hone
  obtain ⟨hm, hlen, hlast⟩ := mergeAll_spec s.freq hone
  obtain ⟨hn, hl⟩ := buildTree_counts hone
  have huse : ∀ {i : NodeIdx}, s.inUse i = true ↔ i.toNat < 2 * (leafNodes s.freq).length - 1 := by
    intro i
    rw [inUse_iff, hncount, hn]
    exact and_iff_right ht
  rw [hlast] at hm
  exact {
    leaves := rfl
    one_le := hone
    le := leafNodes_length_le _
    entries := rfl
    length := by rw [hns, hlen]
    merge := by rw [hns]; exact hm
    root_built := hroot
    root := by rw [hroot, hr]
    ncount := by rw [hncount, hn]
    lcount := by rw [hlcount, hl]
    inUse := huse
    nodeAt := fun hi => hnode _ (huse.2 hi) }

section HoldsTree

variable {n : Nat} {ns : List Node}

/-- A state with the same table and the same tree holds the same tree. -/
theorem HoldsTree.congr (h : HoldsTree s n ns) (hf : t.freq = s.freq) (ht : SameTree s t) :
    HoldsTree t n ns := by
  obtain ⟨hts, hnodes, hroot, hncount, hlcount, -⟩ := ht
  have hle := h.le
  exact {
    leaves := by rw [hf]; exact h.leaves
    one_le := h.one_le
    le := h.le
    entries := by rw [hf]; exact h.entries
    length := h.length
    merge := by rw [hf]; exact h.merge
    root_built := by rw [hroot, hf]; exact h.root_built
    root := by rw [hroot]; exact h.root
    ncount := by rw [hncount]; exact h.ncount
    lcount := by rw [hlcount]; exact h.lcount
    inUse := by intro i; rw [State.inUse, hts, hncount]; exact h.inUse
    nodeAt := by
      intro i hi
      rw [nodeAt_of_lt (by omega), hnodes, ← nodeAt_of_lt (by omega)]
      exact h.nodeAt hi }

/-- An entry in use is internal exactly from LCOUNT on (R42 (a)). -/
theorem HoldsTree.internal_iff (h : HoldsTree s n ns) {i : NodeIdx} (hi : i.toNat < 2 * n - 1) :
    (s.nodeAt i).internal = true ↔ n ≤ i.toNat := by
  rw [h.nodeAt hi, h.merge.internal_iff (by rw [h.length]; exact hi), h.leaves]

/-- The children of an internal entry in use are smaller entries in use (R42 (c)). -/
theorem HoldsTree.child_lt (h : HoldsTree s n ns) {i : NodeIdx} (hi : i.toNat < 2 * n - 1)
    (hint : (s.nodeAt i).internal = true) (bit : Bool) :
    ((s.nodeAt i).child bit).toNat < i.toNat := by
  rw [h.nodeAt hi] at hint ⊢
  exact h.merge.childOf_lt (by rw [h.length]; exact hi) hint bit

/-- Walking the store from ROOT is walking the entries Merge wrote. -/
theorem HoldsTree.descend_iff (h : HoldsTree s n ns) {q : List Bool} {j : NodeIdx} :
    s.descend s.root q = some j ↔ follow ns (2 * n - 2) q = some j.toNat := by
  have hnode : ∀ i : NodeIdx, i.toNat < (buildTree s.freq).nodes.length →
      s.nodeAt i = builtNode (buildTree s.freq).nodes i.toNat := by
    intro i hi
    rw [h.entries] at hi ⊢
    exact h.nodeAt (by rw [← h.length]; exact hi)
  rw [h.root_built, descend_root_iff hnode (by rw [h.leaves]; exact h.one_le), h.entries,
    ← h.root_built, h.root]

/-- A path from the root ends at an entry in use; to an internal entry it has at most n − 2 bits
(R139). -/
theorem HoldsTree.follow_bounds (h : HoldsTree s n ns) {q : List Bool} {j : Nat}
    (hq : follow ns (2 * n - 2) q = some j) :
    j < 2 * n - 1 ∧ (n ≤ j → q.length ≤ n - 2) := by
  have hone := h.one_le
  have hlen := h.length
  have hle := h.merge.follow_le q (by omega) hq
  have hpath := (h.merge.path_length (by omega) (by rw [h.leaves]) hq).2
  rw [h.merge.internal_iff (by omega), h.leaves] at hpath
  exact ⟨by omega, hpath⟩

/-- The walk invariant of a MULTI tree in terms of the entries Merge wrote (R42 (g)). -/
theorem HoldsTree.walkOk_iff (h : HoldsTree s n ns) (hm : s.tstate = .multi) :
    WalkOk s ↔ n ≤ s.walkNode.toNat ∧ ∃ q : List Bool, q.length = s.walkDepth.toNat ∧
      follow ns (2 * n - 2) q = some s.walkNode.toNat := by
  unfold WalkOk
  rw [if_pos hm]
  constructor
  · rintro ⟨hint, huse, q, hq, hd⟩
    exact ⟨(h.internal_iff (h.inUse.1 huse)).1 hint, q, hq, h.descend_iff.1 hd⟩
  · rintro ⟨hint, q, hq, hf⟩
    obtain ⟨hlt, -⟩ := h.follow_bounds hf
    exact ⟨(h.internal_iff hlt).2 hint, h.inUse.2 hlt, q, hq, h.descend_iff.2 hf⟩

end HoldsTree

end Sys2Proof.Machine
end
section
/-! The block's invariant: what each part of it depends on, that reset has it (R48), that every step
keeps it, and the tree registers it implies (R37). -/

namespace Sys2Proof.Machine

variable {s t : State}

/-! ### What each part of the invariant depends on -/

theorem sameTree_refl (s : State) : SameTree s s := ⟨rfl, rfl, rfl, rfl, rfl, rfl⟩

theorem sameWalk_refl (s : State) : SameWalk s s := ⟨rfl, rfl⟩

theorem FreqBounded.congr (h : FreqBounded s) (hp : t.params = s.params) (hf : t.freq = s.freq) :
    FreqBounded t := fun b => by
  rw [freqAt_congr hf, hp]; exact h b

theorem TreeMatchesFreq.congr (h : TreeMatchesFreq s) (hf : t.freq = s.freq) (ht : SameTree s t) :
    TreeMatchesFreq t := by
  obtain ⟨hts, hnodes, hroot, hncount, hlcount, hcodes⟩ := ht
  have huse : ∀ i, t.inUse i = s.inUse i := fun i => by rw [State.inUse, hts, hncount]; rfl
  unfold TreeMatchesFreq
  rw [hts, hroot, hncount, hlcount, hcodes, hf]
  split
  · next hn => exact h.cleared hn
  · next hn =>
    obtain ⟨h1, h2, h3, h4, h5, hnode⟩ := h.built hn
    refine ⟨h1, h2, h3, h4, h5, fun i hi => ?_⟩
    rw [huse] at hi
    have hlt := h.inUse_lt hi
    rw [nodeAt_of_lt hlt, hnodes, ← nodeAt_of_lt hlt]
    exact hnode i hi

theorem WalkOk.congr (h : WalkOk s) (htree : TreeMatchesFreq s) (hf : t.freq = s.freq)
    (ht : SameTree s t) (hw : SameWalk s t) : WalkOk t := by
  obtain ⟨hwn, hwd⟩ := hw
  have hts := ht.1
  by_cases hm : s.tstate = .multi
  · have hT := htree.holdsTree (.inr hm)
    rw [hT.walkOk_iff hm] at h
    rw [(hT.congr hf ht).walkOk_iff (hts.trans hm), hwn, hwd]
    exact h
  · unfold WalkOk at h ⊢
    rw [if_neg hm] at h
    rw [hts, if_neg hm, hwn, hwd]
    exact h

/-- A step that keeps the parameters, FREQ and the tree keeps the invariant if it leaves the error
fields and the walk as they must be. -/
theorem Inv.of_sameTree (h : Inv s) (hp : t.params = s.params) (hf : t.freq = s.freq)
    (ht : SameTree s t) (he : ErrorFieldsOk t) (hw : WalkOk t) : Inv t := by
  obtain ⟨hwf, hfreq, -, htree, -⟩ := h
  exact ⟨hp ▸ hwf, hfreq.congr hp hf, he, htree.congr hf ht, hw⟩

/-- As before, for a step that keeps the walk too. -/
theorem Inv.of_sameWalk (h : Inv s) (hp : t.params = s.params) (hf : t.freq = s.freq)
    (ht : SameTree s t) (hw : SameWalk s t) (he : ErrorFieldsOk t) : Inv t :=
  have ⟨_, _, _, htree, hwalk⟩ := h
  h.of_sameTree hp hf ht he (hwalk.congr htree hf ht hw)

/-! ### The invariant where there is no tree -/

/-- Without a tree the invariant asks for cleared tree registers, codes and walk (R43). -/
theorem inv_of_noTree (hp : t.params.wf = true) (hf : FreqBounded t) (he : ErrorFieldsOk t)
    (hn : t.tstate = .none) (hroot : t.root = 0#9) (hncount : t.ncount = 0#9)
    (hlcount : t.lcount = 0#9) (hcodes : t.codes = noCodes) (hwn : t.walkNode = 0#9)
    (hwd : t.walkDepth = 0#8) : Inv t := by
  refine ⟨hp, hf, he, ?_, ?_⟩
  · unfold TreeMatchesFreq
    rw [if_pos hn]
    exact ⟨hroot, hncount, hlcount, hcodes⟩
  · unfold WalkOk
    rw [if_neg (by rw [hn]; decide)]
    exact ⟨hwn, hwd⟩

/-- Settles O55: at reset there is no tree, every frequency is 0 and no error is recorded (R48). -/
theorem resetHasInvariant : Obligations.ResetHasInvariant := by
  intro p ops ts rs d hp
  refine inv_of_noTree hp (fun b => ?_) ⟨Nat.zero_le _, fun h => absurd rfl h, fun h => nomatch h⟩
    rfl rfl rfl rfl rfl rfl rfl
  have hzero : (State.reset.freqAt b).toNat = 0 := by simp [State.freqAt, State.reset]
  calc (State.reset.freqAt b).toNat = 0 := hzero
    _ < 2 ^ p.fw := Nat.two_pow_pos _

/-! ### The error fields after a command -/

/-- A command that ends without error and without a symbol (R45). -/
theorem errorFieldsOk_complete (s : State) : ErrorFieldsOk (complete false s) :=
  ⟨Nat.zero_le _, fun h => absurd rfl h, fun h => nomatch h⟩

theorem errorFieldsOk_raise (e : ErrCode) (s : State) : ErrorFieldsOk (raise e s) :=
  ⟨code_le_six e, fun _ => ⟨rfl, rfl⟩, fun h => nomatch h⟩

/-! ### The commands that invalidate the tree -/

/-- Invalidate() and completion keep the invariant when the new table is bounded (R43). -/
theorem inv_complete_invalidate (hp : s.params.wf = true) (hf : FreqBounded s) :
    Inv (complete false (invalidate s)) :=
  inv_of_noTree hp (hf.congr rfl rfl) (errorFieldsOk_complete _) rfl rfl rfl rfl rfl rfl rfl

theorem freqBounded_setFreqAt (h : FreqBounded s) {sym : Byte} {v : Freq}
    (hv : v.toNat < 2 ^ s.params.fw) : FreqBounded (s.setFreqAt sym v) := by
  intro b
  by_cases hb : b = sym
  · rw [hb, freqAt_setFreqAt_same]; exact hv
  · rw [freqAt_setFreqAt_other s v hb]; exact h b

theorem dataAsFreq_toNat_le (s : State) : s.dataAsFreq.toNat ≤ s.data.toNat := by
  simp only [State.dataAsFreq, BitVec.toNat_setWidth]
  exact Nat.mod_le _ _

/-! ### BUILD -/

theorem inv_complete_loadTree (hp : s.params.wf = true) (hf : FreqBounded s) :
    Inv (complete false (loadTree (buildTree s.freq) s)) :=
  (inv_issue_build hp hf).of_sameWalk rfl rfl (sameTree_refl _) (sameWalk_refl _)
    (errorFieldsOk_complete _)

/-! ### The tree registers (R37) -/

theorem TreeMatchesFreq.registers (h : TreeMatchesFreq s) : TreeRegistersOk s := by
  obtain ⟨hempty, hsingle, hmulti⟩ := leafNodes_length_of_tstate s.freq
  unfold TreeRegistersOk
  cases hts : s.tstate with
  | none =>
    obtain ⟨hroot, hncount, hlcount, -⟩ := h.cleared hts
    exact ⟨hroot, hncount, hlcount⟩
  | empty =>
    obtain ⟨hb, hroot, hncount, hlcount, -⟩ := h.built (by rw [hts]; decide)
    rw [buildTree_empty (hempty (hb.symm.trans hts))] at hroot hncount hlcount
    exact ⟨hroot, hncount, hlcount⟩
  | single =>
    obtain ⟨hb, hroot, hncount, hlcount, -⟩ := h.built (by rw [hts]; decide)
    rw [buildTree_single (hsingle (hb.symm.trans hts))] at hroot hncount hlcount
    exact ⟨hroot, hncount, hlcount⟩
  | multi =>
    obtain ⟨hb, -⟩ := h.built (by rw [hts]; decide)
    have htwo := hmulti (hb.symm.trans hts)
    have hT := h.holdsTree (.inr hts)
    have hroot := hT.root
    have hncount := hT.ncount
    have hlcount := hT.lcount
    have hle := hT.le
    show 2 ≤ s.lcount.toNat ∧ _
    omega

/-- Settles O33: the registers are those of the tree BUILD computes, or cleared. -/
theorem treeRegistersFollowTreeState : Obligations.TreeRegistersFollowTreeState :=
  fun _ ⟨_, _, _, htree, _⟩ => htree.registers

theorem HoldsTree.two_le {n : Nat} {ns : List Node} (hT : HoldsTree s n ns)
    (htree : TreeMatchesFreq s) (hm : s.tstate = .multi) : 2 ≤ n := by
  have hreg := htree.registers
  unfold TreeRegistersOk at hreg
  rw [hm] at hreg
  rw [← hT.lcount]
  exact hreg.1

/-! ### The commands that move the walk -/

/-- The root is a place for the walk, whatever the tree (R171). -/
theorem walkOk_of_atRoot (htree : TreeMatchesFreq s) (hn : s.tstate ≠ .none)
    (hwn : s.walkNode = s.root) (hwd : s.walkDepth = 0#8) : WalkOk s := by
  by_cases hm : s.tstate = .multi
  · have hT := htree.holdsTree (.inr hm)
    have htwo := hT.two_le htree hm
    rw [hT.walkOk_iff hm, hwn, hwd, hT.root]
    exact ⟨by omega, [], rfl, rfl⟩
  · have hreg := htree.registers
    unfold TreeRegistersOk at hreg
    unfold WalkOk
    rw [if_neg hm, hwn]
    cases hts : s.tstate with
    | none => exact absurd hts hn
    | multi => exact absurd hts hm
    | empty | single =>
      rw [hts] at hreg
      exact ⟨hreg.1, hwd⟩

/-- A move of the walk to an internal child is one bit more of a path from the root.  An internal
entry is at most 254 bits deep, so WALK_DEPTH does not wrap (R139, R172). -/
theorem walkOk_of_move {bit : Bool} (htree : TreeMatchesFreq s) (hw : WalkOk s)
    (hm : s.tstate = .multi)
    (hc : (s.nodeAt ((s.nodeAt s.walkNode).child bit)).internal = true)
    (hf : t.freq = s.freq) (ht : SameTree s t)
    (hwn : t.walkNode = (s.nodeAt s.walkNode).child bit) (hwd : t.walkDepth = s.walkDepth + 1#8) :
    WalkOk t := by
  have hT := htree.holdsTree (.inr hm)
  obtain ⟨hint, q, hq, hfollow⟩ := (hT.walkOk_iff hm).1 hw
  obtain ⟨hlt, -⟩ := hT.follow_bounds hfollow
  have hint' := (hT.internal_iff hlt).2 hint
  have hchild := hT.child_lt hlt hint' bit
  have hcint := (hT.internal_iff (by omega)).1 hc
  have hfollow' : follow (buildTree s.freq).nodes (2 * (leafNodes s.freq).length - 2) (q ++ [bit]) =
      some ((s.nodeAt s.walkNode).child bit).toNat := by
    rw [hT.nodeAt hlt] at hint' ⊢
    exact follow_snoc.2 ⟨_, hfollow, hint', rfl⟩
  obtain ⟨-, hdepth⟩ := hT.follow_bounds hfollow'
  replace hdepth := hdepth hcint
  have hle := hT.le
  have hts : t.tstate = .multi := ht.1.trans hm
  rw [(hT.congr hf ht).walkOk_iff hts, hwn, hwd]
  refine ⟨hcint, q ++ [bit], ?_, hfollow'⟩
  simp only [List.length_append, List.length_singleton] at hdepth ⊢
  rw [BitVec.toNat_add, BitVec.toNat_ofNat]
  omega

/-! ### Every step keeps the invariant -/

theorem inv_of_ran {i : Instr} (h : Inv s) (hran : Ran s i t) : Inv t := by
  have ⟨hp, hf, _, htree, hw⟩ := h
  have same := sameTree_refl s
  have sameWalk := sameWalk_refl s
  cases hran with
  | raised => exact h.of_sameWalk rfl rfl same sameWalk (errorFieldsOk_raise _ _)
  | nop | clrErr | readFreq | readNode_inUse | readNode_unused | encode | decBit_empty
  | decEnd_single | decEnd_atRoot =>
    exact h.of_sameWalk rfl rfl same sameWalk (errorFieldsOk_complete _)
  | clearFreq =>
    refine inv_complete_invalidate hp fun b => ?_
    rw [State.freqAt, clearedFreq_get]
    exact Nat.two_pow_pos _
  | @count sym hfull =>
    refine inv_complete_invalidate hp (freqBounded_setFreqAt hf ?_)
    have hlt := hf sym
    have hmod := Nat.mod_le ((s.freqAt sym).toNat + 1) (2 ^ 24)
    rw [BitVec.toNat_add, BitVec.toNat_ofNat]
    omega
  | setFreq hdata =>
    exact inv_complete_invalidate hp
      (freqBounded_setFreqAt hf (Nat.lt_of_le_of_lt (dataAsFreq_toNat_le s) hdata))
  | build => exact inv_complete_loadTree hp hf
  | decReset hn =>
    exact h.of_sameTree rfl rfl same (errorFieldsOk_complete _)
      (walkOk_of_atRoot (htree.congr rfl same) hn rfl rfl)
  | decBit_internal hm hc =>
    exact h.of_sameTree rfl rfl same (errorFieldsOk_complete _)
      (walkOk_of_move htree hw hm hc rfl same rfl rfl)
  | decBit_leaf hm =>
    have hne : s.tstate ≠ .none := by rw [hm]; decide
    exact h.of_sameTree rfl rfl same
      ⟨Nat.zero_le _, fun hne => absurd rfl hne, fun _ => ⟨hm, rfl⟩⟩
      (walkOk_of_atRoot (htree.congr rfl same) hne rfl rfl)

theorem inv_execWord {w : Word} (h : Inv s) (hx : execWord w s = .next t) : Inv t := by
  obtain ⟨u, rfl, hu⟩ := execWord_ran hx
  have hinv : Inv u := by
    rcases hu with ⟨i, -, hran⟩ | ⟨e, -, rfl⟩
    · exact inv_of_ran h hran
    · exact h.of_sameWalk rfl rfl (sameTree_refl _) (sameWalk_refl _) (errorFieldsOk_raise _ _)
  have ⟨_, _, herr, _, _⟩ := hinv
  exact hinv.of_sameWalk rfl rfl (sameTree_refl _) (sameWalk_refl _) herr

theorem inv_hostStep (h : Inv s) (hx : hostStep s = .next t) : Inv t := by
  have ⟨_, _, herr, _, _⟩ := h
  rw [hostStep_frame hx]
  exact h.of_sameWalk rfl rfl (sameTree_refl _) (sameWalk_refl _) herr

theorem inv_engineStep (h : Inv s) (hx : engineStep s = .next t) : Inv t := by
  rcases engineStep_cases hx with ⟨-, rfl⟩ | ⟨w, -, hexec⟩
  · exact h
  · exact inv_execWord h hexec

/-- Using up a turn changes nothing the invariant speaks of. -/
theorem inv_useTurn (h : Inv s) : Inv s.useTurn :=
  have ⟨_, _, herr, _, _⟩ := h
  h.of_sameWalk rfl rfl (sameTree_refl s) (sameWalk_refl s) herr

/-- Settles O56: by the agent that moves and, for the engine, by the path its command takes. -/
theorem stepKeepsInvariant : Obligations.StepKeepsInvariant := by
  intro s t h hstep
  rw [step_eq_agentStep] at hstep
  cases hm : s.mover <;> rw [hm] at hstep
  case host => exact inv_hostStep (inv_useTurn h) hstep
  case engine => exact inv_engineStep (inv_useTurn h) hstep
  case reset =>
    cases hstep
    obtain ⟨hp, -⟩ := h
    exact resetHasInvariant s.params s.host s.turns.tail s.replies s.draw hp

end Sys2Proof.Machine
end

section
/-! Node-store entries not in use are unobservable (R36): a step of the state with another store that
agrees on the entries in use is the same step, and leaves two stores that agree again. -/

namespace Sys2Proof.Machine

variable {s t : State}

/-- The state with another node store. -/
def State.withNodes (s : State) (ns : Vector Node 511) : State := { s with nodes := ns }

/-- The store agrees with the one of s on the entries in use. -/
def AgreesInUse (s : State) (ns : Vector Node 511) : Prop :=
  ∀ i : NodeIdx, s.inUse i = true → (s.withNodes ns).nodeAt i = s.nodeAt i

theorem sameButUnused_iff {s s' : State} :
    SameButUnused s s' ↔ ∃ ns, s' = s.withNodes ns ∧ AgreesInUse s ns := by
  constructor
  · rintro ⟨hag, hs'⟩
    refine ⟨s'.nodes, hs', ?_⟩
    unfold AgreesInUse State.withNodes
    rwa [← hs']
  · rintro ⟨ns, rfl, hag⟩
    exact ⟨hag, rfl⟩

theorem SameButUnused.refl (s : State) : SameButUnused s s := ⟨fun _ _ => rfl, rfl⟩

/-- Stores that agree on s agree on every state with the same tree. -/
theorem AgreesInUse.congr {ns : Vector Node 511} (h : AgreesInUse s ns)
    (htree : TreeMatchesFreq s) (ht : SameTree s t) : AgreesInUse t ns := by
  obtain ⟨hts, hnodes, -, hncount, -⟩ := ht
  intro i hi
  have hi' : s.inUse i = true := by rw [State.inUse, ← hts, ← hncount]; exact hi
  have hlt := htree.inUse_lt hi'
  have hag := h i hi'
  rw [nodeAt_of_lt hlt, nodeAt_of_lt hlt] at hag ⊢
  rw [hnodes]
  exact hag

/-- An observation does not see the entries not in use (R258). -/
theorem SameButUnused.observe {s s' : State} (h : SameButUnused s s') : s'.observe = s.observe := by
  obtain ⟨ns, rfl, hag⟩ := sameButUnused_iff.1 h
  have hused : (s.withNodes ns).usedNodes = s.usedNodes := by
    unfold State.usedNodes
    refine List.filterMap_congr fun i _ => ?_
    have huse : (s.withNodes ns).inUse i = s.inUse i := rfl
    rw [huse]
    split
    · next hi => rw [hag i hi]
    · rfl
  simp only [State.observe, hused]
  rfl

/-! ### Host accesses do not look at the node store -/

theorem regWord_withNodes (s : State) (ns : Vector Node 511) (r : Reg) :
    (s.withNodes ns).regWord r = s.regWord r := by
  cases r <;> rfl

theorem hostRead_withNodes (off : Nat) (s : State) (ns : Vector Node 511) :
    hostRead off (s.withNodes ns) = (hostRead off s).withNodes ns := by
  have hread : readReg off (s.withNodes ns) = readReg off s := by
    simp only [readReg, regWord_withNodes]
    rfl
  simp only [hostRead, hread]
  rfl

theorem writeReg_withNodes (off : Nat) (v : Word) (s : State) (ns : Vector Node 511) :
    writeReg off v (s.withNodes ns) = (writeReg off v s).withNodes ns := by
  have hbusy : (s.withNodes ns).busy = s.busy := rfl
  unfold writeReg
  rw [hbusy]
  split
  · split <;> rfl
  · split <;> rfl
  · rfl

/-- A bus access does the same with another store when its effect on a register does. -/
theorem busAccess_withNodes {addr : Nat} {width : AccessWidth} {f : Nat → State → State}
    {ns : Vector Node 511} (hf : ∀ off, f off (s.withNodes ns) = (f off s).withNodes ns)
    (h : busAccess addr width f s = .next t) :
    busAccess addr width f (s.withNodes ns) = .next (t.withNodes ns) := by
  have hp : (s.withNodes ns).params = s.params := rfl
  unfold busAccess at h ⊢
  rw [hp]
  split at h
  · cases h
  · cases h; rw [hf]
  · split at h
    · cases h
    · cases h; rfl

theorem hostStep_withNodes {ns : Vector Node 511} (h : hostStep s = .next t) :
    hostStep (s.withNodes ns) = .next (t.withNodes ns) := by
  have hhost : (s.withNodes ns).host = s.host := rfl
  unfold hostStep at h ⊢
  rw [hhost]
  split at h
  · cases h; rfl
  · exact busAccess_withNodes (fun off => hostRead_withNodes off _ ns) h
  · exact busAccess_withNodes (fun off => writeReg_withNodes off _ _ ns) h
  · next rest _ =>
    cases h
    exact congrArg Host.Outcome.next 
      (hostRead_withNodes _ { s with host := if s.busy then s.host else rest } ns)

/-! ### Commands look at entries in use only -/

theorem Raises.withNodes {i : Instr} {e : ErrCode} (h : Raises s i e) (ns : Vector Node 511) :
    Raises (s.withNodes ns) i e := by
  cases h with
  | count_full h => exact .count_full h
  | setFreq_large h => exact .setFreq_large h
  | notBuilt h hi => exact .notBuilt h hi
  | unusedSymbol h hu => exact .unusedSymbol h hu
  | degenerateBit h => exact .degenerateBit h
  | truncatedCode h hd => exact .truncatedCode h hd

/-- The walk of a MULTI tree stands on an entry in use, and so do its two children (R42). -/
theorem walk_inUse (htree : TreeMatchesFreq s) (hw : WalkOk s) (hm : s.tstate = .multi)
    (bit : Bool) :
    s.inUse s.walkNode = true ∧ s.inUse ((s.nodeAt s.walkNode).child bit) = true := by
  have hT := htree.holdsTree (.inr hm)
  unfold WalkOk at hw
  rw [if_pos hm] at hw
  obtain ⟨hint, huse, -⟩ := hw
  have hlt := hT.inUse.1 huse
  exact ⟨huse, hT.inUse.2 (Nat.lt_trans (hT.child_lt hlt hint bit) hlt)⟩

/-- The root of a tree is in use (R37). -/
theorem root_inUse (htree : TreeMatchesFreq s) (ht : s.tstate = .single ∨ s.tstate = .multi) :
    s.inUse s.root = true := by
  have hT := htree.holdsTree ht
  have hone := hT.one_le
  rw [hT.inUse, hT.root]
  omega

/-- A command takes the same path with another store that agrees on the entries in use; it leaves
stores that agree. -/
theorem Ran.withNodes {i : Instr} {ns : Vector Node 511} (hinv : Inv s) (hag : AgreesInUse s ns)
    (h : Ran s i t) : ∃ t', Ran (s.withNodes ns) i t' ∧ SameButUnused t t' := by
  obtain ⟨-, -, -, htree, hw⟩ := hinv
  have keeps : ∀ {u : State}, SameTree s u → SameButUnused u (u.withNodes ns) := fun hu =>
    sameButUnused_iff.2 ⟨ns, rfl, hag.congr htree hu⟩
  have same := sameTree_refl s
  have hwn : (s.withNodes ns).walkNode = s.walkNode := rfl
  cases h with
  | raised h => exact ⟨_, .raised (h.withNodes ns), keeps same⟩
  | nop => exact ⟨_, .nop, keeps same⟩
  | clrErr => exact ⟨_, .clrErr, keeps same⟩
  | clearFreq => exact ⟨_, .clearFreq, .refl _⟩
  | count h => exact ⟨_, .count h, .refl _⟩
  | setFreq h => exact ⟨_, .setFreq h, .refl _⟩
  | readFreq => exact ⟨_, .readFreq, keeps same⟩
  | build => exact ⟨_, .build, .refl _⟩
  | readNode_inUse h =>
    refine ⟨_, .readNode_inUse h, ?_⟩
    rw [hag _ h]
    exact keeps same
  | readNode_unused h => exact ⟨_, .readNode_unused h, keeps same⟩
  | encode h hu => exact ⟨_, .encode h hu, keeps same⟩
  | decReset h => exact ⟨_, .decReset h, keeps same⟩
  | decBit_empty h => exact ⟨_, .decBit_empty h, keeps same⟩
  | @decBit_internal bit h hc =>
    obtain ⟨hwalk, hchild⟩ := walk_inUse htree hw h bit
    refine ⟨_, .decBit_internal h (by rw [hwn, hag _ hwalk, hag _ hchild]; exact hc), ?_⟩
    rw [hwn, hag _ hwalk]
    exact keeps same
  | @decBit_leaf bit h hc =>
    obtain ⟨hwalk, hchild⟩ := walk_inUse htree hw h bit
    refine ⟨_, .decBit_leaf h (by rw [hwn, hag _ hwalk, hag _ hchild]; exact hc), ?_⟩
    rw [hwn, hag _ hwalk, hag _ hchild]
    exact keeps same
  | decEnd_single h =>
    have hroot : (s.withNodes ns).nodeAt (s.withNodes ns).root = s.nodeAt s.root :=
      hag _ (root_inUse htree (.inl h))
    refine ⟨_, .decEnd_single h, ?_⟩
    rw [hroot]
    exact keeps same
  | decEnd_atRoot h => exact ⟨_, .decEnd_atRoot h, keeps same⟩

theorem execWord_withNodes {w : Word} {ns : Vector Node 511} (hinv : Inv s) (hag : AgreesInUse s ns)
    (h : execWord w s = .next t) :
    ∃ t', execWord w (s.withNodes ns) = .next t' ∧ SameButUnused t t' := by
  obtain ⟨u, rfl, ⟨i, hd, hran⟩ | ⟨e, hd, rfl⟩⟩ := execWord_ran h
  · obtain ⟨u', hran', hsame⟩ := hran.withNodes hinv hag
    obtain ⟨ns', rfl, hag'⟩ := sameButUnused_iff.1 hsame
    refine ⟨clearPending (u.withNodes ns'), ?_, sameButUnused_iff.2 ⟨ns', rfl, hag'⟩⟩
    unfold execWord
    rw [hd]
    simp only [exec_of_ran hran', retire_next]
  · refine ⟨clearPending (raise .illegalCmd (s.withNodes ns)), ?_,
      sameButUnused_iff.2 ⟨ns, rfl, hag⟩⟩
    unfold execWord
    rw [hd]
    rfl

theorem engineStep_withNodes {ns : Vector Node 511} (hinv : Inv s) (hag : AgreesInUse s ns)
    (h : engineStep s = .next t) :
    ∃ t', engineStep (s.withNodes ns) = .next t' ∧ SameButUnused t t' := by
  have hp : (s.withNodes ns).pending = s.pending := rfl
  rcases engineStep_cases h with ⟨hn, rfl⟩ | ⟨w, hw, hexec⟩
  · exact ⟨_, by rw [engineStep, hp, hn], sameButUnused_iff.2 ⟨ns, rfl, hag⟩⟩
  · rw [engineStep, hp, hw]
    exact execWord_withNodes hinv hag hexec

/-- The agent with the turn does the same with another store that agrees on the entries in use. -/
theorem agentStep_withNodes {a : Agent} {ns : Vector Node 511} (hinv : Inv s)
    (hag : AgreesInUse s ns) (h : agentStep a s = .next t) :
    ∃ t', agentStep a (s.withNodes ns) = .next t' ∧ SameButUnused t t' := by
  have ⟨_, _, _, htree, _⟩ := hinv
  cases a with
  | host =>
    have htree' : SameTree s t := by rw [hostStep_frame h]; exact sameTree_refl s
    exact ⟨_, hostStep_withNodes h, sameButUnused_iff.2 ⟨ns, rfl, hag.congr htree htree'⟩⟩
  | engine => exact engineStep_withNodes hinv hag h
  | reset =>
    cases h
    exact ⟨_, rfl, .refl _⟩

/-- Settles O58: the same agent has the turn in both states and leaves states that differ at most in
entries not in use, which an observation does not see. -/
theorem unusedEntriesUnobservable : Obligations.UnusedEntriesUnobservable := by
  intro s s' t hinv hsame hstep
  obtain ⟨ns, rfl, hag⟩ := sameButUnused_iff.1 hsame
  have ⟨_, _, _, htree, _⟩ := hinv
  have hag' : AgreesInUse s.useTurn ns := hag.congr htree (sameTree_refl s)
  rw [step_eq_agentStep] at hstep
  obtain ⟨t', ht', hs⟩ := agentStep_withNodes (inv_useTurn hinv) hag' hstep
  exact ⟨t', (step_eq_agentStep _).trans ht', hs, hs.observe⟩

end Sys2Proof.Machine
end

section
/-! The executed word and its instruction: a word that decodes is the word of its instruction (R81–R89).
With it: which commands write FREQ and the result registers (R26–R34), and that EXEC of any word
completes (R44, R45). -/

namespace Sys2Proof.Machine

variable {s t : State}

/-! ### A decoded word is the word of its instruction -/

/-- The row a word matches and the command read from it (R86). -/
theorem row_of_decode {w : Word} {i : Instr} (h : decode w = .ok i) :
    ∃ r ∈ opcodeTable, w &&& r.mask = r.pattern ∧ i = r.mnemonic.withFieldsOf w := by
  unfold decode at h
  split at h
  · next r hr =>
    cases h
    exact ⟨r, List.mem_of_find?_eq_some hr, by simpa [OpRow.hits] using List.find?_some hr, rfl⟩
  · split at h <;> cases h

/-- A word is the bits its mask keeps and the bits it leaves free. -/
theorem or_of_and_eq {w mask pattern free : Word} (h : w &&& mask = pattern)
    (hf : free = w &&& ~~~mask) : pattern ||| free = w := by
  rw [← h, hf, ← BitVec.and_or_distrib_left, BitVec.or_not_self, BitVec.and_allOnes]

/-- The low k bits of a word, as a mask keeps them. -/
theorem setWidth_extract_low (w : Word) (k : Nat) :
    (w.extractLsb' 0 k).setWidth 32 = w &&& (BitVec.allOnes k).setWidth 32 := by
  ext j hj
  simp [hj, Bool.and_comm]

/-- BIT as a word is bit 0 of the command word (R84). -/
theorem bitOf_word (w : Word) : (if bitOf w then 1#32 else 0#32) = w &&& 1#32 := by
  ext j hj
  cases j with
  | zero => cases h : bitOf w <;> simpa [bitOf] using h
  | succ j => cases bitOf w <;> simp [BitVec.getElem_one]

@[simp] theorem mnemonic_withFieldsOf (m : Mnemonic) (w : Word) :
    (m.withFieldsOf w).mnemonic = m := by
  cases m <;> rfl

/-- The operand read from a word is the bits the row's mask leaves free (R81–R84, R89). -/
theorem operandWord_withFieldsOf (w : Word) : ∀ r ∈ opcodeTable,
    (r.mnemonic.withFieldsOf w).operandWord = w &&& ~~~r.mask := by
  have none_free : 0#32 = w &&& ~~~0xFFFFFFFF#32 := by simp
  have sym : (symOf w).setWidth 32 = w &&& ~~~0xFFFFFF00#32 := setWidth_extract_low w 8
  have idx : (idxOf w).setWidth 32 = w &&& ~~~0xFFFFFE00#32 := setWidth_extract_low w 9
  have bit : (if bitOf w then 1#32 else 0#32) = w &&& ~~~0xFFFFFFFE#32 := bitOf_word w
  simp only [opcodeTable, List.forall_mem_cons, List.not_mem_nil, false_imp_iff, implies_true]
  exact ⟨none_free, none_free, none_free, sym, sym, sym, none_free, idx, sym, none_free, bit,
    none_free, trivial⟩

/-- A row's pattern is its OP value in bits [31:24] (R85). -/
theorem pattern_eq : ∀ r ∈ opcodeTable, r.pattern = r.mnemonic.op.setWidth 32 <<< 24 := by
  decide

/-- A word that decodes is the word of its instruction (R85, R86). -/
theorem encode_of_decode {w : Word} {i : Instr} (h : decode w = .ok i) : encode i = w := by
  obtain ⟨r, hr, hmatch, rfl⟩ := row_of_decode h
  unfold encode commandWord
  rw [mnemonic_withFieldsOf, ← pattern_eq r hr]
  exact or_of_and_eq hmatch (operandWord_withFieldsOf w r hr)

/-! ### Which commands write FREQ -/

/-- A command that changes an entry of FREQ is CLEAR_FREQ, or COUNT or SET_FREQ of that byte (R34). -/
theorem Ran.writes_freq {i : Instr} (h : Ran s i t) {b : Byte} (hne : t.freqAt b ≠ s.freqAt b) :
    i = .clearFreq ∨ i = .count b ∨ i = .setFreq b := by
  have set_other : ∀ {sym : Byte} {v : Freq}, (s.setFreqAt sym v).freqAt b ≠ s.freqAt b →
      sym = b := fun h => by
    by_contra hb
    exact h (freqAt_setFreqAt_other s _ (Ne.symm hb))
  cases h with
  | clearFreq => exact .inl rfl
  | count => exact .inr (.inl (congrArg Instr.count (set_other hne)))
  | setFreq => exact .inr (.inr (congrArg Instr.setFreq (set_other hne)))
  | _ => exact absurd rfl hne

/-- A step of the engine that changes an entry of FREQ has executed one of the three commands (R34). -/
theorem engineStep_writes_freq (h : engineStep s = .next t) {b : Byte}
    (hne : t.freqAt b ≠ s.freqAt b) :
    (s.pending = some (encode .clearFreq) ∨ s.pending = some (encode (.count b)) ∨
      s.pending = some (encode (.setFreq b))) ∧ t.pending = none := by
  rcases engineStep_cases h with ⟨-, rfl⟩ | ⟨w, hw, hexec⟩
  · exact absurd rfl hne
  obtain ⟨u, rfl, ⟨i, hd, hran⟩ | ⟨e, -, rfl⟩⟩ := execWord_ran hexec
  · refine ⟨?_, rfl⟩
    rw [hw, ← encode_of_decode hd]
    rcases hran.writes_freq hne with rfl | rfl | rfl <;> simp
  · exact absurd rfl hne

/-- Settles O14: the host writes no entry, and the engine only by the three commands. -/
theorem onlyFrequencyCommandsWriteFreq : Obligations.OnlyFrequencyCommandsWriteFreq := by
  intro s t b hstep hne
  rw [step_eq_agentStep] at hstep
  cases hm : s.mover <;> rw [hm] at hstep
  case host => exact absurd (freqAt_congr (by rw [hostStep_frame hstep]; rfl) b) hne
  case engine => exact .inr (engineStep_writes_freq hstep hne)
  case reset => exact .inl (turns_of_mover_reset hm)

/-! ### Which commands write the result registers -/

/-- Settles O15: on every path of every command the registers not named are as before. -/
theorem resultRegisterWriters : Obligations.ResultRegisterWriters := by
  intro s t i h
  have same : ∀ {α : Type} {a : α} {p : Prop}, a ≠ a → p := fun h => absurd rfl h
  cases ran_iff_exec.2 h with
  | readFreq => exact ⟨rfl, fun _ => .inl ⟨_, rfl⟩, same, same⟩
  | readNode_inUse | readNode_unused =>
    exact ⟨rfl, fun _ => .inr (.inl ⟨_, rfl⟩), fun _ => .inl ⟨_, rfl⟩, same⟩
  | encode => exact ⟨rfl, fun _ => .inr (.inr (.inl ⟨_, rfl⟩)), same, fun _ => ⟨_, rfl, rfl⟩⟩
  | decBit_leaf => exact ⟨rfl, fun _ => .inr (.inr (.inr (.inl ⟨_, rfl, rfl⟩))), same, same⟩
  | decEnd_single | decEnd_atRoot =>
    exact ⟨rfl, fun _ => .inr (.inr (.inr (.inr rfl))), fun _ => .inr rfl, same⟩
  | _ => exact ⟨rfl, same, same, same⟩

/-! ### EXEC of any word -/

/-- EXEC of any word, a command or not, ends without error or with one of the codes 1 to 6, keeps DATA
and touches nothing outside the block (R44, R45, R200). -/
theorem execWord_completes (w : Word) (s : State) :
    ∃ t, execWord w s = .next t ∧ t.pending = none ∧ t.lastErr.toNat ≤ 6 ∧ t.data = s.data ∧
      SameOutside s t := by
  rcases execWord_cases w s with ⟨i, t, -, ht, h⟩ | ⟨e, -, h⟩
  · obtain ⟨t', ht', houtside, -, hdata⟩ := exec_next i s
    cases ht.symm.trans ht'
    have herr : t.lastErr.toNat ≤ 6 := by
      rcases exec_raise_or_ok i s with ⟨e, he⟩ | ⟨u, hu, h0⟩
      · cases ht.symm.trans he; exact code_le_six e
      · cases ht.symm.trans hu; rw [h0]; decide
    exact ⟨_, h, rfl, herr, hdata, houtside⟩
  · exact ⟨_, h, rfl, code_le_six .illegalCmd, rfl, rfl, rfl, rfl, rfl⟩

/-- Settles O9: the engine's step on a pending word is EXEC of it. -/
theorem everyWordCompletes : Obligations.EveryWordCompletes := by
  intro s w hw
  rw [engineStep, hw]
  exact execWord_completes w s

/-- EXEC of a word that decodes is its command, then PENDING <- none (R44). -/
theorem execWord_of_decode {w : Word} {i : Instr} (hd : decode w = .ok i) (s : State) :
    ∃ t, exec i s = .next t ∧ execWord w s = .next { t with pending := none } := by
  obtain ⟨t, ht, -⟩ := exec_next i s
  exact ⟨t, ht, by rw [execWord, hd]; simp only [ht]; rfl⟩

/-- On an engine turn the step is the pending command in the state with the turn used up. -/
theorem step_of_decode {w : Word} {i : Instr} (hw : s.pending = some w) (hd : decode w = .ok i)
    (ht : s.turns = [] ∨ ∃ ts, s.turns = .engine :: ts) :
    ∃ t, exec i s.useTurn = .next t ∧ step s = .next { t with pending := none } := by
  obtain ⟨u, hstep, hx, -⟩ := step_engine_pending hw ht
  obtain ⟨t, ht, hx'⟩ := execWord_of_decode hd s.useTurn
  cases hx.symm.trans hx'
  exact ⟨t, ht, hstep⟩

/-- Settles O8: on an engine turn, of the schedule or after it, the step is the command. -/
theorem stepExecutesPendingCommand : Obligations.StepExecutesPendingCommand := by
  intro s w i hw hd
  refine ⟨fun ts hts => ?_, fun hts => ?_⟩
  · have h := step_of_decode hw hd (.inr ⟨ts, hts⟩)
    rwa [State.useTurn, hts] at h
  · have h := step_of_decode hw hd (.inl hts)
    rwa [State.useTurn, hts, List.tail_nil, ← hts] at h

end Sys2Proof.Machine
end
section
/-! The host's accesses while nothing is pending (R22–R33, R61), and the fields of the registers that
are composed of fields (R24, R27, R30–R32). -/

namespace Sys2Proof.Machine

variable {s : State} {off : Nat} {rest : List HostOp} {ts : List Agent}

/-! ### Accesses on a host turn while idle -/

/-- An aligned 32-bit access inside the window takes effect on the register at its offset (R61). -/
theorem busAccess_register (f : Nat → State → State) (hoff : off < 256) (h4 : off % 4 = 0) :
    busAccess (s.params.base + off) .word f s = .next (f off s) := by
  unfold busAccess
  rw [classify_register s.params hoff h4]

/-- What a register reads as does not depend on the host's program or the schedule. -/
theorem readReg_host_turns (s : State) (off : Nat) (ops : List HostOp) (ts : List Agent) :
    readReg off { s with host := ops, turns := ts } = readReg off s := by
  unfold readReg
  split
  · rfl
  · next r _ => cases r <;> rfl

/-- A read on a host turn while idle adds the value read to the replies and changes nothing else
(R66). -/
theorem step_read_idle (hp : s.pending = none)
    (ht : s.turns = .host :: ts ∨ (s.turns = [] ∧ ts = [])) (hoff : off < 256) (h4 : off % 4 = 0)
    (hhost : s.host = .read (s.params.base + off) .word :: rest) :
    step s = .next { s with
      host := rest, turns := ts, replies := s.replies ++ [.value (readReg off s)] } := by
  have hbusy : s.busy = false := by rw [State.busy, hp]; rfl
  have hdraw : (if s.busy then s.draw + 1 else s.draw) = s.draw := by rw [hbusy]; rfl
  calc step s = hostStep { s with turns := ts } := step_host_idle hp ht
    _ = busAccess (s.params.base + off) .word hostRead { s with host := rest, turns := ts } := by
      unfold hostStep; rw [hhost]
    _ = .next (hostRead off { s with host := rest, turns := ts }) :=
      busAccess_register (s := { s with host := rest, turns := ts }) hostRead hoff h4
    _ = _ := by
      unfold hostRead
      rw [readReg_host_turns]
      show Host.Outcome.next { s with
        host := rest, turns := ts, replies := s.replies ++ [BusReply.value (readReg off s)]
        draw := if s.busy then s.draw + 1 else s.draw } = _
      rw [hdraw]

/-- A write on a host turn while idle has its effect on the register and uses up the turn (R61). -/
theorem step_write_idle {v : Word} (hp : s.pending = none)
    (ht : s.turns = .host :: ts ∨ (s.turns = [] ∧ ts = [])) (hoff : off < 256) (h4 : off % 4 = 0)
    (hhost : s.host = .write (s.params.base + off) .word v :: rest) :
    step s = .next (writeReg off v { s with host := rest, turns := ts }) :=
  calc step s = hostStep { s with turns := ts } := step_host_idle hp ht
    _ = busAccess (s.params.base + off) .word (fun off t => writeReg off v t)
        { s with host := rest, turns := ts } := by
      unfold hostStep; rw [hhost]
    _ = .next (writeReg off v { s with host := rest, turns := ts }) :=
      busAccess_register (s := { s with host := rest, turns := ts }) _ hoff h4

/-- Settles O46: the value read is the register of the offset, or 0 at a reserved one. -/
theorem idleReadsReturnRegisters : Obligations.IdleReadsReturnRegisters := by
  intro s off rest ts hp ht hoff h4 hhost
  have hbusy : s.busy = false := by rw [State.busy, hp]; rfl
  have hreg : ∀ r : Reg, off = regOffset r → readReg off s = s.regWord r := by
    rintro r rfl; exact readReg_idle hbusy r
  exact ⟨readReg off s, step_read_idle hp ht hoff h4 hhost, hreg .id, hreg .params, hreg .cmd,
    hreg .data, hreg .status, hreg .res0, hreg .res1, hreg .tree, hreg .walk,
    fun h => readReg_reserved s (.inl h), fun h => readReg_reserved s (.inr h),
    fun k => hreg (.codewin k)⟩

/-- Settles O48: only CMD and DATA have an effect, and idle means that neither write is dropped. -/
theorem idleWrites : Obligations.IdleWrites := by
  intro s off v rest ts hp ht hoff h4 hhost
  have hbusy : ({ s with host := rest, turns := ts } : State).busy = false := by
    show s.pending.isSome = false
    rw [hp]; rfl
  rw [step_write_idle hp ht hoff h4 hhost]
  refine ⟨?_, ?_, fun hcmd hdata => ?_⟩
  · rintro rfl; rw [writeReg_cmd, hbusy]; rfl
  · rintro rfl; rw [writeReg_data, hbusy]; rfl
  · rw [writeReg_other v _ hcmd hdata]

/-! ### The fields of the composed registers -/

section Fields

variable {n m k l : Nat}

/-- The bits of a composed word above its lowest field are those of the other fields. -/
theorem bit_skip (x : BitVec n) (y : BitVec m) (hm : m ≤ k) (h : k < 32) :
    ((x ++ y).setWidth 32).getLsbD k = (x.setWidth 32).getLsbD (k - m) := by
  have hk : k - m < 32 := by omega
  simp [BitVec.getLsbD_append, h, hk, Nat.not_lt.2 hm]

theorem bit_low (x : BitVec n) (b : Bool) (hk : k = 0) :
    ((x ++ BitVec.ofBool b).setWidth 32).getLsbD k = b := by
  subst hk
  simp [BitVec.getElem_append]

theorem field_skip (x : BitVec n) (y : BitVec m) (hm : m ≤ k) (h : k + l ≤ 32) :
    ((x ++ y).setWidth 32).extractLsb' k l = (x.setWidth 32).extractLsb' (k - m) l := by
  ext j hj
  have hkj : k + j - m = k - m + j := by omega
  rw [BitVec.getElem_extractLsb', BitVec.getElem_extractLsb',
    bit_skip x y (by omega) (by omega), hkj]

theorem field_top (x : BitVec n) (hk : k = 0) (h : n ≤ 32) :
    (x.setWidth 32).extractLsb' k n = x := by
  subst hk
  ext j hj
  have hj' : j < 32 := by omega
  simp [hj, hj']

theorem field_low (x : BitVec n) (y : BitVec m) (hk : k = 0) (h : m ≤ 32) :
    ((x ++ y).setWidth 32).extractLsb' k m = y := by
  subst hk
  ext j hj
  have hj' : j < 32 := by omega
  simp [BitVec.getLsbD_append, hj, hj']

/-- Above its fields a composed word is 0. -/
theorem field_above (x : BitVec n) (h : n ≤ k) : (x.setWidth 32).extractLsb' k l = 0#l := by
  ext j hj
  simp [BitVec.getLsbD_of_ge x (k + j) (by omega)]

end Fields

/-- The fields of STATUS above BUSY (R27). -/
theorem statusWord_fields (s : State) :
    s.statusWord.extractLsb' 1 2 = s.tstate.bits ∧ s.statusWord.getLsbD 3 = s.symValid ∧
      s.statusWord.getLsbD 4 = s.atRoot ∧ s.statusWord.getLsbD 5 = s.errSticky ∧
      s.statusWord.getLsbD 6 = s.ovr ∧ s.statusWord.getLsbD 7 = false ∧
      s.statusWord.extractLsb' 8 8 = s.lastErr ∧ s.statusWord.extractLsb' 16 16 = 0#16 := by
  unfold State.statusWord
  refine ⟨?_, ?_, ?_, ?_, ?_, ?_, ?_, field_above _ (by decide)⟩
  · rw [field_skip _ _ (by decide) (by decide), field_low _ _ (by decide) (by decide)]
  · iterate 2 rw [bit_skip _ _ (by decide) (by decide)]
    exact bit_low _ _ (by decide)
  · iterate 3 rw [bit_skip _ _ (by decide) (by decide)]
    exact bit_low _ _ (by decide)
  · iterate 4 rw [bit_skip _ _ (by decide) (by decide)]
    exact bit_low _ _ (by decide)
  · iterate 5 rw [bit_skip _ _ (by decide) (by decide)]
    exact bit_low _ _ (by decide)
  · iterate 6 rw [bit_skip _ _ (by decide) (by decide)]
    exact bit_low _ false (by decide)
  · iterate 7 rw [field_skip _ _ (by decide) (by decide)]
    exact field_top _ (by decide) (by decide)

/-- The fields of PARAMS (R24). -/
theorem paramsWord_fields (s : State) :
    s.paramsWord.extractLsb' 0 8 = BitVec.ofNat 8 s.params.fw ∧
      s.paramsWord.extractLsb' 8 8 = 255#8 ∧ s.paramsWord.extractLsb' 16 9 = 511#9 ∧
      s.paramsWord.extractLsb' 25 7 = 0#7 := by
  unfold State.paramsWord
  refine ⟨field_low _ _ rfl (by decide), ?_, ?_, field_above _ (by decide)⟩
  · rw [field_skip _ _ (by decide) (by decide)]
    exact field_low _ _ (by decide) (by decide)
  · iterate 2 rw [field_skip _ _ (by decide) (by decide)]
    exact field_top _ (by decide) (by decide)

/-- The fields of TREE (R30). -/
theorem treeWord_fields (s : State) :
    s.treeWord.extractLsb' 0 9 = s.root ∧ s.treeWord.extractLsb' 9 9 = s.ncount ∧
      s.treeWord.extractLsb' 18 9 = s.lcount ∧ s.treeWord.extractLsb' 27 5 = 0#5 := by
  unfold State.treeWord
  refine ⟨field_low _ _ rfl (by decide), ?_, ?_, field_above _ (by decide)⟩
  · rw [field_skip _ _ (by decide) (by decide)]
    exact field_low _ _ (by decide) (by decide)
  · iterate 2 rw [field_skip _ _ (by decide) (by decide)]
    exact field_top _ (by decide) (by decide)

/-- The fields of WALK (R31). -/
theorem walkWord_fields (s : State) :
    s.walkWord.extractLsb' 0 9 = s.walkNode ∧ s.walkWord.extractLsb' 9 8 = s.walkDepth ∧
      s.walkWord.extractLsb' 17 15 = 0#15 := by
  unfold State.walkWord
  refine ⟨field_low _ _ rfl (by decide), ?_, field_above _ (by decide)⟩
  rw [field_skip _ _ (by decide) (by decide)]
  exact field_top _ (by decide) (by decide)

/-- Bit i of the window is bit i mod 32 of its word i / 32 (R32). -/
theorem codewinWord_bit (s : State) {i : Nat} (h : i / 32 < 8) :
    (s.codewinWord ⟨i / 32, h⟩).getLsbD (i % 32) = s.codewin.getLsbD i := by
  have hi : i % 32 < 32 := Nat.mod_lt _ (by decide)
  simp [State.codewinWord, hi, Nat.div_add_mod]

/-- Settles O45: register by register; FW is at most 24 and so is its own 8-bit field. -/
theorem composedRegisterFields : Obligations.ComposedRegisterFields := by
  intro s
  obtain ⟨htstate, hsym, hroot, hsticky, hovr, h7, herr, h16⟩ := statusWord_fields s
  obtain ⟨hfw, hmax, hcap, h25⟩ := paramsWord_fields s
  obtain ⟨hr, hn, hl, h27⟩ := treeWord_fields s
  obtain ⟨hwn, hwd, h17⟩ := walkWord_fields s
  refine ⟨statusWord_bit_zero s, htstate.trans (by cases s.tstate <;> rfl), hsym, hroot, hsticky,
    hovr, h7, herr, h16, fun hp => ⟨?_, ?_, ?_, h25⟩, hr, hn, hl, h27, hwn, hwd, h17,
    fun _ h => codewinWord_bit s h⟩
  · simp only [Params.wf, Bool.and_eq_true, decide_eq_true_eq] at hp
    rw [hfw, BitVec.toNat_ofNat]
    omega
  · rw [hmax]; rfl
  · rw [hcap]; rfl

end Sys2Proof.Machine
end

section
/-! The sums of Merge are exact (R7, R17, R42 (c)): a merge moves the frequencies of two entries of the
working set to their parent, so that the working set always weighs what the leaves do, which is less
than 2^32. -/

namespace Sys2Proof.Machine

variable {leaves ns : List Node} {w : List Nat}

/-- The frequency of a written entry as a number. -/
def freqNat (ns : List Node) (i : Nat) : Nat := (builtNode ns i).freq.toNat

open Classical in
/-- The working set just before entry m is written (R133). -/
noncomputable def liveSet (ns : List Node) (m : Nat) : Finset Nat :=
  (Finset.range m).filter (LiveIn ns m)

theorem mem_liveSet {m j : Nat} : j ∈ liveSet ns m ↔ LiveIn ns m j := by
  simp only [liveSet, Finset.mem_filter, Finset.mem_range]
  exact and_iff_right_of_imp And.left

theorem liveSet_card_le (ns : List Node) (m : Nat) : (liveSet ns m).card ≤ m := by
  classical exact (Finset.card_filter_le _ _).trans_eq (Finset.card_range m)

/-- The sum of the frequencies in the working set just before entry m is written. -/
noncomputable def liveWeight (ns : List Node) (m : Nat) : Nat := ∑ j ∈ liveSet ns m, freqNat ns j

theorem MergedAt.childIn_iff {i j : Nat} (h : MergedAt ns i) :
    ChildIn ns j i ↔ j = (builtNode ns i).left.toNat ∨ j = (builtNode ns i).right.toNat := by
  simp only [ChildIn, h.internal, true_and, eq_comm]

theorem MergedAt.left_ne_right {i : Nat} (h : MergedAt ns i) :
    (builtNode ns i).left.toNat ≠ (builtNode ns i).right.toNat := fun hh => by
  have := h.byte_lt
  rw [hh] at this
  exact Nat.lt_irrefl _ this

/-- A merge takes the two children out of the working set and puts the parent in. -/
theorem MergeState.liveSet_succ (h : MergeState leaves ns w) {m : Nat} (hm : m < ns.length)
    (hat : MergedAt ns m) :
    liveSet ns (m + 1) = insert m
      (((liveSet ns m).erase (builtNode ns m).left.toNat).erase (builtNode ns m).right.toNat) := by
  ext j
  simp only [Finset.mem_insert, Finset.mem_erase, mem_liveSet, LiveIn, Nat.forall_lt_succ_right,
    hat.childIn_iff]
  constructor
  · rintro ⟨hj, hold, hnew⟩
    by_cases hjm : j = m
    · exact .inl hjm
    · exact .inr ⟨fun e => hnew (.inr e), fun e => hnew (.inl e), by omega, hold⟩
  · rintro (rfl | ⟨hr, hl, hj, hold⟩)
    · refine ⟨by omega, fun i hi hc => ?_, fun hc => ?_⟩
      · have := h.child_lt (by omega) hc
        omega
      · have := h.child_lt hm (hat.childIn_iff.2 hc)
        omega
    · exact ⟨by omega, hold, fun hc => hc.elim hl hr⟩

/-- The weight before a merge is the two children's and the rest's, after it the parent's and the
rest's. -/
theorem MergeState.liveWeight_merge (h : MergeState leaves ns w) {m : Nat} (hm : m < ns.length)
    (hat : MergedAt ns m) :
    ∃ rest, liveWeight ns m = freqNat ns (builtNode ns m).left.toNat +
        freqNat ns (builtNode ns m).right.toNat + rest ∧
      liveWeight ns (m + 1) = freqNat ns m + rest := by
  have hl : (builtNode ns m).left.toNat ∈ liveSet ns m := mem_liveSet.2 hat.left_live
  have hr : (builtNode ns m).right.toNat ∈ (liveSet ns m).erase (builtNode ns m).left.toNat :=
    Finset.mem_erase.2 ⟨hat.left_ne_right.symm, mem_liveSet.2 hat.right_live⟩
  have hfresh : m ∉ liveSet ns m := fun hh => Nat.lt_irrefl m (mem_liveSet.1 hh).1
  refine ⟨∑ j ∈ ((liveSet ns m).erase (builtNode ns m).left.toNat).erase
    (builtNode ns m).right.toNat, freqNat ns j, ?_, ?_⟩
  · rw [liveWeight, ← Finset.add_sum_erase _ _ hl, ← Finset.add_sum_erase _ _ hr, Nat.add_assoc]
  · rw [liveWeight, h.liveSet_succ hm hat,
      Finset.sum_insert fun hh => hfresh (Finset.mem_of_mem_erase (Finset.mem_of_mem_erase hh))]

/-- Frequencies whose sum fits 32 bits are added exactly (R17). -/
theorem MergedAt.freqNat_eq {i : Nat} (h : MergedAt ns i)
    (hlt : freqNat ns (builtNode ns i).left.toNat +
      freqNat ns (builtNode ns i).right.toNat < 2 ^ 32) :
    freqNat ns i =
      freqNat ns (builtNode ns i).left.toNat + freqNat ns (builtNode ns i).right.toNat := by
  unfold freqNat at hlt ⊢
  rw [h.freq_eq, BitVec.toNat_add, Nat.mod_eq_of_lt hlt]

/-- At most 256 leaves of 24-bit frequencies weigh less than 2^32, and no merge changes the weight. -/
theorem MergeState.liveWeight_lt (h : MergeState leaves ns w) (hn : leaves.length ≤ 256)
    (hleaf : ∀ i < leaves.length, freqNat ns i < 2 ^ 24) {m : Nat} (hlm : leaves.length ≤ m)
    (hm : m ≤ ns.length) : liveWeight ns m < 2 ^ 32 := by
  induction m, hlm using Nat.le_induction with
  | base =>
    have hcard := liveSet_card_le ns leaves.length
    have hsum : liveWeight ns leaves.length ≤
        (liveSet ns leaves.length).card * (2 ^ 24 - 1) :=
      Finset.sum_le_card_nsmul _ _ _ fun j hj => by
        have := hleaf j (mem_liveSet.1 hj).1
        omega
    have := Nat.mul_le_mul_right (2 ^ 24 - 1) (hcard.trans hn)
    omega
  | succ m hlm ih =>
    have hat := h.merged m hlm (by omega)
    have hw := ih (by omega)
    obtain ⟨rest, hbefore, hafter⟩ := h.liveWeight_merge (by omega) hat
    have hsum := hat.freqNat_eq (by omega)
    omega

/-- The frequency of an internal entry is the exact sum of its children's. -/
theorem MergeState.freqNat_eq (h : MergeState leaves ns w) (hn : leaves.length ≤ 256)
    (hleaf : ∀ i < leaves.length, freqNat ns i < 2 ^ 24) {i : Nat} (hli : leaves.length ≤ i)
    (hi : i < ns.length) :
    freqNat ns i =
      freqNat ns (builtNode ns i).left.toNat + freqNat ns (builtNode ns i).right.toNat := by
  have hat := h.merged i hli hi
  have hw := h.liveWeight_lt hn hleaf hli (Nat.le_of_lt hi)
  obtain ⟨rest, hbefore, -⟩ := h.liveWeight_merge hi hat
  exact hat.freqNat_eq (by omega)

end Sys2Proof.Machine
end
section
/-! The trie invariants of R42 in every state that holds a tree. -/

namespace Sys2Proof.Machine

variable {s : State} {n : Nat} {ns : List Node}

/-! ### The node store as the entries of Merge -/

theorem HoldsTree.lt_ncount_iff (h : HoldsTree s n ns) {i : NodeIdx} :
    i < s.ncount ↔ i.toNat < 2 * n - 1 := by
  rw [BitVec.lt_def, h.ncount]

theorem HoldsTree.lt_lcount_iff (h : HoldsTree s n ns) {i : NodeIdx} :
    i < s.lcount ↔ i.toNat < n := by
  rw [BitVec.lt_def, h.lcount]

theorem HoldsTree.lcount_le_iff (h : HoldsTree s n ns) {i : NodeIdx} :
    s.lcount ≤ i ↔ n ≤ i.toNat := by
  rw [BitVec.le_def, h.lcount]

theorem HoldsTree.mergedAt (h : HoldsTree s n ns) {i : NodeIdx} (hni : n ≤ i.toNat)
    (hi : i.toNat < 2 * n - 1) : MergedAt ns i.toNat :=
  h.merge.merged i.toNat (by rw [h.leaves]; exact hni) (by rw [h.length]; exact hi)

theorem HoldsTree.isChildOf_iff (h : HoldsTree s n ns) {i j : NodeIdx} (hi : i.toNat < 2 * n - 1) :
    s.isChildOf j i ↔ ChildIn ns j.toNat i.toNat := by
  simp only [State.isChildOf, ChildIn, h.nodeAt hi, BitVec.toNat_inj]

theorem HoldsTree.presentBytes_length (h : HoldsTree s n ns) : (presentBytes s.freq).length = n := by
  rw [← leafNodes_length, h.leaves]

/-- Entry k below LCOUNT is the leaf of the k-th present byte (R130). -/
theorem HoldsTree.nodeAt_leaf (h : HoldsTree s n ns) {i : NodeIdx} (hi : i.toNat < n) :
    s.nodeAt i =
      leafNode ((presentBytes s.freq)[i.toNat]'(h.presentBytes_length.symm ▸ hi))
        (s.freqAt ((presentBytes s.freq)[i.toNat]'(h.presentBytes_length.symm ▸ hi))) := by
  have hone : 1 ≤ (leafNodes s.freq).length := by rw [h.leaves]; exact h.one_le
  have hns : ns = (mergeAll (leafNodes s.freq)).1 := h.entries.symm.trans (buildTree_merge hone).1
  have hlt : i.toNat < (presentBytes s.freq).length := h.presentBytes_length.symm ▸ hi
  calc s.nodeAt i = builtNode ns i.toNat := h.nodeAt (by omega)
    _ = builtNode (mergeAll (leafNodes s.freq)).1 i.toNat := by rw [hns]
    _ = _ := builtNode_mergeAll hone hlt

theorem HoldsTree.leaf_freqNat_lt (h : HoldsTree s n ns) :
    ∀ i < (leafNodes s.freq).length, freqNat ns i < 2 ^ 24 := by
  intro i hi
  have hone : 1 ≤ (leafNodes s.freq).length := by omega
  rw [freqNat, ← h.entries, (buildTree_merge hone).1,
    builtNode_mergeAll hone (by rwa [← leafNodes_length])]
  simp only [leafNode, BitVec.toNat_setWidth]
  exact Nat.lt_of_le_of_lt (Nat.mod_le _ _) (BitVec.isLt _)

/-! ### R42 (a) to (f) -/

theorem HoldsTree.leavesFirst (h : HoldsTree s n ns) : LeavesFirst s := by
  refine ⟨fun i hi => ?_, fun i j hij hj => ?_⟩
  · rw [h.internal_iff (h.lt_ncount_iff.1 hi), h.lcount_le_iff]
  · rw [h.lt_lcount_iff] at hj
    rw [BitVec.lt_def] at hij
    rw [h.nodeAt_leaf hj, h.nodeAt_leaf (Nat.lt_trans hij hj), BitVec.lt_def]
    exact presentBytes_getElem_lt s.freq hij (h.presentBytes_length.symm ▸ hj)

theorem HoldsTree.leavesMatchFreq (h : HoldsTree s n ns) : LeavesMatchFreq s := by
  refine ⟨fun i hi => ?_, fun b hb => ?_⟩
  · rw [h.nodeAt_leaf (h.lt_lcount_iff.1 hi)]
    exact ⟨mem_presentBytes.1 (List.getElem_mem _), rfl⟩
  · obtain ⟨k, hk, hkb⟩ := List.getElem_of_mem (mem_presentBytes.2 hb)
    have hkn : k < n := h.presentBytes_length ▸ hk
    have hle := h.le
    have hi : (BitVec.ofNat 9 k).toNat = k := by rw [BitVec.toNat_ofNat]; omega
    refine ⟨BitVec.ofNat 9 k, h.lt_lcount_iff.2 (by rwa [hi]), ?_⟩
    rw [h.nodeAt_leaf (by rwa [hi]), ← hkb]
    simp only [leafNode, hi]

/-- The children of an internal entry in use are the entries its merge took. -/
theorem HoldsTree.nodeAt_children (h : HoldsTree s n ns) {i : NodeIdx} (hni : n ≤ i.toNat)
    (hi : i.toNat < 2 * n - 1) :
    s.nodeAt i = builtNode ns i.toNat ∧
      s.nodeAt (s.nodeAt i).left = builtNode ns (builtNode ns i.toNat).left.toNat ∧
      s.nodeAt (s.nodeAt i).right = builtNode ns (builtNode ns i.toNat).right.toNat := by
  have hat := h.mergedAt hni hi
  have hl := hat.left_live.1
  have hr := hat.right_live.1
  rw [h.nodeAt hi]
  exact ⟨rfl, h.nodeAt (by omega), h.nodeAt (by omega)⟩

theorem HoldsTree.sumsExact (h : HoldsTree s n ns) : SumsExact s := by
  intro i hni hi
  rw [h.lcount_le_iff] at hni
  rw [h.lt_ncount_iff] at hi
  have hat := h.mergedAt hni hi
  obtain ⟨hnode, hleft, hright⟩ := h.nodeAt_children hni hi
  rw [hleft, hright, hnode]
  refine ⟨hat.left_live.1, hat.right_live.1, fun he => hat.left_ne_right (congrArg _ he), ?_⟩
  exact h.merge.freqNat_eq (by rw [h.leaves]; exact h.le) h.leaf_freqNat_lt
    (by rw [h.leaves]; exact hni) (by rw [h.length]; exact hi)

theorem HoldsTree.bytesOrdered (h : HoldsTree s n ns) : BytesOrdered s := by
  intro i hni hi
  rw [h.lcount_le_iff] at hni
  rw [h.lt_ncount_iff] at hi
  have hat := h.mergedAt hni hi
  obtain ⟨hnode, hleft, hright⟩ := h.nodeAt_children hni hi
  rw [hleft, hright, hnode]
  exact ⟨hat.byte_eq, hat.byte_lt⟩

theorem HoldsTree.parentsUnique (h : HoldsTree s n ns) : ParentsUnique s := by
  have hlen := h.length
  have live_iff : ∀ j, LiveIn ns ns.length j ↔ j = 2 * n - 2 := fun j => by
    rw [← h.merge.live j, List.mem_singleton]
  refine ⟨fun j hj hroot => ?_, fun i hi hc => ?_⟩
  · rw [h.lt_ncount_iff] at hj
    have hne : j.toNat ≠ 2 * n - 2 := fun he =>
      hroot (BitVec.eq_of_toNat_eq (he.trans h.root.symm))
    have hparent : ∃ i < ns.length, ChildIn ns j.toNat i := by
      by_contra hno
      exact hne ((live_iff _).1 ⟨by omega, fun i hi hc => hno ⟨i, hi, hc⟩⟩)
    obtain ⟨k, hk, hc⟩ := hparent
    have hle := h.le
    have hk9 : (BitVec.ofNat 9 k).toNat = k := by rw [BitVec.toNat_ofNat]; omega
    refine ⟨BitVec.ofNat 9 k, ⟨h.lt_ncount_iff.2 (by omega), ?_⟩, ?_⟩
    · rw [h.isChildOf_iff (by omega), hk9]
      exact hc
    · rintro i ⟨hi, hci⟩
      rw [h.lt_ncount_iff] at hi
      rw [h.isChildOf_iff hi] at hci
      exact BitVec.eq_of_toNat_eq ((h.merge.parent _ _ _ (by omega) hk hci hc).trans hk9.symm)
  · rw [h.lt_ncount_iff] at hi
    rw [h.isChildOf_iff hi, h.root] at hc
    exact ((live_iff _).2 rfl).2 i.toNat (by omega) hc

/-- BUILD on the same FREQ gives the same tree: registers, codes and entries in use (R42 (f)). -/
theorem TreeMatchesFreq.rebuild (h : TreeMatchesFreq s)
    (ht : s.tstate = .single ∨ s.tstate = .multi) :
    ∃ t, exec .build s = .next t ∧ t.tstate = s.tstate ∧ t.root = s.root ∧
      t.ncount = s.ncount ∧ t.lcount = s.lcount ∧ t.codes = s.codes ∧
      ∀ i, s.inUse i = true → s.nodeAt i = t.nodeAt i := by
  obtain ⟨hts, hroot, hncount, hlcount, hcodes, hnode⟩ := h.built (ne_none_of_tree ht)
  have hT := h.holdsTree ht
  refine ⟨_, exec_build s, hts.symm, hroot.symm, hncount.symm, hlcount.symm, hcodes.symm,
    fun i hi => ?_⟩
  have hlt := hT.inUse.1 hi
  rw [hnode i hi]
  exact (nodeAt_loadTree _ s i (h.inUse_lt hi) (by rw [hT.length]; exact hlt)).symm

/-- Settles O32: the tree in the store is the one Merge writes, of which (a) to (e) are facts. -/
theorem trieInvariantsHold : Obligations.TrieInvariantsHold := by
  rintro s ⟨-, -, -, htree, hwalk⟩ ht
  have hT := htree.holdsTree ht
  refine ⟨hT.leavesFirst, hT.leavesMatchFreq, hT.sumsExact, hT.bytesOrdered, hT.parentsUnique,
    htree.rebuild ht, fun hm => ?_⟩
  unfold WalkOk at hwalk
  rwa [if_pos hm] at hwalk

end Sys2Proof.Machine
end

section
/-! The host's accesses that reach no register (R10, R62, R63, R67) and the byte lanes of a word
(R64). -/

namespace Sys2Proof.Machine

variable {s : State} {addr off : Nat} {width : AccessWidth} {v : Word} {rest : List HostOp}
  {ts : List Agent}

/-! ### Accesses that reach no register -/

/-- Outside the window an access is refused, whatever it would do to a register (R67). -/
theorem busAccess_outside (f : Nat → State → State)
    (h : addr < s.params.base ∨ s.params.base + 256 ≤ addr) :
    busAccess addr width f s = .refused .outsideWindow := by
  unfold busAccess
  rw [classify_outside s.params width h]

/-- Inside the window an access that is not an aligned 32-bit one has no step under REFUSE (R10). -/
theorem busAccess_unsupported_refuse (f : Nat → State → State) (hoff : off < 256)
    (hu : width ≠ .word ∨ off % 4 ≠ 0) (hb : s.params.busSubword = .refuse) :
    busAccess (s.params.base + off) width f s = .refused .unsupportedAccess := by
  unfold busAccess
  rw [classify_unsupported s.params hoff hu, hb]

/-- Under BUS_ERROR such an access adds the bus error to the replies and changes nothing else (R10,
R62). -/
theorem busAccess_unsupported_busError (f : Nat → State → State) (hoff : off < 256)
    (hu : width ≠ .word ∨ off % 4 ≠ 0) (hb : s.params.busSubword = .busError) :
    busAccess (s.params.base + off) width f s =
      .next { s with replies := s.replies ++ [.busError] } := by
  unfold busAccess
  rw [classify_unsupported s.params hoff hu, hb]

/-- On a host turn a read and a write are both an access, each with its own effect on a register. -/
theorem step_access (ht : s.turns = .host :: ts)
    (hhost : s.host = .read addr width :: rest ∨ s.host = .write addr width v :: rest) :
    ∃ f, step s = busAccess addr width f { s with host := rest, turns := ts } := by
  have hstep : step s = hostStep { s with turns := ts } := by simp only [step, ht]
  rcases hhost with hhost | hhost
  · exact ⟨hostRead, by rw [hstep]; unfold hostStep; rw [hhost]⟩
  · exact ⟨fun off t => writeReg off v t, by rw [hstep]; unfold hostStep; rw [hhost]⟩

/-- Settles O51: the step is the access, whose first address is outside the window. -/
theorem accessOutsideWindowRefused : Obligations.AccessOutsideWindowRefused := by
  intro s addr width v rest ts ht hout hhost
  obtain ⟨f, hstep⟩ := step_access ht hhost
  exact hstep.trans (busAccess_outside f hout)

/-- Settles O50: the step is the access, which BUS_SUBWORD refuses or answers with a bus error. -/
theorem unsupportedAccesses : Obligations.UnsupportedAccesses := by
  intro s off width v rest ts ht hoff hu hhost
  obtain ⟨f, hstep⟩ := step_access ht hhost
  rw [hstep]
  exact ⟨busAccess_unsupported_refuse (s := { s with host := rest, turns := ts }) f hoff hu,
    busAccess_unsupported_busError (s := { s with host := rest, turns := ts }) f hoff hu⟩

/-! ### Byte lanes -/

/-- The lanes of a word, put together again, are the word: each lane starts where the one below it
ends. -/
theorem wordOfLanes_laneByte (w : Word) :
    wordOfLanes (laneByte w 0) (laneByte w 1) (laneByte w 2) (laneByte w 3) = w := by
  unfold wordOfLanes laneByte
  calc w.extractLsb' 24 8 ++ w.extractLsb' 16 8 ++ w.extractLsb' 8 8 ++ w.extractLsb' 0 8
      = w.extractLsb' 16 16 ++ w.extractLsb' 8 8 ++ w.extractLsb' 0 8 := by
        rw [BitVec.extractLsb'_append_extractLsb'_eq_extractLsb' (rfl : 24 = 16 + 8)]
    _ = w.extractLsb' 8 24 ++ w.extractLsb' 0 8 := by
        rw [BitVec.extractLsb'_append_extractLsb'_eq_extractLsb' (rfl : 16 = 8 + 8)]
    _ = w.extractLsb' 0 32 := BitVec.extractLsb'_append_extractLsb'_eq_extractLsb' rfl
    _ = w := BitVec.extractLsb'_eq_self

/-- As a number the low part of an appended word counts once and the high part 2^m times. -/
theorem toNat_append_eq_mul_add {n m : Nat} (x : BitVec n) (y : BitVec m) :
    (x ++ y).toNat = 2 ^ m * x.toNat + y.toNat := by
  rw [BitVec.toNat_append, ← Nat.shiftLeft_add_eq_or_of_lt y.isLt, Nat.shiftLeft_eq, Nat.mul_comm]

/-- The word of four bytes counts the byte at offset+k 256^k times. -/
theorem toNat_wordOfLanes (b0 b1 b2 b3 : Byte) :
    (wordOfLanes b0 b1 b2 b3).toNat =
      b0.toNat + 256 * b1.toNat + 65536 * b2.toNat + 16777216 * b3.toNat := by
  unfold wordOfLanes
  simp only [toNat_append_eq_mul_add]
  omega

/-- Settles O52: the lanes are the consecutive bytes of the word, lane 0 the least significant. -/
theorem lanesAreLittleEndian : Obligations.LanesAreLittleEndian :=
  fun w => ⟨(wordOfLanes_laneByte w).symm, rfl, rfl, toNat_wordOfLanes⟩

end Sys2Proof.Machine
end

section
/-! The decoder and the encoder (R80–R90): the rows of the opcode map are told apart by OP, so that
a word is one command or illegal for one of two reasons; and a command word gives back the operand
put into it. -/

namespace Sys2Proof

open Machine

variable {w x : Word} {r q : OpRow}

/-! ### The rows of the opcode map (R85, R86) -/

/-- Every mnemonic has a row (R85). -/
theorem exists_row (m : Mnemonic) : ∃ r ∈ opcodeTable, r.mnemonic = m := by
  cases m <;> decide

/-- Every mask covers bits [31:24] (R86). -/
theorem opOf_mask : ∀ r ∈ opcodeTable, opOf r.mask = 0xFF#8 := by decide

/-- A mask keeps its row's pattern. -/
theorem pattern_and_mask : ∀ r ∈ opcodeTable, r.pattern &&& r.mask = r.pattern := by decide

/-- A row is known by its OP value (R86). -/
theorem row_eq_of_opOf_eq :
    ∀ r ∈ opcodeTable, ∀ q ∈ opcodeTable, opOf r.pattern = opOf q.pattern → r = q := by
  decide

/-- A word has the OP value of every row it matches, as the mask covers bits [31:24]. -/
theorem opOf_eq_of_match (hr : r ∈ opcodeTable) (h : w &&& r.mask = r.pattern) :
    opOf r.pattern = opOf w :=
  calc opOf r.pattern = opOf (w &&& r.mask) := by rw [h]
    _ = opOf w &&& opOf r.mask := BitVec.extractLsb'_and
    _ = opOf w := by rw [opOf_mask r hr]; exact BitVec.and_allOnes

/-- No word matches two rows (R86). -/
theorem row_unique (hr : r ∈ opcodeTable) (hq : q ∈ opcodeTable) (h : w &&& r.mask = r.pattern)
    (h' : w &&& q.mask = q.pattern) : r = q :=
  row_eq_of_opOf_eq r hr q hq ((opOf_eq_of_match hr h).trans (opOf_eq_of_match hq h').symm)

/-! ### What decoding answers (R86, R87) -/

theorem hits_iff : r.hits w = true ↔ w &&& r.mask = r.pattern := beq_iff_eq

/-- A word that matches a row is that row's command (R86). -/
theorem decode_of_match (hr : r ∈ opcodeTable) (h : w &&& r.mask = r.pattern) :
    decode w = .ok (r.mnemonic.withFieldsOf w) := by
  unfold decode
  split
  · next q hq =>
    rw [row_unique hr (List.mem_of_find?_eq_some hq) h (hits_iff.1 (List.find?_some hq :))]
  · next hnone => exact absurd (hits_iff.2 h) (List.find?_eq_none.1 hnone r hr)

/-- A word that matches no row is illegal, and its OP tells of which kind (R87). -/
theorem decode_of_no_match (h : ∀ r ∈ opcodeTable, w &&& r.mask ≠ r.pattern) :
    decode w =
      if ∃ r ∈ opcodeTable, opOf r.pattern = opOf w then .error .reservedBit
      else .error .unassignedOp := by
  have hnone : opcodeTable.find? (·.hits w) = none :=
    List.find?_eq_none.2 fun r hr hhit => h r hr (hits_iff.1 hhit)
  unfold decode
  simp only [hnone, List.any_eq_true, beq_iff_eq]

/-- The three cases of a word: it matches a row, or only its OP is a row's, or not even that. -/
theorem decode_cases (w : Word) :
    (∃ r ∈ opcodeTable, w &&& r.mask = r.pattern ∧ decode w = .ok (r.mnemonic.withFieldsOf w)) ∨
      ((∃ r ∈ opcodeTable, opOf r.pattern = opOf w ∧ w &&& r.mask ≠ r.pattern) ∧
        decode w = .error .reservedBit) ∨
      ((∀ r ∈ opcodeTable, opOf r.pattern ≠ opOf w) ∧ decode w = .error .unassignedOp) := by
  by_cases hm : ∃ r ∈ opcodeTable, w &&& r.mask = r.pattern
  · obtain ⟨r, hr, h⟩ := hm
    exact .inl ⟨r, hr, h, decode_of_match hr h⟩
  push Not at hm
  refine .inr ?_
  rw [decode_of_no_match hm]
  by_cases hop : ∃ r ∈ opcodeTable, opOf r.pattern = opOf w
  · obtain ⟨r, hr, h⟩ := hop
    exact .inl ⟨⟨r, hr, h, hm r hr⟩, if_pos ⟨r, hr, h⟩⟩
  · exact .inr ⟨by push Not at hop; exact hop, if_neg hop⟩

/-- Kind (a) of R87: the word's OP is no row's. -/
theorem decode_unassignedOp_iff :
    decode w = .error .unassignedOp ↔ ∀ r ∈ opcodeTable, opOf r.pattern ≠ opOf w := by
  rcases decode_cases w with ⟨r, hr, h, hd⟩ | ⟨⟨r, hr, h, -⟩, hd⟩ | ⟨h, hd⟩
  · simpa [hd] using ⟨r, hr, opOf_eq_of_match hr h⟩
  · simpa [hd] using ⟨r, hr, h⟩
  · simpa [hd] using h

/-- Kind (b) of R87: the word's OP is a row's, but the word does not match that row. -/
theorem decode_reservedBit_iff :
    decode w = .error .reservedBit ↔
      ∃ r ∈ opcodeTable, opOf r.pattern = opOf w ∧ w &&& r.mask ≠ r.pattern := by
  rcases decode_cases w with ⟨r, hr, h, hd⟩ | ⟨hex, hd⟩ | ⟨h, hd⟩
  · rw [hd]
    refine ⟨nofun, fun ⟨q, hq, hop, hne⟩ => ?_⟩
    have hqr := row_eq_of_opOf_eq q hq r hr (hop.trans (opOf_eq_of_match hr h).symm)
    exact absurd h (hqr ▸ hne)
  · exact ⟨fun _ => hex, fun _ => hd⟩
  · rw [hd]
    exact ⟨nofun, fun ⟨q, hq, hop, _⟩ => absurd hop (h q hq)⟩

/-- The OP values of no row, as R87 lists them. -/
theorem unassigned_op_iff (op : BitVec 8) :
    (∀ r ∈ opcodeTable, opOf r.pattern ≠ op) ↔
      (0x02 ≤ op.toNat ∧ op.toNat ≤ 0x0F) ∨ (0x14 ≤ op.toNat ∧ op.toNat ≤ 0x1F) ∨
      (0x22 ≤ op.toNat ∧ op.toNat ≤ 0x2F) ∨ (0x31 ≤ op.toNat ∧ op.toNat ≤ 0x3F) ∨
      (0x43 ≤ op.toNat ∧ op.toNat ≤ 0xFF) := by
  have hops : opcodeTable.map (fun r => (opOf r.pattern).toNat) =
      [0x00, 0x01, 0x10, 0x11, 0x12, 0x13, 0x20, 0x21, 0x30, 0x40, 0x41, 0x42] := rfl
  have hmem : (∀ r ∈ opcodeTable, opOf r.pattern ≠ op) ↔
      op.toNat ∉ opcodeTable.map (fun r => (opOf r.pattern).toNat) := by
    simp [BitVec.toNat_inj]
  have hlt := op.isLt
  rw [hmem, hops]
  simp only [List.mem_cons, List.not_mem_nil, or_false, not_or]
  omega

/-! ### The operand of a command word (R81–R84, R89, R90) -/

/-- Bits below the OP field of a command word are the operand's. -/
theorem extract_low_commandWord (op : BitVec 8) (x : Word) {k : Nat} (hk : k ≤ 24) :
    (commandWord op x).extractLsb' 0 k = x.extractLsb' 0 k := by
  ext j hj
  have : j < 24 := by omega
  simp [commandWord, this]

/-- The operand read from a command word is the one read from its operand part (R89). -/
theorem withFieldsOf_commandWord (m : Mnemonic) (op : BitVec 8) (x : Word) :
    m.withFieldsOf (commandWord op x) = m.withFieldsOf x := by
  have hsym : symOf (commandWord op x) = symOf x := extract_low_commandWord op x (by decide)
  have hidx : idxOf (commandWord op x) = idxOf x := extract_low_commandWord op x (by decide)
  have hbit : bitOf (commandWord op x) = bitOf x := by simp [bitOf, commandWord]
  unfold Mnemonic.withFieldsOf
  rw [hsym, hidx, hbit]

/-- An instruction is read back from its operand, as the field is as wide as that (R81–R84). -/
theorem withFieldsOf_operandWord (i : Instr) : i.mnemonic.withFieldsOf i.operandWord = i := by
  have low : ∀ {k : Nat} (v : BitVec k), k ≤ 32 → (v.setWidth 32).extractLsb' 0 k = v := by
    intro k v hk
    rw [← BitVec.setWidth_eq_extractLsb' (by omega), BitVec.setWidth_setWidth_of_le v hk,
      BitVec.setWidth_eq]
  cases i with
  | count sym => exact congrArg Instr.count (low sym (by decide))
  | setFreq sym => exact congrArg Instr.setFreq (low sym (by decide))
  | readFreq sym => exact congrArg Instr.readFreq (low sym (by decide))
  | encode sym => exact congrArg Instr.encode (low sym (by decide))
  | readNode idx => exact congrArg Instr.readNode (low idx (by decide))
  | decBit bit => cases bit <;> rfl
  | _ => rfl

/-- A command word whose operand has only bits that the row leaves free matches the row. -/
theorem commandWord_match (hr : r ∈ opcodeTable) (hx : x = x &&& ~~~r.mask) :
    commandWord r.mnemonic.op x &&& r.mask = r.pattern := by
  have hfree : x &&& r.mask = 0#32 := by
    rw [hx, BitVec.and_assoc, BitVec.and_comm (~~~r.mask), BitVec.and_not_self]
    exact BitVec.and_zero
  unfold commandWord
  rw [← pattern_eq r hr, BitVec.and_or_distrib_right, pattern_and_mask r hr, hfree, BitVec.or_zero]

/-- Settles O1: the word matches the row of the instruction's mnemonic, and the operand is read back
from its field. -/
theorem decodeEncodeRoundTrip : Obligations.DecodeEncodeRoundTrip := by
  intro i
  obtain ⟨r, hr, hm⟩ := exists_row i.mnemonic
  have hi : r.mnemonic.withFieldsOf i.operandWord = i := by rw [hm, withFieldsOf_operandWord]
  have hfree := operandWord_withFieldsOf i.operandWord r hr
  rw [hi] at hfree
  calc decode (encode i) = decode (commandWord r.mnemonic.op i.operandWord) := by rw [hm]; rfl
    _ = .ok (r.mnemonic.withFieldsOf (commandWord r.mnemonic.op i.operandWord)) :=
      decode_of_match hr (commandWord_match hr hfree)
    _ = .ok i := by rw [withFieldsOf_commandWord, hi]

/-- Settles O2: the word is its row's pattern with the operand in the bits the mask leaves free. -/
theorem encodeDecodeRoundTrip : Obligations.EncodeDecodeRoundTrip :=
  fun _ _ h => encode_of_decode h

/-- Settles O3: the masks cover the OP field, in which the rows differ. -/
theorem decodingTotalAndUnambiguous : Obligations.DecodingTotalAndUnambiguous := by
  refine ⟨rfl, by decide, opOf_mask, fun w r hr q hq => row_unique hr hq, fun w r hr h => ?_,
    fun w h => ?_⟩
  · exact ⟨_, decode_of_match hr h, mnemonic_withFieldsOf _ w⟩
  · rw [decode_of_no_match h]
    split
    · exact ⟨_, rfl⟩
    · exact ⟨_, rfl⟩

/-- EXEC of an illegal word is error entry with ILLEGAL_CMD and nothing else (R87, R201). -/
theorem engineStep_illegal {s : State} {e : IllegalWord} (hd : decode w = .error e)
    (hp : s.pending = some w) : engineStep s = .next (clearPending (raise .illegalCmd s)) := by
  rw [engineStep, hp]
  simp only [execWord, hd]
  rfl

/-- Settles O4: the kinds are the two cases of the decoder without a matching row. -/
theorem illegalWordsRaiseIllegalCmd : Obligations.IllegalWordsRaiseIllegalCmd := by
  refine ⟨fun w => ?_, fun w => ?_, rfl, rfl, rfl, fun s w e => engineStep_illegal⟩
  · rw [decode_unassignedOp_iff, unassigned_op_iff]
  · simp only [decode_reservedBit_iff, eq_comm (a := opOf w)]

/-- Below its OP field an encoded instruction is its operand (R81–R84). -/
theorem toNat_encode_mod (i : Instr) {k : Nat} (hk : k ≤ 24) :
    (encode i).toNat % 2 ^ k = i.operandWord.toNat % 2 ^ k := by
  simpa [encode] using
    congrArg BitVec.toNat (extract_low_commandWord i.mnemonic.op i.operandWord hk)

/-- Settles O5: the word is the one of its instruction, whose low bits are the operand. -/
theorem operandsAreTheirFields : Obligations.OperandsAreTheirFields := by
  intro w i h
  obtain rfl := encode_of_decode h
  have field : ∀ {k : Nat} (v : BitVec k), k ≤ 24 → i.operandWord = v.setWidth 32 →
      v.toNat = (encode i).toNat % 2 ^ k := fun v hk hv => by
    rw [toNat_encode_mod i hk, hv, ← BitVec.toNat_setWidth,
      BitVec.setWidth_setWidth_of_le v (by omega), BitVec.setWidth_eq]
  cases i with
  | count sym | setFreq sym | readFreq sym | encode sym => exact field sym (by decide) rfl
  | readNode idx => exact field idx (by decide) rfl
  | decBit bit => cases bit <;> rfl
  | _ => rfl

/-! ### The assembler (R90) -/

/-- The width in bits of the operand field of a format (R81–R84). -/
def Format.operandWidth : Format → Nat
  | .N => 0
  | .B => 8
  | .I => 9
  | .T => 1

/-- A row leaves free the bits of its format's operand field (R81–R85). -/
theorem not_mask_eq : ∀ r ∈ opcodeTable,
    ~~~r.mask = (BitVec.allOnes r.mnemonic.format.operandWidth).setWidth 32 := by
  decide

/-- The values an operand may take are those its field holds (R82–R84). -/
theorem operandBound_eq {f : Format} (h : f ≠ .N) : f.operandBound = 2 ^ f.operandWidth := by
  cases f with
  | N => exact absurd rfl h
  | _ => rfl

/-- The operand of a well-formed command fits its field, and a missing one counts as 0 (R90). -/
theorem operand_lt_of_wf {c : SourceCommand} (h : c.wf = true) :
    (c.operand.map Operand.value).getD 0 < 2 ^ c.mnemonic.format.operandWidth := by
  unfold SourceCommand.wf at h
  split at h
  · next hnone => rw [hnone]; exact Nat.two_pow_pos _
  · next x hsome =>
    obtain ⟨hformat, hlt⟩ : c.mnemonic.format ≠ .N ∧ x.value < c.mnemonic.format.operandBound := by
      simpa using h
    rwa [hsome, ← operandBound_eq hformat]

/-- A number that fits an operand field fits the word (R81–R84). -/
theorem toNat_ofNat_of_lt_field {f : Format} {n : Nat} (h : n < 2 ^ f.operandWidth) :
    (BitVec.ofNat 32 n).toNat = n :=
  Nat.mod_eq_of_lt (h.trans_le (Nat.pow_le_pow_right (by decide) (by cases f <;> decide)))

/-- A number that fits the operand field of a command is read from it whole (R89). -/
theorem operandWord_ofNat (m : Mnemonic) {n : Nat} (hn : n < 2 ^ m.format.operandWidth) :
    (m.withFieldsOf (BitVec.ofNat 32 n)).operandWord = BitVec.ofNat 32 n := by
  obtain ⟨r, hr, rfl⟩ := exists_row m
  rw [operandWord_withFieldsOf _ r hr, not_mask_eq r hr, ← setWidth_extract_low]
  apply BitVec.eq_of_toNat_eq
  rw [BitVec.toNat_setWidth, BitVec.extractLsb'_toNat, Nat.shiftRight_zero,
    toNat_ofNat_of_lt_field hn, Nat.mod_eq_of_lt hn]
  exact toNat_ofNat_of_lt_field hn

/-- Settles O7: the operand fits its field, so the assembled word is the word of an instruction. -/
theorem assemblerNeverTruncates : Obligations.AssemblerNeverTruncates := by
  refine ⟨fun c h => if_neg (by rw [h]; decide), fun c h => ?_⟩
  have hlt := operand_lt_of_wf h
  generalize hn : (c.operand.map Operand.value).getD 0 = n at hlt ⊢
  let i := c.mnemonic.withFieldsOf (BitVec.ofNat 32 n)
  have hi : i.mnemonic = c.mnemonic := mnemonic_withFieldsOf _ _
  have hop : i.operandWord = BitVec.ofNat 32 n := operandWord_ofNat c.mnemonic hlt
  have hasm : assemble c = some (encode i) := by
    rw [assemble, if_pos h, hn, encode, hi, hop]
  exact ⟨encode i, i, hasm, decodeEncodeRoundTrip i, hi, by
    rw [hop, toNat_ofNat_of_lt_field hlt]⟩

/-- Settles O6: each word evaluates to its command. -/
theorem specWordsDecode : Obligations.SpecWordsDecode :=
  ⟨rfl, rfl, rfl, rfl, rfl, rfl, rfl, rfl, rfl, rfl, rfl, rfl⟩

end Sys2Proof
end

section
/-! `CMDW cmd` on an idle block (R92): the write to CMD, EXEC and the poll, one step each. -/

namespace Sys2Proof.Machine

variable {s t : State} {i : Instr} {ops rest : List HostOp}

/-! ### Commands do not look at the host's program -/

/-- The state with another host program. -/
def State.withHost (s : State) (ops : List HostOp) : State := { s with host := ops }

theorem Raises.withHost {e : ErrCode} (h : Raises s i e) (ops : List HostOp) :
    Raises (s.withHost ops) i e := by
  cases h with
  | count_full h => exact .count_full h
  | setFreq_large h => exact .setFreq_large h
  | notBuilt h hi => exact .notBuilt h hi
  | unusedSymbol h hu => exact .unusedSymbol h hu
  | degenerateBit h => exact .degenerateBit h
  | truncatedCode h hd => exact .truncatedCode h hd

/-- A command takes the same path whatever the host has left to do, and leaves that as it is. -/
theorem Ran.withHost (h : Ran s i t) (ops : List HostOp) :
    Ran (s.withHost ops) i (t.withHost ops) := by
  cases h with
  | raised h => exact .raised (h.withHost ops)
  | nop => exact .nop
  | clrErr => exact .clrErr
  | clearFreq => exact .clearFreq
  | count h => exact .count h
  | setFreq h => exact .setFreq h
  | readFreq => exact .readFreq
  | build => exact .build
  | readNode_inUse h => exact .readNode_inUse h
  | readNode_unused h => exact .readNode_unused h
  | encode h hu => exact .encode h hu
  | decReset h => exact .decReset h
  | decBit_empty h => exact .decBit_empty h
  | decBit_internal h hc => exact .decBit_internal h hc
  | decBit_leaf h hc => exact .decBit_leaf h hc
  | decEnd_single h => exact .decEnd_single h
  | decEnd_atRoot h => exact .decEnd_atRoot h

theorem exec_withHost (h : exec i s = .next t) (ops : List HostOp) :
    exec i (s.withHost ops) = .next (t.withHost ops) :=
  exec_of_ran ((ran_iff_exec.2 h).withHost ops)

/-! ### The three steps of CMDW -/

/-- With the schedule used up, a write to CMD on an idle block makes the word pending (R25, R40). -/
theorem step_write_cmd_idle {v : Word} (hp : s.pending = none) (ht : s.turns = [])
    (hhost : s.host = wr s.params .cmd v :: rest) :
    step s = .next { s with host := rest, pending := some v } := by
  rw [step_write_idle (off := 0x08) hp (.inr ⟨ht, rfl⟩) (by decide) (by decide) hhost, writeReg_cmd]
  simp only [State.busy, hp, Option.isSome_none, Bool.false_eq_true, if_false, ht]

/-- With the schedule used up, a poll of the idle block reads STATUS once and is done (R91). -/
theorem step_poll_idle (hp : s.pending = none) (ht : s.turns = [])
    (hhost : s.host = .poll :: rest) :
    step s = .next { s with host := rest, replies := s.replies ++ [.value s.statusWord] } := by
  have hbusy : s.busy = false := by rw [State.busy, hp]; rfl
  have hread : readReg (regOffset .status) { s with host := rest } = s.statusWord :=
    readReg_idle (s := { s with host := rest }) hbusy .status
  have hturns : ({ s with turns := [] } : State) = s := by rw [← ht]
  rw [step_host_idle hp (.inr ⟨ht, rfl⟩), hturns, hostStep, hhost]
  simp only [hostRead, hbusy, hread, Bool.false_eq_true, if_false]
  rw [if_neg (by simp [State.busy, hp])]

/-- Settles O60: the accepted write, EXEC of the word read back as the command, and the poll. -/
theorem cmdwIssuesAndPolls : Obligations.CmdwIssuesAndPolls := by
  intro s i rest hp ht hhost
  have hwrite := step_write_cmd_idle hp ht hhost
  obtain ⟨t, hexec, hstep⟩ := (stepExecutesPendingCommand
    { s with host := .poll :: rest, pending := some (encode i) } (encode i) i rfl
    (decodeEncodeRoundTrip i)).2 ht
  obtain ⟨_, ht', ⟨-, hthost, htturns, htreplies⟩, -⟩ := exec_next i
    { s with host := .poll :: rest, pending := some (encode i) }
  cases hexec.symm.trans ht'
  have hpoll := step_poll_idle (s := { t with pending := none }) rfl (htturns.trans ht) hthost
  refine ⟨t.withHost rest, exec_withHost hexec rest, .succ hwrite (.succ hstep (.succ hpoll ?_))⟩
  rw [show ({ t with pending := none } : State).replies = s.replies from htreplies]
  exact .zero _

end Sys2Proof.Machine
end

section
/-! The control commands NOP and CLR_ERR (R100, R101): one command word each, and what the command
leaves of STATUS (R27). -/

namespace Sys2Proof.Machine

/-- The only word that decodes to an instruction is the word of the instruction (R85, R86). -/
theorem decode_eq_ok_iff {w : Word} {i : Instr} : decode w = .ok i ↔ w = encode i :=
  ⟨fun h => (encode_of_decode h).symm, fun h => by rw [h]; exact decodeEncodeRoundTrip i⟩

/-! ### What completing and clearing the sticky bits leave of STATUS -/

/-- Masking STATUS masks each of its fields (R27). -/
theorem statusWord_and (s : State) (err : BitVec 8) (ovr sticky root sym : BitVec 1)
    (tree : BitVec 2) (busy : BitVec 1) :
    s.statusWord &&& (err ++ 0#1 ++ ovr ++ sticky ++ root ++ sym ++ tree ++ busy).setWidth 32 =
      ((s.lastErr &&& err) ++ 0#1 ++ (BitVec.ofBool s.ovr &&& ovr) ++
        (BitVec.ofBool s.errSticky &&& sticky) ++ (BitVec.ofBool s.atRoot &&& root) ++
        (BitVec.ofBool s.symValid &&& sym) ++ (s.tstate.bits &&& tree) ++
        (BitVec.ofBool s.busy &&& busy)).setWidth 32 := by
  simp only [State.statusWord, ← BitVec.setWidth_and, BitVec.and_append, BitVec.and_self]

/-- A command that completes without a symbol clears LAST_ERR and SYM_VALID and leaves the rest of
STATUS (R45). -/
theorem statusWord_complete (s : State) :
    (complete false s).statusWord = s.statusWord &&& 0x00000077#32 := by
  have hmask : 0x00000077#32 = (0#8 ++ 0#1 ++ BitVec.allOnes 1 ++ BitVec.allOnes 1 ++
      BitVec.allOnes 1 ++ 0#1 ++ BitVec.allOnes 2 ++ BitVec.allOnes 1).setWidth 32 := by decide
  rw [hmask, statusWord_and]
  simp only [BitVec.and_zero, BitVec.and_allOnes]
  rfl

/-- Clearing ERR_STICKY and OVR leaves the rest of STATUS (R101). -/
theorem statusWord_clearSticky (s : State) :
    ({ s with errSticky := false, ovr := false } : State).statusWord =
      s.statusWord &&& 0x0000FF1F#32 := by
  have hmask : 0x0000FF1F#32 = (BitVec.allOnes 8 ++ 0#1 ++ 0#1 ++ 0#1 ++ BitVec.allOnes 1 ++
      BitVec.allOnes 1 ++ BitVec.allOnes 2 ++ BitVec.allOnes 1).setWidth 32 := by decide
  rw [hmask, statusWord_and]
  simp only [BitVec.and_zero, BitVec.and_allOnes]
  rfl

/-! ### NOP and CLR_ERR -/

/-- Settles O16: NOP is completion, which clears the code 4 of the example and keeps ERR_STICKY. -/
theorem nopOnlyCompletes : Obligations.NopOnlyCompletes := by
  refine ⟨fun w => decode_eq_ok_iff, exec_nop, fun s hs => ⟨_, exec_nop s, ?_⟩⟩
  rw [statusWord_complete, hs]
  rfl

/-- Settles O17: CLR_ERR is completion after the sticky bits are cleared. -/
theorem clrErrClearsStickyBits : Obligations.ClrErrClearsStickyBits := by
  refine ⟨fun w => decode_eq_ok_iff, exec_clrErr, fun s hs => ⟨_, exec_clrErr s, ?_⟩⟩
  rw [statusWord_complete, statusWord_clearSticky, hs]
  rfl

end Sys2Proof.Machine
end

section
/-! The frequency-table commands (R110–R114): what a write of FREQ changes besides the table, and
counting a buffer with one COUNT a byte (R112). -/

namespace Sys2Proof.Machine

variable {s t : State} {sym : Byte}

/-! ### The command words -/

/-- The only word of an instruction is its OP value and its operand (R81–R85). -/
theorem decode_eq_ok_iff_word {w pattern : Word} {i : Instr} (m : Mnemonic)
    (hm : i.mnemonic = m) (h : m.op.setWidth 32 <<< 24 = pattern) :
    decode w = .ok i ↔ w = pattern ||| i.operandWord := by
  rw [decode_eq_ok_iff, encode, commandWord, hm, h]

theorem encode_clearFreq : encode .clearFreq = 0x10000000#32 := by decide

/-! ### Entries are FW bits wide -/

/-- 2^FW is at most the range of a 24-bit entry (R6). -/
theorem two_pow_fw_le {p : Params} (hp : p.wf = true) : 2 ^ p.fw ≤ 2 ^ 24 := by
  simp only [Params.wf, Bool.and_eq_true, decide_eq_true_eq] at hp
  exact Nat.pow_le_pow_right (by decide) hp.1.2

/-- A bounded entry that is not at its maximum is below it. -/
theorem FreqBounded.lt_max (h : FreqBounded s) (hne : (s.freqAt sym).toNat ≠ 2 ^ s.params.fw - 1) :
    (s.freqAt sym).toNat + 1 < 2 ^ s.params.fw := by
  have := h sym
  omega

/-- Below the maximum, adding one does not wrap around. -/
theorem freqAt_add_one_toNat (hp : s.params.wf = true) (hb : FreqBounded s)
    (hne : (s.freqAt sym).toNat ≠ 2 ^ s.params.fw - 1) :
    (s.freqAt sym + 1#24).toNat = (s.freqAt sym).toNat + 1 := by
  have hlt : (s.freqAt sym).toNat + 1 < 2 ^ 24 := (hb.lt_max hne).trans_le (two_pow_fw_le hp)
  rw [BitVec.toNat_add, BitVec.toNat_ofNat]
  omega

/-- A DATA below 2^FW is loaded without truncation. -/
theorem dataAsFreq_toNat (hp : s.params.wf = true) (hd : s.data.toNat < 2 ^ s.params.fw) :
    s.dataAsFreq.toNat = s.data.toNat := by
  rw [State.dataAsFreq, BitVec.toNat_setWidth]
  exact Nat.mod_eq_of_lt (hd.trans_le (two_pow_fw_le hp))

/-! ### Writing FREQ -/

/-- Replacing FREQ, Invalidate() and completion: what the three writers of FREQ leave outside the
table (R43, R45). -/
theorem frame_of_freq_write {f : Vector Freq 256}
    (ht : t = complete false (invalidate { s with freq := f })) :
    Invalidated t ∧ CompletedOk false t ∧ SameResults s t ∧ SameSticky s t ∧
      t.pending = s.pending ∧ SameOutside s t := by
  subst ht
  exact ⟨⟨rfl, rfl, rfl, rfl, rfl, rfl, noCodes_get⟩, ⟨rfl, rfl⟩, ⟨rfl, rfl, rfl, rfl⟩, ⟨rfl, rfl⟩,
    rfl, rfl, rfl, rfl, rfl⟩

@[simp] theorem freqAt_complete (e : Bool) (s : State) (b : Byte) :
    (complete e s).freqAt b = s.freqAt b := rfl

@[simp] theorem freqAt_invalidate (s : State) (b : Byte) :
    (invalidate s).freqAt b = s.freqAt b := rfl

@[simp] theorem freqAt_clearPending (s : State) (b : Byte) :
    (clearPending s).freqAt b = s.freqAt b := rfl

theorem freqAt_cleared (s : State) (b : Byte) :
    ({ s with freq := clearedFreq } : State).freqAt b = 0#24 :=
  clearedFreq_get b

/-- TREE reads 0 where there is no tree. -/
theorem Invalidated.treeWord (h : Invalidated t) : t.treeWord = 0#32 := by
  obtain ⟨-, hroot, hncount, hlcount, -⟩ := h
  rw [State.treeWord, hroot, hncount, hlcount]
  rfl

/-! ### CLEAR_FREQ, COUNT, SET_FREQ and READ_FREQ -/

/-- Settles O18: the table is replaced by zeros, so READ_FREQ zero-extends a zero. -/
theorem clearFreqEmptiesTheTable : Obligations.ClearFreqEmptiesTheTable := by
  refine ⟨fun w => encode_clearFreq ▸ decode_eq_ok_iff, fun s => ⟨_, exec_clearFreq s, ?_⟩⟩
  obtain ⟨hinv, hok, hres, hsticky, hpend, hout⟩ :=
    frame_of_freq_write (s := s) (f := clearedFreq) rfl
  refine ⟨fun b => ?_, hinv, hok, hres, hsticky, hpend, hout, hinv.treeWord,
    fun b => ⟨_, exec_readFreq b _, ?_⟩⟩
  · rw [freqAt_complete, freqAt_invalidate, freqAt_cleared]
  · rw [complete_res0, freqAt_complete, freqAt_invalidate, freqAt_cleared]
    rfl

/-- Settles O19: the bound on the entries makes "not the maximum" mean "below it", where adding one
is exact. -/
theorem countAddsOneOrOverflows : Obligations.CountAddsOneOrOverflows := by
  intro s sym hp hb
  refine ⟨fun w => decode_eq_ok_iff_word .count rfl (by decide),
    fun hfull => ⟨_, exec_count_full hfull, rfl⟩,
    fun hne => ⟨_, exec_count_ok hne, ?_, fun b hbs => ?_, frame_of_freq_write rfl⟩⟩
  · rw [freqAt_complete, freqAt_invalidate, freqAt_setFreqAt_same, freqAt_add_one_toNat hp hb hne]
  · rw [freqAt_complete, freqAt_invalidate, freqAt_setFreqAt_other s _ hbs]

/-- Settles O20: a DATA that passes the check fits the entry. -/
theorem setFreqLoadsDataOrOverflows : Obligations.SetFreqLoadsDataOrOverflows := by
  intro s sym hp
  refine ⟨fun w => decode_eq_ok_iff_word .setFreq rfl (by decide),
    fun hlarge => ⟨_, exec_setFreq_large sym hlarge, rfl⟩,
    fun hfit => ⟨_, exec_setFreq_ok sym hfit, ?_, fun b hbs => ?_, frame_of_freq_write rfl⟩⟩
  · rw [freqAt_complete, freqAt_invalidate, freqAt_setFreqAt_same, dataAsFreq_toNat hp hfit]
  · rw [freqAt_complete, freqAt_invalidate, freqAt_setFreqAt_other s _ hbs]

/-- Settles O21: zero-extension keeps the value, and the rest of the command is completion. -/
theorem readFreqReturnsEntry : Obligations.ReadFreqReturnsEntry := by
  intro s sym
  refine ⟨fun w => decode_eq_ok_iff_word .readFreq rfl (by decide), _, exec_readFreq sym s, ?_, rfl⟩
  exact BitVec.toNat_setWidth_of_le (by decide)

/-! ### Issuing CLEAR_FREQ and COUNT -/

/-- Issuing a command leaves what the command leaves, with nothing pending (R44). -/
theorem issue_of_exec {i : Instr} (h : exec i { s with pending := some (encode i) } = .next t) :
    issue i s = clearPending t := by
  rw [issue, engineStep]
  simp only [execWord, decodeEncodeRoundTrip i, h, retire_next]

theorem issue_clearFreq (s : State) :
    issue .clearFreq s =
      clearPending (complete false (invalidate { s with freq := clearedFreq })) :=
  (issue_of_exec (exec_clearFreq _)).trans rfl

/-- COUNT of an entry at its maximum reports FREQ_OVERFLOW. -/
theorem lastErr_issue_count_full (h : (s.freqAt sym).toNat = 2 ^ s.params.fw - 1) :
    (issue (.count sym) s).lastErr = ErrCode.freqOverflow.code := by
  rw [issue_of_exec (exec_count_full h)]
  rfl

theorem issue_count_ok (h : (s.freqAt sym).toNat ≠ 2 ^ s.params.fw - 1) :
    issue (.count sym) s =
      clearPending (complete false (invalidate (s.setFreqAt sym (s.freqAt sym + 1#24)))) :=
  (issue_of_exec (exec_count_ok h)).trans rfl

/-- A COUNT moves one occurrence of its byte from what is left of the buffer into FREQ. -/
theorem freqAt_issue_count_add_count (hp : s.params.wf = true) (hb : FreqBounded s)
    (hne : (s.freqAt sym).toNat ≠ 2 ^ s.params.fw - 1) (rest : List Byte) (b : Byte) :
    ((issue (.count sym) s).freqAt b).toNat + rest.count b =
      (s.freqAt b).toNat + (sym :: rest).count b := by
  have hfreq : (issue (.count sym) s).freqAt b =
      (s.setFreqAt sym (s.freqAt sym + 1#24)).freqAt b := by
    rw [issue_count_ok hne, freqAt_clearPending, freqAt_complete, freqAt_invalidate]
  rw [hfreq]
  by_cases hbs : b = sym
  · subst hbs
    rw [freqAt_setFreqAt_same, freqAt_add_one_toNat hp hb hne, List.count_cons_self]
    omega
  · rw [freqAt_setFreqAt_other s _ hbs, List.count_cons_of_ne (Ne.symm hbs)]

theorem freqBounded_issue_count (hp : s.params.wf = true) (hb : FreqBounded s)
    (hne : (s.freqAt sym).toNat ≠ 2 ^ s.params.fw - 1) : FreqBounded (issue (.count sym) s) := by
  have hlt : (s.freqAt sym + 1#24).toNat < 2 ^ s.params.fw := by
    rw [freqAt_add_one_toNat hp hb hne]; exact hb.lt_max hne
  rw [issue_count_ok hne]
  exact (freqBounded_setFreqAt hb hlt).congr rfl rfl

theorem params_issue_count (hne : (s.freqAt sym).toNat ≠ 2 ^ s.params.fw - 1) :
    (issue (.count sym) s).params = s.params := by
  rw [issue_count_ok hne]; rfl

/-! ### Counting a buffer (R112) -/

/-- The host stops at a byte whose entry is at its maximum (R253). -/
theorem countBuffer_cons_full (rest : List Byte)
    (h : (s.freqAt sym).toNat = 2 ^ s.params.fw - 1) :
    countBuffer (sym :: rest) s = .error .bufferTooLarge :=
  if_pos (lastErr_issue_count_full h)

theorem countBuffer_cons_ok (rest : List Byte)
    (h : (s.freqAt sym).toNat ≠ 2 ^ s.params.fw - 1) :
    countBuffer (sym :: rest) s = countBuffer rest (issue (.count sym) s) :=
  if_neg (by rw [issue_count_ok h]; exact (code_ne_zero .freqOverflow).symm)

/-- While FREQ and what is left of the buffer together fit, every COUNT succeeds. -/
theorem countBuffer_of_fits (buffer : List Byte) : ∀ {s : State}, s.params.wf = true →
    FreqBounded s → (∀ b, (s.freqAt b).toNat + buffer.count b ≤ 2 ^ s.params.fw - 1) →
    ∃ t, countBuffer buffer s = .ok t ∧
      ∀ b, (t.freqAt b).toNat = (s.freqAt b).toNat + buffer.count b := by
  induction buffer with
  | nil => exact fun {s} _ _ _ => ⟨s, rfl, fun _ => rfl⟩
  | cons x rest ih =>
    intro s hp hb hfit
    have hne : (s.freqAt x).toNat ≠ 2 ^ s.params.fw - 1 := by
      have := hfit x
      rw [List.count_cons_self] at this
      omega
    have hparams := params_issue_count hne
    have hsum := freqAt_issue_count_add_count hp hb hne rest
    obtain ⟨t, ht, hcount⟩ := ih (hparams ▸ hp) (freqBounded_issue_count hp hb hne)
      (fun b => by rw [hsum, hparams]; exact hfit b)
    exact ⟨t, (countBuffer_cons_ok rest hne).trans ht, fun b => (hcount b).trans (hsum b)⟩

/-- If FREQ and the buffer together do not fit, a COUNT raises FREQ_OVERFLOW. -/
theorem countBuffer_of_not_fits (buffer : List Byte) (b : Byte) : ∀ {s : State},
    s.params.wf = true → FreqBounded s →
    2 ^ s.params.fw - 1 < (s.freqAt b).toNat + buffer.count b →
    countBuffer buffer s = .error .bufferTooLarge := by
  induction buffer with
  | nil =>
    intro s _ hb hlarge
    have := hb b
    rw [List.count_nil] at hlarge
    omega
  | cons x rest ih =>
    intro s hp hb hlarge
    by_cases hx : (s.freqAt x).toNat = 2 ^ s.params.fw - 1
    · exact countBuffer_cons_full rest hx
    · have hparams := params_issue_count hx
      refine (countBuffer_cons_ok rest hx).trans
        (ih (hparams ▸ hp) (freqBounded_issue_count hp hb hx) ?_)
      rw [freqAt_issue_count_add_count hp hb hx, hparams]
      exact hlarge

theorem freqAt_issue_clearFreq (s : State) (b : Byte) : (issue .clearFreq s).freqAt b = 0#24 := by
  rw [issue_clearFreq, freqAt_clearPending, freqAt_complete, freqAt_invalidate, freqAt_cleared]

theorem freqBounded_issue_clearFreq (s : State) : FreqBounded (issue .clearFreq s) := fun b => by
  rw [freqAt_issue_clearFreq]
  exact Nat.two_pow_pos _

/-- Settles O39: counting starts from a table of zeros, to which each COUNT adds its byte. -/
theorem countingABuffer : Obligations.CountingABuffer := by
  intro s buffer hp
  have hsum (b : Byte) :
      ((issue .clearFreq s).freqAt b).toNat + buffer.count b = buffer.count b := by
    rw [freqAt_issue_clearFreq]; exact Nat.zero_add _
  have hparams : (issue .clearFreq s).params = s.params := by rw [issue_clearFreq]; rfl
  have hbounded := freqBounded_issue_clearFreq s
  refine ⟨fun hfit => ?_, fun ⟨b, hlarge⟩ => ?_⟩
  · obtain ⟨t, ht, hcount⟩ := countBuffer_of_fits buffer (hparams ▸ hp) hbounded
      (fun b => by rw [hsum, hparams]; exact hfit b)
    exact ⟨t, ht, fun b => (hcount b).trans (hsum b)⟩
  · exact countBuffer_of_not_fits buffer b (hparams ▸ hp) hbounded
      (by rw [hsum, hparams]; exact hlarge)

end Sys2Proof.Machine
end

section
/-! The state BUILD leaves (R130, R131, R132, R137): its registers by the number of symbols, its
leaves, and what it depends on.  READ_NODE of an entry (R140). -/

namespace Sys2Proof.Machine

variable {s : State}

/-- The state BUILD leaves (R131). -/
def State.afterBuild (s : State) : State := complete false (loadTree (buildTree s.freq) s)

theorem exec_build_afterBuild (s : State) : exec .build s = .next s.afterBuild := exec_build s

@[simp] theorem afterBuild_tstate (s : State) :
    s.afterBuild.tstate = (buildTree s.freq).tstate := rfl

@[simp] theorem afterBuild_root (s : State) :
    s.afterBuild.root = (buildTree s.freq).root := rfl

@[simp] theorem afterBuild_ncount (s : State) :
    s.afterBuild.ncount = (buildTree s.freq).ncount := rfl

@[simp] theorem afterBuild_lcount (s : State) :
    s.afterBuild.lcount = (buildTree s.freq).lcount := rfl

@[simp] theorem afterBuild_codes (s : State) :
    s.afterBuild.codes = (buildTree s.freq).codes := rfl

@[simp] theorem afterBuild_freq (s : State) :
    s.afterBuild.freq = s.freq := rfl

theorem afterBuild_tstate_ne_none (s : State) : s.afterBuild.tstate ≠ .none := by
  rw [afterBuild_tstate]
  rcases buildTree_tstate_cases s.freq with ⟨h, -⟩ | ⟨h, -⟩ | ⟨h, -⟩ <;> rw [h] <;> decide

/-- The tree BUILD leaves is the one it computes from FREQ, in every state. -/
theorem treeMatchesFreq_afterBuild (s : State) : TreeMatchesFreq s.afterBuild := by
  unfold TreeMatchesFreq
  rw [if_neg (afterBuild_tstate_ne_none s)]
  refine ⟨rfl, rfl, rfl, rfl, rfl, fun i hi => ?_⟩
  have hlt : i.toNat < (buildTree s.freq).nodes.length := by
    rw [← buildTree_ncount]; exact (inUse_iff.1 hi).2
  exact nodeAt_loadTree (buildTree s.freq) s i (hlt.trans_le (buildTree_length_le _)) hlt

/-- There is a tree after a BUILD of one or more symbols. -/
theorem afterBuild_tree (h : 1 ≤ (leafNodes s.freq).length) :
    s.afterBuild.tstate = .single ∨ s.afterBuild.tstate = .multi := by
  rw [afterBuild_tstate]
  rcases buildTree_tstate_cases s.freq with ⟨-, h0⟩ | ⟨hs, -⟩ | ⟨hm, -⟩
  · omega
  · exact .inl hs
  · exact .inr hm

theorem holdsTree_afterBuild (h : 1 ≤ (leafNodes s.freq).length) :
    HoldsTree s.afterBuild (leafNodes s.freq).length (buildTree s.freq).nodes :=
  (treeMatchesFreq_afterBuild s).holdsTree (afterBuild_tree h)

/-- A table of no, one, or more symbols gives an EMPTY, SINGLE or MULTI tree with its registers
(R131, R132, R37). -/
theorem buildTree_registers (freq : Vector Freq 256) {n : Nat} (hn : (leafNodes freq).length = n) :
    (n = 0 → (buildTree freq).tstate = .empty ∧ (buildTree freq).root = 0#9 ∧
      (buildTree freq).ncount = 0#9 ∧ (buildTree freq).lcount = 0#9) ∧
    (n = 1 → (buildTree freq).tstate = .single ∧ (buildTree freq).root = 0#9 ∧
      (buildTree freq).ncount = 1#9 ∧ (buildTree freq).lcount = 1#9) ∧
    (2 ≤ n → (buildTree freq).tstate = .multi ∧ (buildTree freq).root.toNat = 2 * n - 2 ∧
      (buildTree freq).ncount.toNat = 2 * n - 1 ∧ (buildTree freq).lcount.toNat = n) := by
  subst hn
  refine ⟨fun h => ?_, fun h => ?_, fun h => ?_⟩
  · rw [buildTree_empty h]; exact ⟨rfl, rfl, rfl, rfl⟩
  · rw [buildTree_single h]; exact ⟨rfl, rfl, rfl, rfl⟩
  · obtain ⟨hts, -, -, hroot, hncount, hlcount, -⟩ := buildTree_multi h
    exact ⟨hts, hroot, hncount, hlcount⟩

/-- Settles O22: the registers are those of the tree BUILD computes, which has a leaf for every byte
of non-zero frequency. -/
theorem buildSetsTreeRegisters : Obligations.BuildSetsTreeRegisters := by
  refine ⟨fun w => decode_eq_ok_iff, fun s => ⟨_, exec_build_afterBuild s, ?_, rfl, rfl, rfl,
    ⟨rfl, rfl⟩, ⟨rfl, rfl, rfl, rfl⟩, ⟨rfl, rfl⟩, rfl, rfl, rfl, rfl, rfl⟩⟩
  exact buildTree_registers s.freq (leafNodes_length s.freq)

/-- Settles O28: in the tree BUILD leaves, entry k below LCOUNT is the leaf of the k-th present
byte. -/
theorem leavesStandInByteOrder : Obligations.LeavesStandInByteOrder := by
  refine fun s => ⟨_, exec_build_afterBuild s, fun k b hkb => ?_⟩
  obtain ⟨hk, rfl⟩ := List.getElem?_eq_some_iff.1 hkb
  have hlt : k < (leafNodes s.freq).length := by rw [leafNodes_length]; exact hk
  have hT := holdsTree_afterBuild (Nat.one_le_of_lt hlt)
  have hidx : (BitVec.ofNat 9 k).toNat = k := by
    have := hT.le
    rw [BitVec.toNat_ofNat]
    omega
  rw [hT.nodeAt_leaf (by rw [hidx]; exact hlt)]
  simp only [hidx]
  rfl

/-- Settles O36: both states load the tree of the same table. -/
theorem buildDependsOnFreqOnly : Obligations.BuildDependsOnFreqOnly := by
  intro s s' hfreq
  have hts : s.afterBuild.tstate = s'.afterBuild.tstate := by simp only [afterBuild_tstate, hfreq]
  have hncount : s.afterBuild.ncount = s'.afterBuild.ncount := by
    simp only [afterBuild_ncount, hfreq]
  have huse (i : NodeIdx) : s.afterBuild.inUse i = s'.afterBuild.inUse i := by
    rw [State.inUse, hts, hncount]; rfl
  have hroot : s.afterBuild.root = s'.afterBuild.root := by simp only [afterBuild_root, hfreq]
  refine ⟨_, _, exec_build_afterBuild s, exec_build_afterBuild s', hts, hroot, hncount,
    by simp only [afterBuild_lcount, hfreq], by simp only [afterBuild_codes, hfreq], hroot, rfl,
    fun i hi => ⟨huse i ▸ hi, ?_⟩⟩
  obtain ⟨htree, -⟩ := inUse_iff.1 hi
  obtain ⟨-, -, -, -, -, hnode⟩ := (treeMatchesFreq_afterBuild s).built (ne_none_of_tree htree)
  obtain ⟨-, -, -, -, -, hnode'⟩ :=
    (treeMatchesFreq_afterBuild s').built (ne_none_of_tree (hts ▸ htree))
  rw [hnode i hi, hnode' i (huse i ▸ hi), afterBuild_freq, afterBuild_freq, hfreq]

/-! ### READ_NODE (R140) -/

/-- The fields of RES0 that READ_NODE returns (R140). -/
theorem packed_fields (e : Node) :
    e.packed.extractLsb' 0 8 = e.byte ∧ e.packed.getLsbD 8 = e.internal ∧
      e.packed.getLsbD 9 = true ∧ e.packed.extractLsb' 10 9 = e.left ∧
      e.packed.extractLsb' 19 9 = e.right ∧ e.packed.extractLsb' 28 4 = 0#4 := by
  unfold Node.packed
  refine ⟨field_low _ _ rfl (by decide), ?_, ?_, ?_, ?_, field_above _ (by decide)⟩
  · rw [bit_skip _ _ (by decide) (by decide)]
    exact bit_low _ _ (by decide)
  · iterate 2 rw [bit_skip _ _ (by decide) (by decide)]
    exact bit_low _ true (by decide)
  · iterate 3 rw [field_skip _ _ (by decide) (by decide)]
    exact field_low _ _ (by decide) (by decide)
  · iterate 4 rw [field_skip _ _ (by decide) (by decide)]
    exact field_top _ (by decide) (by decide)

/-- Settles O23: an entry is in use exactly under the stated condition. -/
theorem readNodeShowsEntriesInUse : Obligations.ReadNodeShowsEntriesInUse := by
  intro s idx
  refine ⟨fun w => decode_eq_ok_iff_word .readNode rfl (by decide), ?_⟩
  have huse : s.inUse idx = true ↔ (s.tstate = .single ∨ s.tstate = .multi) ∧ idx < s.ncount := by
    rw [inUse_iff, BitVec.lt_def]
  cases hu : s.inUse idx with
  | true =>
    obtain ⟨hbyte, hint, hone, hleft, hright, hzero⟩ := packed_fields (s.nodeAt idx)
    exact ⟨_, exec_readNode_inUse hu, rfl,
      fun _ => ⟨hbyte, hint, hone, hleft, hright, hzero, rfl⟩, fun hn => absurd (huse.1 hu) hn⟩
  | false =>
    refine ⟨_, exec_readNode_unused hu, rfl, fun h => ?_, fun _ => ⟨rfl, rfl⟩⟩
    rw [huse.2 h] at hu
    cases hu

end Sys2Proof.Machine
end

section
/-! The working set of Merge as the node store shows it: its bytes are pairwise different before
every merge (R135), and each merge takes its two smallest keys (R133). -/

namespace Sys2Proof.Machine

variable {leaves ns : List Node} {w : List Nat} {s : State} {n m j k : Nat}

/-! ### The working set before a merge -/

/-- An entry of the working set after a merge is the parent, or was there before and was not
taken. -/
theorem LiveIn.of_succ (h : LiveIn ns (m + 1) j) :
    j = m ∨ (LiveIn ns m j ∧ ¬ ChildIn ns j m) := by
  obtain ⟨hj, hfree⟩ := h
  by_cases hjm : j = m
  · exact .inl hjm
  · exact .inr ⟨⟨by omega, fun i hi => hfree i (by omega)⟩, hfree m (by omega)⟩

/-- The parent takes the byte of a child that leaves the working set, so bytes that are pairwise
different before a merge are so after it (R135). -/
theorem MergeState.byte_ne_of_live (h : MergeState leaves ns w)
    (hleaf : ∀ j < leaves.length, ∀ k < leaves.length, j ≠ k →
      (builtNode ns j).byte ≠ (builtNode ns k).byte)
    (hlm : leaves.length ≤ m) (hm : m ≤ ns.length) :
    ∀ j k, LiveIn ns m j → LiveIn ns m k → j ≠ k →
      (builtNode ns j).byte ≠ (builtNode ns k).byte := by
  induction m, hlm using Nat.le_induction with
  | base => exact fun j k hj hk => hleaf j hj.1 k hk.1
  | succ m hlm ih =>
    have hat := h.merged m hlm (by omega)
    have parent_ne : ∀ i, LiveIn ns m i → ¬ ChildIn ns i m →
        (builtNode ns m).byte ≠ (builtNode ns i).byte := by
      intro i hi hfree
      rw [hat.byte_eq]
      exact ih (by omega) _ i hat.left_live hi fun he => hfree (hat.childIn_iff.2 (.inl he.symm))
    intro j k hj hk hjk
    rcases hj.of_succ with rfl | ⟨hj', hjfree⟩ <;> rcases hk.of_succ with rfl | ⟨hk', hkfree⟩
    · exact absurd rfl hjk
    · exact parent_ne k hk' hkfree
    · exact (parent_ne j hj' hjfree).symm
    · exact ih (by omega) j k hj' hk' hjk

/-- Of two entries of different bytes exactly one has the smaller key. -/
theorem keyLt_iff_not_keyLt {a b : Node} (h : a.byte ≠ b.byte) :
    a.keyLt b = true ↔ ¬ b.keyLt a = true := by
  have := key_ne_of_byte_ne h
  rw [keyLt_iff, keyLt_iff]
  omega

/-! ### The working set in the node store -/

theorem HoldsTree.live_iff (h : HoldsTree s n ns) {next i : NodeIdx} (hnext : next ≤ s.ncount) :
    s.live next i ↔ LiveIn ns next.toNat i.toNat := by
  rw [BitVec.le_def, h.ncount] at hnext
  have hle := h.le
  unfold State.live LiveIn
  rw [BitVec.lt_def]
  refine and_congr_right fun _ => ⟨fun hfree k hk => ?_, fun hfree k hk => ?_⟩
  · have hk9 : (BitVec.ofNat 9 k).toNat = k := by rw [BitVec.toNat_ofNat]; omega
    have := hfree (BitVec.ofNat 9 k) (by rw [BitVec.lt_def, hk9]; exact hk)
    rwa [h.isChildOf_iff (by omega), hk9] at this
  · rw [BitVec.lt_def] at hk
    rw [h.isChildOf_iff (by omega)]
    exact hfree k.toNat hk

theorem HoldsTree.nodeAt_of_live (h : HoldsTree s n ns) {next i : NodeIdx}
    (hnext : next ≤ s.ncount) (hi : s.live next i) : s.nodeAt i = builtNode ns i.toNat := by
  obtain ⟨hlt, -⟩ := hi
  rw [BitVec.le_def, h.ncount] at hnext
  rw [BitVec.lt_def] at hlt
  exact h.nodeAt (by omega)

/-- Different leaves have different bytes (R130). -/
theorem HoldsTree.leaf_byte_ne (h : HoldsTree s n ns) :
    ∀ j < (leafNodes s.freq).length, ∀ k < (leafNodes s.freq).length, j ≠ k →
      (builtNode ns j).byte ≠ (builtNode ns k).byte := by
  have hbyte : ∀ i, (hi : i < (presentBytes s.freq).length) →
      (builtNode ns i).byte = (presentBytes s.freq)[i] := by
    intro i hi
    have hone : 1 ≤ (leafNodes s.freq).length := by rw [h.leaves]; exact h.one_le
    rw [← h.entries, (buildTree_merge hone).1, builtNode_mergeAll hone hi]
    rfl
  have hnodup : (presentBytes s.freq).Nodup := allBytes_nodup.filter _
  intro j hj k hk hjk
  rw [leafNodes_length] at hj hk
  rw [hbyte j hj, hbyte k hk]
  exact fun he => hjk ((hnodup.getElem_inj_iff).1 he)

theorem HoldsTree.mergesSmallest (h : HoldsTree s n ns) : MergesSmallest s := by
  intro i hni hi
  have hle : i ≤ s.ncount := BitVec.le_of_lt hi
  have hni' := h.lcount_le_iff.1 hni
  have hi' := h.lt_ncount_iff.1 hi
  have hat := h.mergedAt hni' hi'
  obtain ⟨hnode, hleft, hright⟩ := h.nodeAt_children hni' hi'
  refine ⟨?_, ?_, fun j hj hjl hjr => ?_⟩
  · rw [h.live_iff hle, hnode]; exact hat.left_live
  · rw [h.live_iff hle, hnode]; exact hat.right_live
  · rw [hleft, hright, h.nodeAt_of_live hle hj, keyLt_iff, keyLt_iff]
    rw [hnode] at hjl hjr
    exact hat.smallest j.toNat ((h.live_iff hle).1 hj)
      (fun he => hjl (BitVec.eq_of_toNat_eq he)) (fun he => hjr (BitVec.eq_of_toNat_eq he))

/-! ### BUILD -/

/-- After a BUILD that leaves a MULTI tree the store holds the tree of Merge. -/
theorem holdsTree_of_multi (hm : s.afterBuild.tstate = .multi) :
    HoldsTree s.afterBuild (leafNodes s.freq).length (buildTree s.freq).nodes :=
  (treeMatchesFreq_afterBuild s).holdsTree (.inr hm)

/-- Settles O30: facts of the tree that Merge writes, which BUILD leaves in the store. -/
theorem buildMergesGlobalMinima : Obligations.BuildMergesGlobalMinima := by
  refine fun s => ⟨_, exec_build_afterBuild s, fun hm => ?_⟩
  have hT := holdsTree_of_multi hm
  obtain ⟨hinternal, -⟩ := hT.leavesFirst
  refine ⟨hT.mergesSmallest, hT.sumsExact, hT.bytesOrdered, hinternal, ?_, ?_⟩
  · rw [hT.ncount, hT.lcount]
  · rw [hT.root, hT.ncount]; omega

/-- Settles O31: the leaves have different bytes, and every merge keeps this. -/
theorem workingSetBytesDistinct : Obligations.WorkingSetBytesDistinct := by
  refine fun s => ⟨_, exec_build_afterBuild s, fun hm next hln hnn j k hj hk hjk => ?_⟩
  have hT := holdsTree_of_multi hm
  have hlen := hT.length
  have hbyte : (s.afterBuild.nodeAt j).byte ≠ (s.afterBuild.nodeAt k).byte := by
    rw [hT.nodeAt_of_live hnn hj, hT.nodeAt_of_live hnn hk]
    refine hT.merge.byte_ne_of_live hT.leaf_byte_ne (m := next.toNat) ?_ ?_ _ _
      ((hT.live_iff hnn).1 hj) ((hT.live_iff hnn).1 hk)
      fun he => hjk (BitVec.eq_of_toNat_eq he)
    · exact hT.lcount_le_iff.1 hln
    · rw [BitVec.le_def, hT.ncount] at hnn
      omega
  exact ⟨hbyte, keyLt_iff_not_keyLt hbyte⟩

end Sys2Proof.Machine
end

section
/-! The codes of a tree in the state (R134, R138): the code of a byte is the path from ROOT to its
leaf, so that no code is the beginning of another. -/

namespace Sys2Proof.Machine

variable {s : State} {n : Nat} {ns : List Node} {b c : Byte} {i j : NodeIdx} {p q : List Bool}

/-! ### The code table of a tree -/

/-- Entry i is the leaf of byte b, p the path to it from ROOT, and the code of b is p (R134). -/
structure CodedBy (s : State) (n : Nat) (ns : List Node) (b : Byte) (i : NodeIdx) (p : List Bool) :
    Prop where
  leaf : i.toNat < n
  byte : (s.nodeAt i).byte = b
  path : follow ns (2 * n - 2) p = some i.toNat
  code : s.codeAt b = codeOfPath p

theorem TreeMatchesFreq.codeAt_eq (h : TreeMatchesFreq s) (hn : s.tstate ≠ .none) (b : Byte) :
    s.codeAt b = (buildTree s.freq).codes[b.toNat]'b.isLt := by
  obtain ⟨-, -, -, -, hcodes, -⟩ := h.built hn
  simp only [State.codeAt, hcodes]

/-- A byte of frequency 0 has the sentinel entry (R38). -/
theorem TreeMatchesFreq.codeAt_absent (h : TreeMatchesFreq s) (hn : s.tstate ≠ .none)
    (hb : s.freqAt b = 0#24) : s.codeAt b = { used := false, len := 0#8, bits := 0#256 } :=
  (h.codeAt_eq hn b).trans ((buildTree_codes s.freq b).1 hb)

/-- Every other byte has the code of the path to its leaf. -/
theorem HoldsTree.exists_codedBy (h : HoldsTree s n ns) (htree : TreeMatchesFreq s)
    (hn : s.tstate ≠ .none) (hb : s.freqAt b ≠ 0#24) : ∃ i p, CodedBy s n ns b i p := by
  obtain ⟨k, p, hk, -, hnode, hpath, -, hcode⟩ := (buildTree_codes s.freq b).2 hb
  rw [h.entries] at hnode hpath
  rw [← h.root_built, h.root] at hpath
  have hle := h.le
  have hkn : k < n := h.presentBytes_length ▸ hk
  have hk9 : (BitVec.ofNat 9 k).toNat = k := by rw [BitVec.toNat_ofNat]; omega
  refine ⟨BitVec.ofNat 9 k, p, hk9.symm ▸ hkn, ?_, hk9.symm ▸ hpath,
    (htree.codeAt_eq hn b).trans hcode⟩
  rw [h.nodeAt (by omega), hk9, hnode]
  rfl

/-- A byte has a code iff its frequency is not 0. -/
theorem TreeMatchesFreq.used_iff (h : TreeMatchesFreq s) (hn : s.tstate ≠ .none) :
    (s.codeAt b).used = true ↔ s.freqAt b ≠ 0#24 := by
  rw [h.codeAt_eq hn]
  obtain ⟨habsent, hpresent⟩ := buildTree_codes s.freq b
  by_cases hb : s.freqAt b = 0#24
  · simp only [habsent hb, hb, ne_eq, not_true_eq_false, Bool.false_eq_true]
  · obtain ⟨k, p, -, -, -, -, -, hcode⟩ := hpresent hb
    simp only [hcode, codeOfPath, hb, ne_eq, not_false_eq_true]

/-- A code of n leaves has at most n − 1 bits (R139). -/
theorem HoldsTree.code_length_le (h : HoldsTree s n ns) (hc : CodedBy s n ns b i p) :
    p.length ≤ n - 1 := by
  have hone := h.one_le
  have hlen := h.length
  have hpath := (h.merge.path_length (by omega) (by rw [h.leaves]) hc.path).1
  rwa [h.leaves] at hpath

/-- The code read back from the table is the path. -/
theorem HoldsTree.codePath_eq (h : HoldsTree s n ns) (hc : CodedBy s n ns b i p) :
    s.codePath b = p := by
  have hle := h.le
  have hp := h.code_length_le hc
  rw [State.codePath, hc.code, codeOfPath_path p (by omega)]

theorem HoldsTree.nodeAt_codedBy_internal (h : HoldsTree s n ns) (hc : CodedBy s n ns b i p) :
    (s.nodeAt i).internal = false := by
  have hi := hc.leaf
  rw [Bool.eq_false_iff, ne_eq, h.internal_iff (by omega)]
  omega

/-! ### A code that begins another code -/

/-- A path that goes on from a leaf ends there. -/
theorem follow_of_leaf {k l : Nat} (hk : (builtNode ns k).internal = false)
    (hq : follow ns k q = some l) : q = [] ∧ l = k := by
  cases q with
  | nil =>
    simp only [follow, Option.some.injEq] at hq
    exact ⟨rfl, hq.symm⟩
  | cons bit q =>
    rw [follow, hk] at hq
    cases hq

/-- A byte whose code begins another byte's code would have the same leaf. -/
theorem HoldsTree.byte_eq_of_prefix (h : HoldsTree s n ns) (hb : CodedBy s n ns b i p)
    (hc : CodedBy s n ns c j q) (hpre : p <+: q) : c = b := by
  obtain ⟨r, rfl⟩ := hpre
  have hi := hb.leaf
  have hleaf := h.nodeAt_codedBy_internal hb
  rw [h.nodeAt (by omega)] at hleaf
  have hrest : follow ns i.toNat r = some j.toNat := by
    have hpath := hc.path
    rwa [follow_append, hb.path] at hpath
  obtain ⟨-, hji⟩ := follow_of_leaf hleaf hrest
  rw [← hb.byte, ← hc.byte, BitVec.eq_of_toNat_eq hji]

/-- ROOT of a tree of two or more leaves is no leaf, so no code is empty. -/
theorem CodedBy.ne_nil (hc : CodedBy s n ns b i p) (hn : 2 ≤ n) : p ≠ [] := by
  rintro rfl
  have hi := hc.leaf
  have hroot := hc.path
  simp only [follow, Option.some.injEq] at hroot
  omega

/-- The code of a SINGLE tree is empty (R132). -/
theorem HoldsTree.codePath_single (h : HoldsTree s 1 ns) (hc : CodedBy s 1 ns b i p) :
    s.codePath b = [] := by
  rw [h.codePath_eq hc]
  exact List.length_eq_zero_iff.1 (Nat.le_zero.1 (h.code_length_le hc))

/-- Settles O37: codes are paths from ROOT to different leaves. -/
theorem codesArePrefixFree : Obligations.CodesArePrefixFree := by
  rintro s ⟨-, -, -, htree, -⟩
  refine ⟨fun hm b hb => ?_, fun hs b hb => ?_⟩
  · have hT := htree.holdsTree (.inr hm)
    have hn : s.tstate ≠ .none := ne_none_of_tree (.inr hm)
    obtain ⟨i, p, hbp⟩ := hT.exists_codedBy htree hn ((htree.used_iff hn).1 hb)
    rw [hT.codePath_eq hbp]
    refine ⟨hbp.ne_nil (hT.two_le htree hm), fun c hc hcb => ?_⟩
    obtain ⟨j, q, hcq⟩ := hT.exists_codedBy htree hn ((htree.used_iff hn).1 hc)
    rw [hT.codePath_eq hcq]
    have hno : ¬ p <+: q := fun hpre => hcb (hT.byte_eq_of_prefix hbp hcq hpre)
    exact ⟨fun he => hno (he ▸ List.prefix_rfl), hno⟩
  · have hT := htree.holdsTree (.inl hs)
    have hn : s.tstate ≠ .none := ne_none_of_tree (.inl hs)
    obtain ⟨hts, -⟩ := htree.built hn
    rw [(leafNodes_length_of_tstate s.freq).2.1 (hts.symm.trans hs)] at hT
    obtain ⟨i, p, hbp⟩ := hT.exists_codedBy htree hn ((htree.used_iff hn).1 hb)
    exact hT.codePath_single hbp

/-! ### The codes BUILD leaves -/

/-- A byte of non-zero frequency is a leaf. -/
theorem one_le_leafNodes_length (hb : s.freqAt b ≠ 0#24) : 1 ≤ (leafNodes s.freq).length := by
  rw [leafNodes_length]
  exact List.length_pos_of_mem (mem_presentBytes.2 hb)

/-- Settles O34: the entry of a byte is made of the path to its leaf, or is the sentinel. -/
theorem codesAreRootToLeafPaths : Obligations.CodesAreRootToLeafPaths := by
  refine fun s => ⟨_, exec_build_afterBuild s, fun b => ?_⟩
  have htree := treeMatchesFreq_afterBuild s
  have hn := afterBuild_tstate_ne_none s
  have hused : (s.afterBuild.codeAt b).used = true ↔ s.freqAt b ≠ 0#24 := htree.used_iff hn
  refine ⟨hused, fun hu => ?_, fun hu => ?_⟩
  · have hb := hused.1 hu
    have hT := holdsTree_afterBuild (one_le_leafNodes_length hb)
    obtain ⟨i, p, hbp⟩ := hT.exists_codedBy htree hn hb
    have hleaf := hbp.leaf
    have hle := hT.le
    have hp : p.length ≤ 255 := by have := hT.code_length_le hbp; omega
    refine ⟨i, p, hT.inUse.2 (by omega), hT.descend_iff.2 hbp.path,
      hT.nodeAt_codedBy_internal hbp, hbp.byte, ?_, hT.codePath_eq hbp, fun j hj => ?_,
      fun j hj => ?_⟩
    · rw [hbp.code, codeOfPath_len p hp]
    · rw [hbp.code, codeOfPath_bit p hp, List.getD_eq_getElem p false hj]
    · rw [hbp.code, codeOfPath_bit p hp, List.getD_eq_default p false hj]
  · have hb : s.freqAt b = 0#24 := by
      by_contra hb
      rw [hused.2 hb] at hu
      cases hu
    rw [htree.codeAt_absent hn hb]
    exact ⟨rfl, rfl⟩

end Sys2Proof.Machine
end

section
/-! BUILD of small tables (R132, R136): the present bytes of a table that is 0 elsewhere, and the
code of a byte as any path that leads to its leaf. -/

namespace Sys2Proof.Machine

variable {s : State} {n : Nat} {ns : List Node} {b : Byte} {p : List Bool}

/-- The leaves of a table, by an ascending list of the bytes of non-zero frequency (R130). -/
theorem leafNodes_of_present {l : List Byte} (hl : l.Pairwise (· < ·))
    (hin : ∀ b ∈ l, s.freqAt b ≠ 0#24) (hout : ∀ b, b ∉ l → s.freqAt b = 0#24) :
    leafNodes s.freq = l.map fun b => leafNode b (s.freqAt b) := by
  have hpresent : presentBytes s.freq = l :=
    List.Pairwise.eq_of_mem_iff (r := (· < ·))
      ((presentBytes_sorted s.freq).imp fun h => BitVec.lt_def.2 h) hl
      fun b => mem_presentBytes.trans ⟨fun hb => by_contra fun hbl => hb (hout b hbl), hin b⟩
  rw [leafNodes_eq, hpresent]
  rfl

/-! ### No symbol and one symbol (R132) -/

theorem buildTree_of_all_zero (h : ∀ b, s.freqAt b = 0#24) :
    (buildTree s.freq).tstate = .empty := by
  have hleaves : leafNodes s.freq = [] :=
    leafNodes_of_present List.Pairwise.nil (by simp) fun b _ => h b
  rw [buildTree_empty (by rw [hleaves]; rfl)]

/-- One symbol gives the tree whose only entry is its leaf. -/
theorem afterBuild_of_one (hb : s.freqAt b ≠ 0#24) (hother : ∀ c, c ≠ b → s.freqAt c = 0#24) :
    s.afterBuild.tstate = .single ∧ s.afterBuild.root = 0#9 ∧
      HoldsTree s.afterBuild 1 [leafNode b (s.freqAt b)] := by
  have hleaves : leafNodes s.freq = [leafNode b (s.freqAt b)] :=
    leafNodes_of_present (l := [b]) (List.pairwise_singleton _ _)
      (fun c hc => List.mem_singleton.1 hc ▸ hb)
      fun c hc => hother c fun hcb => hc (List.mem_singleton.2 hcb)
  have hone : (leafNodes s.freq).length = 1 := by rw [hleaves]; rfl
  have hbuild := buildTree_single hone
  have hT := holdsTree_afterBuild (Nat.le_of_eq hone.symm)
  rw [hone, hbuild, hleaves] at hT
  exact ⟨by rw [afterBuild_tstate, hbuild], by rw [afterBuild_root, hbuild], hT⟩

/-- Settles O29: without a symbol no entry is in use; with one the tree is its leaf. -/
theorem buildOfZeroOrOneSymbol : Obligations.BuildOfZeroOrOneSymbol := by
  intro s
  have htree := treeMatchesFreq_afterBuild s
  have hn := afterBuild_tstate_ne_none s
  refine ⟨_, exec_build_afterBuild s, fun hzero => ?_, fun b hb hother => ?_⟩
  · have hts : s.afterBuild.tstate = .empty := buildTree_of_all_zero hzero
    refine ⟨hts, fun i => ?_, fun b => ?_⟩
    · rw [State.inUse, hts]
      rfl
    · rw [htree.codeAt_absent hn (hzero b)]
  · obtain ⟨hts, hroot, hT⟩ := afterBuild_of_one hb hother
    have hnode : s.afterBuild.nodeAt s.afterBuild.root = leafNode b (s.freqAt b) := by
      rw [hroot]
      exact hT.nodeAt (by decide)
    obtain ⟨i, p, hbp⟩ := hT.exists_codedBy htree hn hb
    rw [hnode]
    refine ⟨hts, hroot, rfl, rfl, rfl, (htree.used_iff hn).2 hb, hT.codePath_single hbp,
      fun c hc => ?_⟩
    rw [htree.codeAt_absent hn (hother c hc)]

/-! ### A path to the leaf of a byte is its code (R134, R136) -/

/-- The code of a byte is whatever path leads from ROOT to a leaf of that byte: bytes of leaves are
different, and an entry has one path only. -/
theorem HoldsTree.codePath_of_follow (h : HoldsTree s n ns) (htree : TreeMatchesFreq s)
    (hn : s.tstate ≠ .none) {k : Nat} (hk : k < n) (hb : (builtNode ns k).byte = b)
    (hp : follow ns (2 * n - 2) p = some k) : s.codePath b = p := by
  have hle := h.le
  have hlen := h.length
  have hk9 : (BitVec.ofNat 9 k).toNat = k := by rw [BitVec.toNat_ofNat]; omega
  have hpresent : s.freqAt b ≠ 0#24 := by
    obtain ⟨hleaf, -⟩ := h.leavesMatchFreq
    obtain ⟨hne, -⟩ := hleaf (BitVec.ofNat 9 k) (h.lt_lcount_iff.2 (hk9.symm ▸ hk))
    rwa [h.nodeAt (by omega), hk9, hb] at hne
  obtain ⟨i, q, hbq⟩ := h.exists_codedBy htree hn hpresent
  have hi := hbq.leaf
  have hik : i.toNat = k := by
    have hbyte := hbq.byte
    rw [h.nodeAt (by omega)] at hbyte
    by_contra hne
    exact h.leaf_byte_ne i.toNat (by rw [h.leaves]; exact hi) k (by rw [h.leaves]; exact hk) hne
      (hbyte.trans hb.symm)
  have hroot : LiveIn ns ns.length (2 * n - 2) := (h.merge.live _).1 (List.mem_singleton_self _)
  rw [h.codePath_eq hbq]
  exact h.merge.path_unique hroot.1 hroot.2 q p hbq.path (hik ▸ hp)

/-- The code BUILD gives the byte of leaf k, read off the entries Merge writes over the leaves. -/
theorem codePath_afterBuild {leaves : List Node} (hl : leafNodes s.freq = leaves) {k : Nat}
    (hk : k < leaves.length) (hb : (builtNode (mergeAll leaves).1 k).byte = b)
    (hp : follow (mergeAll leaves).1 (2 * leaves.length - 2) p = some k) :
    s.afterBuild.codePath b = p := by
  subst hl
  have hone : 1 ≤ (leafNodes s.freq).length := by omega
  obtain ⟨hns, -⟩ := buildTree_merge hone
  have hT := holdsTree_afterBuild hone
  rw [hns] at hT
  exact hT.codePath_of_follow (treeMatchesFreq_afterBuild s) (afterBuild_tstate_ne_none s) hk hb hp

/-- Settles O35: in both tables the leaves are known, and Merge and the paths are evaluated. -/
theorem childOrderIsByteOrder : Obligations.ChildOrderIsByteOrder := by
  refine ⟨fun s h97 h98 hother => ?_, fun s h10 h20 h30 hother => ?_⟩
  · have hleaves := leafNodes_of_present (s := s) (l := [97#8, 98#8]) (by decide)
      (by simp [h97, h98]) (by simpa using hother)
    simp only [List.map_cons, List.map_nil, h97, h98] at hleaves
    refine ⟨_, exec_build_afterBuild s, ?_, ?_⟩
    · exact codePath_afterBuild hleaves (k := 0) (by decide) (by decide) (by decide)
    · exact codePath_afterBuild hleaves (k := 1) (by decide) (by decide) (by decide)
  · have hleaves := leafNodes_of_present (s := s) (l := [10#8, 20#8, 30#8]) (by decide)
      (by simp [h10, h20, h30]) (by simpa using hother)
    simp only [List.map_cons, List.map_nil, h10, h20, h30] at hleaves
    refine ⟨_, exec_build_afterBuild s, ?_, ?_, ?_⟩
    · exact codePath_afterBuild hleaves (k := 0) (by decide) (by decide) (by decide)
    · exact codePath_afterBuild hleaves (k := 1) (by decide) (by decide) (by decide)
    · exact codePath_afterBuild hleaves (k := 2) (by decide) (by decide) (by decide)

end Sys2Proof.Machine
end

section
/-! The bounds of a tree (R139, R7, R8, R9, R17): the working set of Merge always weighs what FREQ
does, and ROOT is all of it at the end. -/

namespace Sys2Proof.Machine

variable {leaves ns : List Node} {w : List Nat} {s : State} {n m j : Nat}

/-! ### The weight of the working set -/

/-- A merge keeps the weight of the working set, since its sum is exact. -/
theorem MergeState.liveWeight_eq (h : MergeState leaves ns w) (hn : leaves.length ≤ 256)
    (hleaf : ∀ i < leaves.length, freqNat ns i < 2 ^ 24) (hlm : leaves.length ≤ m)
    (hm : m ≤ ns.length) : liveWeight ns m = liveWeight ns leaves.length := by
  induction m, hlm using Nat.le_induction with
  | base => rfl
  | succ m hlm ih =>
    obtain ⟨rest, hbefore, hafter⟩ := h.liveWeight_merge (by omega) (h.merged m hlm (by omega))
    calc liveWeight ns (m + 1) = freqNat ns m + rest := hafter
      _ = liveWeight ns m := by rw [hbefore, h.freqNat_eq hn hleaf hlm (by omega)]
      _ = liveWeight ns leaves.length := ih (by omega)

theorem LiveIn.freqNat_le (h : LiveIn ns m j) : freqNat ns j ≤ liveWeight ns m :=
  Finset.single_le_sum (f := freqNat ns) (fun _ _ => Nat.zero_le _) (mem_liveSet.2 h)

/-- Every entry is in the working set once it and the leaves are written. -/
theorem MergeState.liveIn_max (h : MergeState leaves ns w) (hj : j < ns.length) :
    LiveIn ns (max leaves.length (j + 1)) j := by
  obtain ⟨xs, hxs⟩ := h.pre
  have hlen := congrArg List.length hxs
  rw [List.length_append] at hlen
  refine ⟨by omega, fun i hi hc => ?_⟩
  have hlt := h.child_lt (by omega) hc
  have hil := (h.internal_iff (by omega)).1 hc.1
  omega

/-- At the end the working set is the one entry left. -/
theorem MergeState.liveWeight_length {r : Nat} (h : MergeState leaves ns [r]) :
    liveWeight ns ns.length = freqNat ns r := by
  have hset : liveSet ns ns.length = {r} := by
    ext j
    rw [mem_liveSet, ← h.live j, List.mem_singleton, Finset.mem_singleton]
  rw [liveWeight, hset, Finset.sum_singleton]

/-- Before the first merge the working set is the leaves. -/
theorem MergeState.liveWeight_leaves (h : MergeState leaves ns w) :
    liveWeight ns leaves.length = ((List.range leaves.length).map (freqNat ns)).sum := by
  have hset : liveSet ns leaves.length = Finset.range leaves.length := by
    ext j
    rw [mem_liveSet, Finset.mem_range]
    refine ⟨fun hj => hj.1, fun hj => ⟨hj, fun i hi hc => ?_⟩⟩
    have hint := hc.1
    rw [h.leaf_entry hi] at hint
    cases hint
  rw [liveWeight, hset]
  rfl

/-! ### The weight of FREQ -/

/-- The sum of all entries of FREQ. -/
def State.total (s : State) : Nat := (allBytes.map fun b => (s.freqAt b).toNat).sum

/-- The bytes of frequency 0 add nothing to the sum. -/
theorem total_eq_sum_presentBytes (s : State) :
    s.total = ((presentBytes s.freq).map fun b => (s.freqAt b).toNat).sum := by
  have hsplit := List.sum_map_filter_add_sum_map_filter_not (fun b => s.freqAt b != 0#24)
    (fun b => (s.freqAt b).toNat) allBytes
  have habsent : ((allBytes.filter fun b => ¬ (s.freqAt b != 0#24)).map
      fun b => (s.freqAt b).toNat).sum = 0 := by
    refine List.sum_eq_zero fun x hx => ?_
    obtain ⟨b, hb, rfl⟩ := List.mem_map.1 hx
    have hzero : s.freqAt b = 0#24 := by simpa using (List.mem_filter.1 hb).2
    rw [hzero]
    rfl
  simp only [habsent, Nat.add_zero, Bool.decide_eq_true] at hsplit
  exact hsplit.symm

theorem total_le (h : FreqBounded s) : s.total ≤ 256 * (2 ^ s.params.fw - 1) := by
  have hsum := List.sum_le_card_nsmul (allBytes.map fun b => (s.freqAt b).toNat)
    (2 ^ s.params.fw - 1) fun x hx => by
      obtain ⟨b, -, rfl⟩ := List.mem_map.1 hx
      exact Nat.le_sub_one_of_lt (h b)
  rwa [List.length_map, allBytes, List.length_map, List.length_range, smul_eq_mul] at hsum

/-- The leaves weigh what FREQ does. -/
theorem HoldsTree.liveWeight_leaves (h : HoldsTree s n ns) : liveWeight ns n = s.total := by
  have hleaf : (List.range n).map (freqNat ns) =
      (presentBytes s.freq).map fun b => (s.freqAt b).toNat := by
    have hone : 1 ≤ (leafNodes s.freq).length := by rw [h.leaves]; exact h.one_le
    refine List.ext_getElem (by simp [h.presentBytes_length]) fun i hi hi' => ?_
    rw [List.length_map] at hi'
    rw [List.getElem_map, List.getElem_range, List.getElem_map, freqNat, ← h.entries,
      (buildTree_merge hone).1, builtNode_mergeAll hone hi']
    exact BitVec.toNat_setWidth_of_le (by decide)
  rw [total_eq_sum_presentBytes, ← hleaf, ← h.leaves, h.merge.liveWeight_leaves]

/-- So does the working set at every later point. -/
theorem HoldsTree.liveWeight_eq (h : HoldsTree s n ns) (hnm : n ≤ m) (hm : m ≤ 2 * n - 1) :
    liveWeight ns m = s.total := by
  have hle := h.le
  rw [← h.liveWeight_leaves]
  have heq := h.merge.liveWeight_eq (m := m) (by rw [h.leaves]; exact hle) h.leaf_freqNat_lt
    (by rw [h.leaves]; exact hnm) (by rw [h.length]; exact hm)
  rwa [h.leaves] at heq

/-- ROOT's frequency is the sum of all FREQ entries (R139). -/
theorem HoldsTree.root_freq (h : HoldsTree s n ns) : (s.nodeAt s.root).freq.toNat = s.total := by
  have hone := h.one_le
  rw [h.nodeAt (by rw [h.root]; omega), h.root, ← h.liveWeight_eq (m := ns.length)
    (by rw [h.length]; omega) (by rw [h.length]), h.merge.liveWeight_length]
  rfl

/-- No node frequency exceeds it. -/
theorem HoldsTree.freq_le_total (h : HoldsTree s n ns) {i : NodeIdx} (hi : s.inUse i = true) :
    (s.nodeAt i).freq.toNat ≤ s.total := by
  have hlt := h.inUse.1 hi
  have hlive := h.merge.liveIn_max (j := i.toNat) (by rw [h.length]; exact hlt)
  rw [h.leaves] at hlive
  rw [h.nodeAt hlt]
  exact hlive.freqNat_le.trans_eq (h.liveWeight_eq (by omega) (by omega))

/-! ### Codes and the walk -/

/-- A code of n leaves has at most n − 1 bits. -/
theorem HoldsTree.len_le (h : HoldsTree s n ns) (htree : TreeMatchesFreq s)
    (hn : s.tstate ≠ .none) {b : Byte} (hb : (s.codeAt b).used = true) :
    (s.codeAt b).len.toNat ≤ n - 1 := by
  obtain ⟨i, p, hbp⟩ := h.exists_codedBy htree hn ((htree.used_iff hn).1 hb)
  have hle := h.le
  have hp := h.code_length_le hbp
  rw [hbp.code, codeOfPath_len p (by omega)]
  exact hp

/-- A walk on a MULTI tree is at most n − 2 deep. -/
theorem Inv.walkDepth_le (h : Inv s) (hm : s.tstate = .multi) :
    s.walkDepth.toNat ≤ s.lcount.toNat - 2 := by
  obtain ⟨-, -, -, htree, hwalk⟩ := h
  have hT := htree.holdsTree (.inr hm)
  obtain ⟨hint, q, hq, hpath⟩ := (hT.walkOk_iff hm).1 hwalk
  rw [← hq, hT.lcount]
  exact (hT.follow_bounds hpath).2 hint

/-- A DEC_BIT that moves goes exactly one deeper: the walk before it is at most 254 deep, so
WALK_DEPTH does not wrap (R17), and the walk after it is a walk again. -/
theorem Inv.decBit_depth (h : Inv s) (hm : s.tstate = .multi) (bit : Bool) :
    ∃ t, exec (.decBit bit) s = .next t ∧ (t.symValid = false →
      t.walkDepth.toNat = s.walkDepth.toNat + 1 ∧ t.walkDepth.toNat ≤ 254) := by
  have hdepth := h.walkDepth_le hm
  have ⟨_, _, _, htree, _⟩ := h
  have hT := htree.holdsTree (.inr hm)
  have hle := hT.le
  have hlcount := hT.lcount
  have hexact : (s.walkDepth + 1#8).toNat = s.walkDepth.toNat + 1 := by
    rw [BitVec.toNat_add, BitVec.toNat_ofNat]
    omega
  cases hc : (s.nodeAt ((s.nodeAt s.walkNode).child bit)).internal with
  | true =>
    have hafter : (s.walkDepth + 1#8).toNat ≤ s.lcount.toNat - 2 :=
      (inv_of_ran h (.decBit_internal hm hc)).walkDepth_le hm
    exact ⟨_, exec_decBit_internal hm hc, fun _ => ⟨hexact, hafter.trans (by omega)⟩⟩
  | false => exact ⟨_, exec_decBit_leaf hm hc, fun hsym => nomatch hsym⟩

/-- Settles O38: ROOT carries the weight of FREQ, of which every entry has a part; the rest are the
lengths of paths. -/
theorem treeBounds : Obligations.TreeBounds := by
  intro s h ht
  have ⟨_, hfreq, _, htree, _⟩ := h
  have hT := htree.holdsTree ht
  have hle := hT.le
  have hncount := hT.ncount
  have hlcount := hT.lcount
  have hwide : 256 * (2 ^ s.params.fw - 1) < 2 ^ (s.params.fw + 8) := by
    have hpos := Nat.two_pow_pos s.params.fw
    rw [Nat.pow_add]
    omega
  refine ⟨⟨total_le hfreq, hwide, hT.root_freq, fun i hi => hT.freq_le_total hi⟩, by omega,
    fun b hb => ?_, h.walkDepth_le, by omega, by omega, h.decBit_depth⟩
  rw [hlcount]
  exact hT.len_le htree (ne_none_of_tree ht) hb

end Sys2Proof.Machine
end

section
/-! The encoder (R160, R161): ENCODE on each of its paths, and encoding a buffer, in which every
command after BUILD only reads FREQ and the tree. -/

namespace Sys2Proof.Machine

variable {s t u : State} {x b c : Byte} {buffer : List Byte}

/-! ### ENCODE -/

/-- Settles O24: the three paths of ENCODE; the returned length is zero-extended. -/
theorem encodeReturnsCode : Obligations.EncodeReturnsCode := by
  intro s sym
  refine ⟨fun w => decode_eq_ok_iff_word .encode rfl (by decide),
    fun hn => ⟨_, exec_notBuilt hn _ (.inl ⟨sym, rfl⟩), rfl⟩,
    fun hn hu => ⟨_, exec_encode_unused hn hu, rfl⟩,
    fun hn hu => ⟨_, exec_encode_used hn hu, ?_, fun _ => rfl, rfl⟩⟩
  exact BitVec.toNat_setWidth_of_le (by decide)

/-! ### Commands that only read FREQ and the tree -/

/-- From s to t FREQ and the tree are kept, and t reports no error. -/
structure ReadsOnly (s t : State) : Prop where
  freq : t.freq = s.freq
  tree : SameTree s t
  lastErr : t.lastErr = 0#8

theorem ReadsOnly.refl (h : s.lastErr = 0#8) : ReadsOnly s s := ⟨rfl, sameTree_refl s, h⟩

theorem ReadsOnly.trans (h : ReadsOnly s t) (h' : ReadsOnly t u) : ReadsOnly s u := by
  obtain ⟨hts, hnodes, hroot, hncount, hlcount, hcodes⟩ := h.tree
  obtain ⟨hts', hnodes', hroot', hncount', hlcount', hcodes'⟩ := h'.tree
  exact ⟨h'.freq.trans h.freq, ⟨hts'.trans hts, hnodes'.trans hnodes, hroot'.trans hroot,
    hncount'.trans hncount, hlcount'.trans hlcount, hcodes'.trans hcodes⟩, h'.lastErr⟩

theorem ReadsOnly.tstate (h : ReadsOnly s t) : t.tstate = s.tstate := h.tree.1

theorem ReadsOnly.codeAt (h : ReadsOnly s t) (b : Byte) : t.codeAt b = s.codeAt b := by
  obtain ⟨-, -, -, -, -, hcodes⟩ := h.tree
  exact codeAt_congr hcodes b

theorem ReadsOnly.codePath (h : ReadsOnly s t) : t.codePath = s.codePath :=
  funext fun b => by rw [State.codePath, h.codeAt]; rfl

/-! ### The header's pairs (R254) -/

theorem issue_readFreq (b : Byte) (s : State) :
    issue (.readFreq b) s =
      clearPending (complete false { s with res0 := (s.freqAt b).setWidth 32 }) :=
  (issue_of_exec (exec_readFreq b _)).trans rfl

theorem readsOnly_issue_readFreq (b : Byte) (s : State) : ReadsOnly s (issue (.readFreq b) s) := by
  rw [issue_readFreq]
  exact ⟨rfl, sameTree_refl s, rfl⟩

theorem readsOnly_readPairs (bytes : List Byte) : ∀ {s : State}, s.lastErr = 0#8 →
    ReadsOnly s (readPairs bytes s).1 := by
  induction bytes with
  | nil => exact ReadsOnly.refl
  | cons b rest ih =>
    intro s _
    have hread := readsOnly_issue_readFreq b s
    exact hread.trans (ih hread.lastErr)

/-- The pairs are the bytes of non-zero frequency with their frequencies. -/
theorem readPairs_pairs (bytes : List Byte) : ∀ s : State, (readPairs bytes s).2 =
    (bytes.filter fun b => s.freqAt b != 0#24).map fun b => (b, (s.freqAt b).toNat) := by
  induction bytes with
  | nil => exact fun _ => rfl
  | cons b rest ih =>
    intro s
    have hfreq : (issue (.readFreq b) s).freqAt = s.freqAt :=
      funext (freqAt_congr (readsOnly_issue_readFreq b s).freq)
    have hval : (issue (.readFreq b) s).res0.toNat = (s.freqAt b).toNat := by
      rw [issue_readFreq]
      exact BitVec.toNat_setWidth_of_le (by decide)
    have hzero : (issue (.readFreq b) s).res0 = 0#32 ↔ s.freqAt b = 0#24 := by
      rw [← BitVec.toNat_inj, ← BitVec.toNat_inj, hval]
      rfl
    simp only [readPairs, ih, hfreq, hval, hzero]
    by_cases hb : s.freqAt b = 0#24 <;> simp [hb]

/-! ### The code string (R161) -/

theorem issue_encode_used (hn : s.tstate ≠ .none) (hu : (s.codeAt x).used = true) :
    issue (.encode x) s = clearPending (complete false
      { s with res0 := (s.codeAt x).len.setWidth 32, codewin := (s.codeAt x).bits }) :=
  (issue_of_exec (exec_encode_used hn hu)).trans rfl

theorem readsOnly_issue_encode (hn : s.tstate ≠ .none) (hu : (s.codeAt x).used = true) :
    ReadsOnly s (issue (.encode x) s) := by
  rw [issue_encode_used hn hu]
  exact ⟨rfl, sameTree_refl s, rfl⟩

/-- The bits ENCODE returns are the code of its byte. -/
theorem codeBits_issue_encode (hn : s.tstate ≠ .none) (hu : (s.codeAt x).used = true) :
    (issue (.encode x) s).codeBits = s.codePath x := by
  have hlen : ((s.codeAt x).len.setWidth 32).toNat = (s.codeAt x).len.toNat :=
    BitVec.toNat_setWidth_of_le (by decide)
  rw [issue_encode_used hn hu, State.codePath, CodeEntry.path, ← hlen]
  rfl

theorem res0_eq_zero_of_codeBits_nil (h : s.codeBits = []) : s.res0 = 0#32 := by
  have hlen := congrArg List.length h
  rw [State.codeBits, List.length_map, List.length_range] at hlen
  exact BitVec.eq_of_toNat_eq hlen

/-- Encoding bytes that have codes only reads the tree and gives their codes in order. -/
theorem encodeSymbols_of_used (buffer : List Byte) : ∀ {s : State}, s.lastErr = 0#8 →
    s.tstate ≠ .none → (∀ x ∈ buffer, (s.codeAt x).used = true) →
    ReadsOnly s (encodeSymbols buffer s).1 ∧
      (encodeSymbols buffer s).2 = buffer.flatMap s.codePath := by
  induction buffer with
  | nil => exact fun herr _ _ => ⟨.refl herr, rfl⟩
  | cons x rest ih =>
    intro s _ hn hused
    rw [List.forall_mem_cons] at hused
    obtain ⟨hx, hrest⟩ := hused
    have hread := readsOnly_issue_encode hn hx
    obtain ⟨hreads, hcode⟩ := ih hread.lastErr (by rwa [hread.tstate])
      fun y hy => by rw [hread.codeAt]; exact hrest y hy
    refine ⟨hread.trans hreads, ?_⟩
    rw [encodeSymbols, List.flatMap_cons, ← codeBits_issue_encode hn hx, ← hread.codePath, ← hcode]

/-- After the codes of any bytes before it, ENCODE of a byte still returns its code. -/
theorem encode_after_encodeSymbols {pre : List Byte} (herr : s.lastErr = 0#8)
    (hn : s.tstate ≠ .none) (hpre : ∀ y ∈ pre, (s.codeAt y).used = true)
    (hx : (s.codeAt x).used = true) :
    ReadsOnly s (issue (.encode x) (encodeSymbols pre s).1) ∧
      (issue (.encode x) (encodeSymbols pre s).1).codeBits = s.codePath x := by
  obtain ⟨hreads, -⟩ := encodeSymbols_of_used pre herr hn hpre
  rw [← hreads.tstate] at hn
  rw [← hreads.codeAt] at hx
  exact ⟨hreads.trans (readsOnly_issue_encode hn hx),
    (codeBits_issue_encode hn hx).trans (congrFun hreads.codePath x)⟩

/-! ### The trees of no, one and more symbols (R132) -/

theorem treeMatchesFreq_issue_build (s : State) : TreeMatchesFreq (issue .build s) :=
  (treeMatchesFreq_afterBuild { s with pending := some (encode .build) }).congr rfl
    (sameTree_refl _)

/-- Two symbols give a MULTI tree. -/
theorem buildTree_of_two (hb : s.freqAt b ≠ 0#24) (hc : s.freqAt c ≠ 0#24) (hbc : b ≠ c) :
    (buildTree s.freq).tstate = .multi := by
  have hsub : [b, c] ⊆ presentBytes s.freq := by
    simpa using And.intro (mem_presentBytes.2 hb) (mem_presentBytes.2 hc)
  have htwo : 2 ≤ (presentBytes s.freq).length :=
    (List.Nodup.subperm (by simpa using hbc) hsub).length_le
  exact (buildTree_multi (by rwa [leafNodes_length])).1

/-- On a SINGLE tree every code is empty (R132). -/
theorem TreeMatchesFreq.codePath_single (h : TreeMatchesFreq s) (hs : s.tstate = .single)
    (hu : (s.codeAt b).used = true) : s.codePath b = [] := by
  have hn := ne_none_of_tree (.inl hs)
  have hT := h.holdsTree (.inl hs)
  obtain ⟨hts, -⟩ := h.built hn
  rw [(leafNodes_length_of_tstate s.freq).2.1 (hts.symm.trans hs)] at hT
  obtain ⟨i, p, hbp⟩ := hT.exists_codedBy h hn ((h.used_iff hn).1 hu)
  exact hT.codePath_single hbp

/-- On an EMPTY tree no byte has a code (R132). -/
theorem TreeMatchesFreq.codeAt_empty (h : TreeMatchesFreq s) (he : s.tstate = .empty) :
    (s.codeAt b).used = false := by
  have hn : s.tstate ≠ .none := by rw [he]; decide
  obtain ⟨hts, -⟩ := h.built hn
  have hnone := (leafNodes_length_of_tstate s.freq).1 (hts.symm.trans he)
  by_contra hu
  have hone := one_le_leafNodes_length ((h.used_iff hn).1 (Bool.eq_true_of_not_eq_false hu))
  omega

/-! ### FREQ of a counted buffer -/

/-- Exactly the bytes of a counted buffer are present in FREQ. -/
theorem freqAt_ne_zero_iff_mem (h : (s.freqAt b).toNat = buffer.count b) :
    s.freqAt b ≠ 0#24 ↔ b ∈ buffer := by
  rw [← List.count_pos_iff, ← h, Nat.pos_iff_ne_zero, ne_eq, ← BitVec.toNat_inj]
  rfl

theorem freqAt_eq_zero_of_nil (h : ∀ b, (s.freqAt b).toNat = [].count b) (b : Byte) :
    s.freqAt b = 0#24 :=
  BitVec.eq_of_toNat_eq (h b)

theorem freqAt_ne_zero_iff_eq (h : ∀ b, (s.freqAt b).toNat = buffer.count b) (hne : buffer ≠ [])
    (hall : ∀ b ∈ buffer, b = x) (b : Byte) : s.freqAt b ≠ 0#24 ↔ b = x := by
  obtain ⟨y, hy⟩ := List.exists_mem_of_ne_nil buffer hne
  exact (freqAt_ne_zero_iff_mem (h b)).trans ⟨hall b, fun hb => hb ▸ hall y hy ▸ hy⟩

/-- The header of a buffer of one distinct byte is its one pair. -/
theorem pairs_of_one (h : ∀ b, s.freqAt b ≠ 0#24 ↔ b = x) :
    ((allBytes.filter fun b => s.freqAt b != 0#24).map fun b => (b, (s.freqAt b).toNat)) =
      [(x, (s.freqAt x).toNat)] := by
  have hbeq (b : Byte) : (s.freqAt b != 0#24) = (b == x) :=
    Bool.eq_iff_iff.2 (by simpa using h b)
  rw [funext hbeq, List.filter_beq, List.count_eq_one_of_mem allBytes_nodup (mem_allBytes x)]
  rfl

/-! ### EncodeBuffer (R253) -/

/-- When every byte of the buffer has a code, the host's test for an EMPTY tree makes no difference:
there is nothing to encode then. -/
theorem encodeBuffer_of_used {counted : State} (h : TreeMatchesFreq s)
    (hc : countBuffer buffer (issue .clearFreq t) = .ok counted)
    (hs : (readPairs allBytes (issue .build counted)).1 = s)
    (hused : ∀ x ∈ buffer, (s.codeAt x).used = true) :
    encodeBuffer buffer t = .ok ((encodeSymbols buffer s).1,
      (readPairs allBytes (issue .build counted)).2, (encodeSymbols buffer s).2) := by
  simp only [encodeBuffer, hc, hs]
  split
  · next he =>
    have hnil : buffer = [] := List.eq_nil_iff_forall_not_mem.2 fun x hx => by
      have hx' := hused x hx
      rw [h.codeAt_empty he] at hx'
      cases hx'
    rw [hnil]
    rfl
  · rfl

/-- Settles O40: the commands after BUILD only read FREQ and the tree, in which exactly the bytes of
the buffer have codes. -/
theorem encodingABuffer : Obligations.EncodingABuffer := by
  intro s buffer hp hfit
  obtain ⟨counted, hcounted, hcount⟩ := (countingABuffer s buffer hp).1 hfit
  obtain ⟨r, hr⟩ : ∃ r, (readPairs allBytes (issue .build counted)).1 = r := ⟨_, rfl⟩
  have hbuild : ReadsOnly (issue .build counted) r := hr ▸ readsOnly_readPairs allBytes rfl
  have htree : TreeMatchesFreq r :=
    (treeMatchesFreq_issue_build counted).congr hbuild.freq hbuild.tree
  have hts : r.tstate = (buildTree counted.freq).tstate := hbuild.tstate
  have hn : r.tstate ≠ .none := hts ▸ afterBuild_tstate_ne_none counted
  have hpresent (b : Byte) (hb : b ∈ buffer) : counted.freqAt b ≠ 0#24 :=
    (freqAt_ne_zero_iff_mem (hcount b)).2 hb
  have hused (x : Byte) (hx : x ∈ buffer) : (r.codeAt x).used = true :=
    (htree.used_iff hn).2 (freqAt_congr hbuild.freq x ▸ hpresent x hx)
  have hheader : (readPairs allBytes (issue .build counted)).2 =
      (allBytes.filter fun b => counted.freqAt b != 0#24).map
        fun b => (b, (counted.freqAt b).toNat) := readPairs_pairs allBytes (issue .build counted)
  obtain ⟨ht, hcode⟩ := encodeSymbols_of_used buffer hbuild.lastErr hn hused
  refine ⟨counted, _, _, _, hcounted, encodeBuffer_of_used htree hcounted hr hused, ht.lastErr,
    by rw [hcode, ht.codePath], fun pre x rest hsplit => ⟨_, rfl, ?_⟩, fun hnil => ?_,
    fun x hne hall => ?_, fun b hb c hc hbc => ?_⟩
  · have hx := hused x (by simp [hsplit])
    obtain ⟨hu, hbits⟩ := encode_after_encodeSymbols (pre := pre) hbuild.lastErr hn
      (fun y hy => hused y (by simp [hsplit, hy])) hx
    rw [hr, ht.codePath, hu.codeAt]
    refine ⟨hu.lastErr, hx, hbits, fun hs => res0_eq_zero_of_codeBits_nil ?_⟩
    rw [hbits, htree.codePath_single (hu.tstate ▸ hs) hx]
  · subst hnil
    have hzero := freqAt_eq_zero_of_nil hcount
    refine ⟨by rw [ht.tstate, hts, buildTree_of_all_zero hzero], ?_, rfl⟩
    rw [hheader, List.filter_eq_nil_iff.2 fun b _ => by simpa using hzero b]
    rfl
  · have honly := freqAt_ne_zero_iff_eq hcount hne hall
    obtain ⟨hsingle, -⟩ := afterBuild_of_one ((honly x).2 rfl)
      fun b hb => not_not.1 fun h => hb ((honly b).1 h)
    have hrs : r.tstate = .single := hts.trans hsingle
    refine ⟨ht.tstate.trans hrs, ?_, ?_⟩
    · rw [hheader, pairs_of_one honly, hcount x,
        List.count_eq_length.2 fun b hb => (hall b hb).symm]
    · rw [hcode, List.flatMap_eq_nil_iff]
      exact fun b hb => htree.codePath_single hrs (hused b hb)
  · rw [ht.tstate, hts]
    exact buildTree_of_two (hpresent b hb) (hpresent c hc) hbc

end Sys2Proof.Machine
end

section
/-! The decoder commands (R171–R174): each command in each tree state, and decoding a string of
codes, in which every DEC_BIT is one step down the path from ROOT. -/

namespace Sys2Proof.Machine

variable {s t : State} {x y : Byte} {q r bits : List Bool}

/-! ### DEC_RESET, DEC_BIT and DEC_END -/

/-- Settles O25: with a tree DEC_RESET is a return to the root and completion. -/
theorem decResetReturnsToRoot : Obligations.DecResetReturnsToRoot := by
  refine ⟨fun w => decode_eq_ok_iff, fun s => ⟨fun hn => ?_, exec_decReset_ok⟩⟩
  exact ⟨_, exec_notBuilt hn _ (.inr (.inl rfl)), rfl⟩

/-- Settles O26: one path of DEC_BIT for each tree state, and on a MULTI tree one for each kind of
child. -/
theorem decBitWalksOrEmits : Obligations.DecBitWalksOrEmits := by
  refine ⟨fun w => decode_eq_ok_iff, fun w => decode_eq_ok_iff, fun s bit => ⟨fun hn => ?_,
    fun hs => ⟨_, exec_decBit_single bit hs, rfl⟩, exec_decBit_empty bit, fun hm ch hch => ?_⟩⟩
  · exact ⟨_, exec_notBuilt hn _ (.inr (.inr (.inl ⟨bit, rfl⟩))), rfl⟩
  · subst hch
    exact ⟨exec_decBit_internal hm, exec_decBit_leaf hm⟩

/-- Settles O27: one path of DEC_END for each tree state, and on a MULTI tree one for a walk at the
root and one for a walk below it. -/
theorem decEndReportsTheEnd : Obligations.DecEndReportsTheEnd := by
  refine ⟨fun w => decode_eq_ok_iff, fun s => ⟨fun hn => ?_,
    fun hm hd => ⟨_, exec_decEnd_truncated hm hd, rfl⟩, exec_decEnd_single, exec_decEnd_atRoot⟩⟩
  exact ⟨_, exec_notBuilt hn _ (.inr (.inr (.inr rfl))), rfl⟩

/-! ### Issuing a command -/

/-- The host's issue of a command is a step of the engine, so it keeps the invariant. -/
theorem inv_issue (h : Inv s) (i : Instr) : Inv (issue i s) := by
  have ⟨_, _, herr, _, _⟩ := h
  have hpending : Inv { s with pending := some (encode i) } :=
    h.of_sameWalk rfl rfl (sameTree_refl s) (sameWalk_refl s) herr
  exact inv_engineStep hpending (issue_eq i s)

/-- DEC_BIT whose child is internal goes one deeper (R172). -/
theorem issue_decBit_internal {bit : Bool} (hm : s.tstate = .multi)
    (hc : (s.nodeAt ((s.nodeAt s.walkNode).child bit)).internal = true) :
    issue (.decBit bit) s = clearPending (complete false
      { s with
        walkNode := (s.nodeAt s.walkNode).child bit, walkDepth := s.walkDepth + 1#8 }) :=
  (issue_of_exec (exec_decBit_internal hm hc)).trans rfl

/-- DEC_BIT whose child is a leaf emits its byte and returns to the root (R172). -/
theorem issue_decBit_leaf {bit : Bool} (hm : s.tstate = .multi)
    (hc : (s.nodeAt ((s.nodeAt s.walkNode).child bit)).internal = false) :
    issue (.decBit bit) s = clearPending (complete true (walkToRoot
      { s with res0 := (s.nodeAt ((s.nodeAt s.walkNode).child bit)).byte.setWidth 32 })) :=
  (issue_of_exec (exec_decBit_leaf hm hc)).trans rfl

/-- RES0[7:0] of a zero-extended byte is the byte. -/
theorem symOf_setWidth (b : Byte) : symOf (b.setWidth 32) = b := field_top b rfl (by decide)

/-! ### The path of the walk -/

/-- The walk of the MULTI tree of s has come along q from ROOT (R42 (g)). -/
structure WalksAt (s : State) (q : List Bool) : Prop where
  inv : Inv s
  multi : s.tstate = .multi
  path : follow (buildTree s.freq).nodes (2 * (leafNodes s.freq).length - 2) q =
    some s.walkNode.toNat

theorem WalksAt.tree (h : WalksAt s q) : TreeMatchesFreq s :=
  have ⟨_, _, _, htree, _⟩ := h.inv
  htree

theorem WalksAt.holdsTree (h : WalksAt s q) :
    HoldsTree s (leafNodes s.freq).length (buildTree s.freq).nodes :=
  h.tree.holdsTree (.inr h.multi)

/-- The walk stands on an internal entry; it has come along one path only, so WALK_DEPTH is the
length of that path. -/
theorem WalksAt.walk (h : WalksAt s q) :
    (leafNodes s.freq).length ≤ s.walkNode.toNat ∧ q.length = s.walkDepth.toNat := by
  obtain ⟨-, -, -, -, hwalk⟩ := h.inv
  have hT := h.holdsTree
  obtain ⟨hint, p, hp, hpath⟩ := (hT.walkOk_iff h.multi).1 hwalk
  have hroot := (hT.merge.live _).1 (List.mem_singleton_self _)
  rw [hT.merge.path_unique hroot.1 hroot.2 q p h.path hpath]
  exact ⟨hint, hp⟩

/-- A walk of depth 0 is at the root, at the end of the empty path. -/
theorem walksAt_nil (h : Inv s) (hm : s.tstate = .multi) (hd : s.walkDepth = 0#8) :
    WalksAt s [] := by
  have ⟨_, _, _, htree, hwalk⟩ := h
  obtain ⟨-, p, hp, hpath⟩ := ((htree.holdsTree (.inr hm)).walkOk_iff hm).1 hwalk
  rw [hd] at hp
  exact ⟨h, hm, List.length_eq_zero_iff.1 hp ▸ hpath⟩

/-- The path one bit longer leads to the child of the walk's entry. -/
theorem WalksAt.follow_child (h : WalksAt s q) (bit : Bool) :
    follow (buildTree s.freq).nodes (2 * (leafNodes s.freq).length - 2) (q ++ [bit]) =
      some ((s.nodeAt s.walkNode).child bit).toNat := by
  have hT := h.holdsTree
  obtain ⟨hint, -⟩ := h.walk
  obtain ⟨hlt, -⟩ := hT.follow_bounds h.path
  have hint' := (hT.internal_iff hlt).2 hint
  rw [hT.nodeAt hlt] at hint' ⊢
  exact follow_snoc.2 ⟨_, h.path, hint', rfl⟩

/-- The path to a leaf is the code of its byte. -/
theorem WalksAt.codePath_child (h : WalksAt s q) {bit : Bool}
    (hc : (s.nodeAt ((s.nodeAt s.walkNode).child bit)).internal = false) :
    (s.codeAt (s.nodeAt ((s.nodeAt s.walkNode).child bit)).byte).used = true ∧
      s.codePath (s.nodeAt ((s.nodeAt s.walkNode).child bit)).byte = q ++ [bit] := by
  have hT := h.holdsTree
  have hn := ne_none_of_tree (.inr h.multi)
  have hpath := h.follow_child bit
  obtain ⟨hlt, -⟩ := hT.follow_bounds hpath
  have hleaf := hT.internal_iff hlt
  rw [hc] at hleaf
  have hk : ((s.nodeAt s.walkNode).child bit).toNat < (leafNodes s.freq).length := by
    by_contra hge
    cases hleaf.2 (Nat.le_of_not_lt hge)
  obtain ⟨hpresent, -⟩ := hT.leavesMatchFreq
  obtain ⟨hne, -⟩ := hpresent _ (hT.lt_lcount_iff.2 hk)
  exact ⟨(h.tree.used_iff hn).2 hne,
    hT.codePath_of_follow h.tree hn hk (congrArg Node.byte (hT.nodeAt hlt).symm) hpath⟩

/-- No code is the beginning of the path of the walk: a code ends at a leaf. -/
theorem WalksAt.not_code_prefix (h : WalksAt s q) (hx : (s.codeAt x).used = true) :
    ¬ s.codePath x <+: q := by
  rintro ⟨z, rfl⟩
  have hT := h.holdsTree
  have hn := ne_none_of_tree (.inr h.multi)
  obtain ⟨i, p, hxp⟩ := hT.exists_codedBy h.tree hn ((h.tree.used_iff hn).1 hx)
  have hi := hxp.leaf
  have hleaf := hT.nodeAt_codedBy_internal hxp
  rw [hT.nodeAt (by omega)] at hleaf
  have hrest := h.path
  rw [hT.codePath_eq hxp, follow_append, hxp.path] at hrest
  obtain ⟨-, hwi⟩ := follow_of_leaf hleaf hrest
  obtain ⟨hint, -⟩ := h.walk
  omega

/-- A code that begins another is that other one (R138). -/
theorem WalksAt.code_eq_of_prefix (h : WalksAt s q) (x y : Byte) (hx : (s.codeAt x).used = true)
    (hy : (s.codeAt y).used = true) (hpre : s.codePath x <+: s.codePath y) : x = y := by
  by_contra hne
  obtain ⟨hfree, -⟩ := codesArePrefixFree s h.inv
  obtain ⟨-, hx⟩ := hfree h.multi x hx
  obtain ⟨-, hno⟩ := hx y hy (Ne.symm hne)
  exact hno hpre

/-! ### One DEC_BIT -/

/-- A DEC_BIT lengthens the path by its bit, or completes a code and emits its byte. -/
theorem WalksAt.issue_decBit (h : WalksAt s q) (bit : Bool) :
    ReadsOnly s (issue (.decBit bit) s) ∧
      (((issue (.decBit bit) s).symValid = false ∧ WalksAt (issue (.decBit bit) s) (q ++ [bit])) ∨
        ∃ x, (issue (.decBit bit) s).symValid = true ∧ symOf (issue (.decBit bit) s).res0 = x ∧
          WalksAt (issue (.decBit bit) s) [] ∧ (s.codeAt x).used = true ∧
          s.codePath x = q ++ [bit]) := by
  have hinv := inv_issue h.inv (.decBit bit)
  cases hc : (s.nodeAt ((s.nodeAt s.walkNode).child bit)).internal with
  | true =>
    rw [issue_decBit_internal h.multi hc] at hinv ⊢
    exact ⟨⟨rfl, sameTree_refl s, rfl⟩,
      .inl ⟨rfl, hinv, h.multi, h.follow_child bit⟩⟩
  | false =>
    obtain ⟨hused, hcode⟩ := h.codePath_child hc
    rw [issue_decBit_leaf h.multi hc] at hinv ⊢
    exact ⟨⟨rfl, sameTree_refl s, rfl⟩,
      .inr ⟨_, rfl, symOf_setWidth _, walksAt_nil hinv h.multi rfl, hused, hcode⟩⟩

/-! ### Decoding a bit string (R174) -/

/-- What the host makes of one DEC_BIT that did not raise (R255). -/
theorem decodeSymbols_cons {bit : Bool} {xs : List Byte} (h : (issue (.decBit bit) s).lastErr = 0#8)
    (ht : decodeSymbols bits (issue (.decBit bit) s) = .ok (t, xs)) :
    decodeSymbols (bit :: bits) s =
      .ok (t, if (issue (.decBit bit) s).symValid then symOf (issue (.decBit bit) s).res0 :: xs
        else xs) := by
  simp only [decodeSymbols, if_pos h, ht]

/-- Every bit string decodes: the path so far and the string together are whole codes and a rest
that no code begins, which is the path of the walk. -/
theorem WalksAt.decodes (bits : List Bool) : ∀ {s : State} {q : List Bool}, WalksAt s q →
    ∃ t xs r, decodeSymbols bits s = .ok (t, xs) ∧ WalksAt t r ∧
      (∀ x, (s.codeAt x).used = true → ¬ s.codePath x <+: r) ∧
      (∀ x ∈ xs, (s.codeAt x).used = true) ∧ q ++ bits = xs.flatMap s.codePath ++ r := by
  induction bits with
  | nil =>
    exact fun {s q} h => ⟨s, [], q, rfl, h, fun _ => h.not_code_prefix, List.forall_mem_nil _,
      List.append_nil q⟩
  | cons bit bits ih =>
    intro s q h
    obtain ⟨hread, hbit⟩ := h.issue_decBit bit
    rcases hbit with ⟨hsym, hwalk⟩ | ⟨x, hsym, hres, hwalk, hused, hcode⟩
    · obtain ⟨t, xs, r, hdec, ht, hr, hxs, hsplit⟩ := ih hwalk
      simp only [hread.codeAt, hread.codePath] at hr hxs hsplit
      refine ⟨t, xs, r, ?_, ht, hr, hxs, ?_⟩
      · rw [decodeSymbols_cons hread.lastErr hdec, hsym]
        rfl
      · rw [← hsplit, List.append_assoc, List.singleton_append]
    · obtain ⟨t, xs, r, hdec, ht, hr, hxs, hsplit⟩ := ih hwalk
      simp only [hread.codeAt, hread.codePath] at hr hxs hsplit
      refine ⟨t, x :: xs, r, ?_, ht, hr, List.forall_mem_cons.2 ⟨hused, hxs⟩, ?_⟩
      · rw [decodeSymbols_cons hread.lastErr hdec, hsym, hres]
        rfl
      · rw [List.flatMap_cons, hcode, List.append_assoc, ← hsplit, List.append_assoc,
          List.singleton_append, List.nil_append]

/-- If no code begins another, a string has one reading as whole codes and a rest that no code
begins. -/
theorem codes_append_inj {code : Byte → List Bool} {used : Byte → Prop}
    (hfree : ∀ x y, used x → used y → code x <+: code y → x = y) (hq : ∀ x, used x → ¬ code x <+: q)
    (hr : ∀ x, used x → ¬ code x <+: r) : ∀ {xs ys : List Byte}, (∀ x ∈ xs, used x) →
    (∀ y ∈ ys, used y) → xs.flatMap code ++ q = ys.flatMap code ++ r → xs = ys ∧ q = r := by
  have hbegins {x : Byte} {xs : List Byte} {p : List Bool} :
      code x <+: (x :: xs).flatMap code ++ p := by
    rw [List.flatMap_cons, List.append_assoc]
    exact List.prefix_append _ _
  intro xs
  induction xs with
  | nil =>
    intro ys _ hys heq
    cases ys with
    | nil => exact ⟨rfl, heq⟩
    | cons y ys =>
      obtain ⟨hy, -⟩ := List.forall_mem_cons.1 hys
      rw [List.flatMap_nil, List.nil_append] at heq
      exact absurd (heq ▸ hbegins) (hq y hy)
  | cons x xs ih =>
    intro ys hxs hys heq
    obtain ⟨hx, hxs'⟩ := List.forall_mem_cons.1 hxs
    cases ys with
    | nil =>
      rw [List.flatMap_nil, List.nil_append] at heq
      exact absurd (heq ▸ hbegins) (hr x hx)
    | cons y ys =>
      obtain ⟨hy, hys'⟩ := List.forall_mem_cons.1 hys
      have hxy : x = y := by
        rcases List.prefix_or_prefix_of_prefix (heq ▸ hbegins) (hbegins (x := y)) with hpre | hpre
        · exact hfree x y hx hy hpre
        · exact (hfree y x hy hx hpre).symm
      subst hxy
      rw [List.flatMap_cons, List.flatMap_cons, List.append_assoc, List.append_assoc,
        List.append_cancel_left_eq] at heq
      obtain ⟨rfl, rfl⟩ := ih hxs' hys' heq
      exact ⟨rfl, rfl⟩

/-- From the root the codes of bytes, and a rest that no code begins, decode to those bytes with the
walk at the end of the rest. -/
theorem WalksAt.decodes_codes (h : WalksAt s []) {xs : List Byte}
    (hxs : ∀ x ∈ xs, (s.codeAt x).used = true)
    (hq : ∀ x, (s.codeAt x).used = true → ¬ s.codePath x <+: q) :
    ∃ t, decodeSymbols (xs.flatMap s.codePath ++ q) s = .ok (t, xs) ∧ WalksAt t q := by
  obtain ⟨t, ys, r, hdec, ht, hr, hys, hsplit⟩ := h.decodes (xs.flatMap s.codePath ++ q)
  obtain ⟨rfl, rfl⟩ := codes_append_inj h.code_eq_of_prefix hq hr hxs hys hsplit
  exact ⟨t, hdec, ht⟩

/-- DEC_END after a whole number of codes succeeds, and in the middle of one it does not (R173). -/
theorem WalksAt.exec_decEnd (h : WalksAt s q) :
    ∃ u, exec .decEnd s = .next u ∧ (q = [] → u.lastErr = 0#8 ∧ u.res1 = 0#32) ∧
      (q ≠ [] → u.lastErr = 5#8) := by
  obtain ⟨-, hdepth⟩ := h.walk
  by_cases hd : s.walkDepth = 0#8
  · rw [hd] at hdepth
    exact ⟨_, exec_decEnd_atRoot (.inr ⟨h.multi, hd⟩), fun _ => ⟨rfl, rfl⟩,
      fun hq => absurd (List.length_eq_zero_iff.1 hdepth) hq⟩
  · refine ⟨_, exec_decEnd_truncated h.multi hd, fun hq => ?_, fun _ => rfl⟩
    rw [hq] at hdepth
    exact absurd (BitVec.eq_of_toNat_eq hdepth.symm) hd

/-- Settles O41: whatever decodes is whole codes and the path of the walk, and a string has one such
reading. -/
theorem decodingACodeString : Obligations.DecodingACodeString := by
  intro s hinv hm hd
  have h := walksAt_nil hinv hm hd
  refine ⟨fun xs hxs => ?_, fun xs y q hxs hy hpre hne hproper => ?_, fun bits => ?_⟩
  · obtain ⟨t, hdec, ht⟩ := h.decodes_codes hxs (q := []) fun x hx => h.not_code_prefix hx
    obtain ⟨u, hu, hend, -⟩ := ht.exec_decEnd
    rw [List.append_nil] at hdec
    exact ⟨t, u, hdec, hu, hend rfl⟩
  · obtain ⟨t, hdec, ht⟩ := h.decodes_codes hxs (q := q) fun x hx hxq => by
      obtain rfl := h.code_eq_of_prefix x y hx hy (hxq.trans hpre)
      exact hproper (hpre.eq_of_length_le hxq.length_le)
    obtain ⟨u, hu, -, hend⟩ := ht.exec_decEnd
    exact ⟨t, u, hdec, hu, hend hne⟩
  · obtain ⟨t, xs, r, hdec, ht, -, hxs, hsplit⟩ := h.decodes bits
    obtain ⟨-, hdepth⟩ := ht.walk
    exact ⟨t, xs, r, hdec, hxs, hsplit, hdepth⟩

end Sys2Proof.Machine
end

section
/-! The host's codec on one block and back on another (R175, R253–R255): the header carries FREQ,
FREQ gives the tree, and the tree gives the codes. -/

namespace Sys2Proof.Machine

variable {s t counted : State} {x b : Byte} {buffer out : List Byte} {code : List Bool}
  {pairs : List (Byte × Nat)}

/-! ### The header's tokens (R254) -/

/-- Parsing the tokens of pairs gives the pairs back. -/
theorem parseHeader_headerTokens (pairs : List (Byte × Nat)) :
    parseHeader (headerTokens pairs) = .ok pairs := by
  induction pairs with
  | nil => rfl
  | cons p rest ih =>
    obtain ⟨b, f⟩ := p
    have hb : ¬ 255 < b.toNat := by have := b.isLt; omega
    have htokens : headerTokens ((b, f) :: rest) = .int b.toNat :: .int f :: headerTokens rest :=
      rfl
    rw [htokens, parseHeader, if_neg hb, ih, BitVec.ofNat_toNat, BitVec.setWidth_eq]

theorem headerTokens_ne_nil (h : pairs ≠ []) : headerTokens pairs ≠ [] := by
  obtain ⟨p, rest, rfl⟩ := List.exists_cons_of_ne_nil h
  exact List.cons_ne_nil _ _

/-! ### FREQ as the header's pairs (R254) -/

/-- FREQ is what its entries are. -/
theorem freq_eq_of_freqAt_eq (h : ∀ b, t.freqAt b = s.freqAt b) : t.freq = s.freq := by
  refine Vector.ext fun i hi => ?_
  have hib := h (BitVec.ofNat 8 i)
  simpa only [State.freqAt, BitVec.toNat_ofNat, Nat.mod_eq_of_lt hi] using hib

/-- The bytes of non-zero frequency in ascending order, each with its frequency (R254). -/
def State.freqPairs (s : State) : List (Byte × Nat) :=
  (presentBytes s.freq).map fun b => (b, (s.freqAt b).toNat)

theorem freqPairs_eq_nil_iff : s.freqPairs = [] ↔ ∀ b, s.freqAt b = 0#24 := by
  rw [State.freqPairs, List.map_eq_nil_iff, List.eq_nil_iff_forall_not_mem]
  exact forall_congr' fun b => (not_congr mem_presentBytes).trans not_not

/-- SETF of a frequency that fits writes that entry of FREQ alone (R92, R113). -/
theorem issue_setf_of_fits {f : Nat} (hp : s.params.wf = true) (hf : f < 2 ^ s.params.fw) :
    (issue (.setFreq b) (putData (BitVec.ofNat 32 f) s)).lastErr = 0#8 ∧
      (issue (.setFreq b) (putData (BitVec.ofNat 32 f) s)).params = s.params ∧
      ((issue (.setFreq b) (putData (BitVec.ofNat 32 f) s)).freqAt b).toNat = f ∧
      ∀ c, c ≠ b → (issue (.setFreq b) (putData (BitVec.ofNat 32 f) s)).freqAt c = s.freqAt c := by
  have hle := two_pow_fw_le hp
  have hdata : (BitVec.ofNat 32 f).toNat = f := Nat.mod_eq_of_lt (by omega)
  have hfits : (BitVec.ofNat 32 f).toNat < 2 ^ s.params.fw := hdata.symm ▸ hf
  rw [issue_of_exec (exec_setFreq_ok b hfits)]
  refine ⟨rfl, rfl, ?_, fun c hc => ?_⟩
  · rw [freqAt_clearPending, freqAt_complete, freqAt_invalidate, freqAt_setFreqAt_same]
    exact (dataAsFreq_toNat (s := putData (BitVec.ofNat 32 f) s) hp hfits).trans hdata
  · rw [freqAt_clearPending, freqAt_complete, freqAt_invalidate, freqAt_setFreqAt_other _ _ hc]
    rfl

/-- A pair whose SETF succeeds is loaded before the rest. -/
theorem loadPairs_cons {f : Nat} (hf : f < 2 ^ 32)
    (h : (issue (.setFreq b) (putData (BitVec.ofNat 32 f) s)).lastErr = 0#8) :
    loadPairs ((b, f) :: pairs) s =
      loadPairs pairs (issue (.setFreq b) (putData (BitVec.ofNat 32 f) s)) := by
  rw [loadPairs, if_neg (Nat.not_le.2 hf)]
  exact if_neg (h ▸ (code_ne_zero .freqOverflow).symm)

/-- Loading pairs that fit writes the entries of their bytes alone. -/
theorem loadPairs_of_fits {f : Byte → Nat} (bytes : List Byte) : ∀ {s : State},
    s.params.wf = true → (∀ b ∈ bytes, f b < 2 ^ s.params.fw) →
    ∃ t, loadPairs (bytes.map fun b => (b, f b)) s = .ok t ∧ t.params = s.params ∧
      (∀ b ∈ bytes, (t.freqAt b).toNat = f b) ∧ ∀ b, b ∉ bytes → t.freqAt b = s.freqAt b := by
  induction bytes with
  | nil => exact fun {s} _ _ => ⟨s, rfl, rfl, List.forall_mem_nil _, fun _ _ => rfl⟩
  | cons x rest ih =>
    intro s hp hfit
    obtain ⟨hx, hrest⟩ := List.forall_mem_cons.1 hfit
    have hle := two_pow_fw_le hp
    obtain ⟨herr, hparams, hsame, hother⟩ := issue_setf_of_fits (b := x) hp hx
    obtain ⟨t, ht, htparams, hin, hout⟩ := ih (hparams ▸ hp) (by rw [hparams]; exact hrest)
    refine ⟨t, (loadPairs_cons (by omega) herr).trans ht, htparams.trans hparams, fun c hc => ?_,
      fun c hc => ?_⟩
    · by_cases hcr : c ∈ rest
      · exact hin c hcr
      · obtain rfl := (List.mem_cons.1 hc).resolve_right hcr
        rw [hout c hcr, hsame]
    · obtain ⟨hcx, hcr⟩ := not_or.1 (mt List.mem_cons.2 hc)
      rw [hout c hcr, hother c hcx]

/-- Loading the pairs of FREQ into a cleared table gives FREQ. -/
theorem loadPairs_freqPairs (hp : t.params.wf = true)
    (hfit : ∀ b, (s.freqAt b).toNat < 2 ^ t.params.fw) :
    ∃ u, loadPairs s.freqPairs (issue .clearFreq t) = .ok u ∧ u.params = t.params ∧
      u.freq = s.freq := by
  have hparams : (issue .clearFreq t).params = t.params := by rw [issue_clearFreq]; rfl
  obtain ⟨u, hu, huparams, hin, hout⟩ := loadPairs_of_fits (s := issue .clearFreq t)
    (f := fun b => (s.freqAt b).toNat) (presentBytes s.freq) (hparams ▸ hp)
    fun b _ => hparams ▸ hfit b
  refine ⟨u, hu, huparams.trans hparams, freq_eq_of_freqAt_eq fun b => ?_⟩
  by_cases hb : b ∈ presentBytes s.freq
  · exact BitVec.eq_of_toNat_eq (hin b hb)
  · rw [hout b hb, freqAt_issue_clearFreq]
    exact (not_not.1 (mt mem_presentBytes.2 hb)).symm

/-! ### EncodeBuffer (R253) -/

/-- The codes BUILD makes depend on FREQ alone (R137). -/
theorem codePath_issue_build (h : t.freq = s.freq) :
    (issue .build t).codePath = (issue .build s).codePath := by
  have hcodes : (issue .build t).codes = (issue .build s).codes :=
    congrArg (fun freq => (buildTree freq).codes) h
  exact funext fun b => congrArg CodeEntry.path (codeAt_congr hcodes b)

/-- Exactly the bytes of a counted buffer have codes after BUILD. -/
theorem used_issue_build (hcount : ∀ b, (s.freqAt b).toNat = buffer.count b) :
    ((issue .build s).codeAt b).used = true ↔ b ∈ buffer :=
  ((treeMatchesFreq_issue_build s).used_iff (afterBuild_tstate_ne_none s)).trans
    (freqAt_ne_zero_iff_mem (hcount b))

/-- The header is the pairs of the counted table, and the code the codes of the tree BUILD makes of
it. -/
theorem encodeBuffer_of_counted (hcounted : countBuffer buffer (issue .clearFreq s) = .ok counted)
    (hcount : ∀ b, (counted.freqAt b).toNat = buffer.count b) :
    ∃ t, encodeBuffer buffer s =
      .ok (t, counted.freqPairs, buffer.flatMap (issue .build counted).codePath) := by
  obtain ⟨r, hr⟩ : ∃ r, (readPairs allBytes (issue .build counted)).1 = r := ⟨_, rfl⟩
  have hread : ReadsOnly (issue .build counted) r := hr ▸ readsOnly_readPairs allBytes rfl
  have hpairs : (readPairs allBytes (issue .build counted)).2 = counted.freqPairs :=
    readPairs_pairs allBytes (issue .build counted)
  have htree := (treeMatchesFreq_issue_build counted).congr hread.freq hread.tree
  have hn : r.tstate ≠ .none := hread.tstate ▸ afterBuild_tstate_ne_none counted
  have hused (x : Byte) (hx : x ∈ buffer) : (r.codeAt x).used = true := by
    rw [hread.codeAt]; exact (used_issue_build hcount).2 hx
  obtain ⟨-, hcode⟩ := encodeSymbols_of_used buffer hread.lastErr hn hused
  refine ⟨(encodeSymbols buffer r).1, ?_⟩
  rw [encodeBuffer_of_used htree hcounted hr hused, hcode, hread.codePath, hpairs]

/-! ### DecodeBuffer (R255) -/

/-- What the host takes for the buffer after DEC_END: on a SINGLE tree the symbol as often as RES1
says, otherwise the symbols emitted (R255). -/
def State.decoded (t : State) (out : List Byte) : List Byte :=
  if t.tstate = .single then List.replicate t.res1.toNat (symOf t.res0) else out

/-- DecodeBuffer of a header that loads and a code that decodes. -/
theorem decodeBuffer_of_loaded {loaded walked : State} (hne : pairs ≠ [])
    (hload : loadPairs pairs (issue .clearFreq s) = .ok loaded)
    (hdec : decodeSymbols code (issue .build loaded) = .ok (walked, out))
    (hend : (issue .decEnd walked).lastErr = 0#8) :
    decodeBuffer (headerTokens pairs) code s =
      .ok (issue .decEnd walked, (issue .decEnd walked).decoded out) := by
  have hok : (issue .decEnd walked).lastErr ≠ ErrCode.truncatedCode.code :=
    hend ▸ (code_ne_zero .truncatedCode).symm
  simp only [decodeBuffer, if_neg (headerTokens_ne_nil hne), parseHeader_headerTokens, hload, hdec,
    if_neg hok, State.decoded]
  split <;> rfl

theorem issue_decEnd_single (h : s.tstate = .single) :
    issue .decEnd s = clearPending (complete false
      { s with
        res0 := (s.nodeAt s.root).byte.setWidth 32, res1 := (s.nodeAt s.root).freq }) :=
  (issue_of_exec (exec_decEnd_single h)).trans rfl

theorem issue_decEnd_atRoot (h : s.tstate = .multi) (hd : s.walkDepth = 0#8) :
    issue .decEnd s = clearPending (complete false { s with res0 := 0#32, res1 := 0#32 }) :=
  (issue_of_exec (exec_decEnd_atRoot (.inr ⟨h, hd⟩))).trans rfl

/-- BUILD of one symbol: a SINGLE tree whose root is the leaf of that symbol (R132). -/
theorem issue_build_of_one (hb : s.freqAt b ≠ 0#24) (hother : ∀ c, c ≠ b → s.freqAt c = 0#24) :
    (issue .build s).tstate = .single ∧
      (issue .build s).nodeAt (issue .build s).root = leafNode b (s.freqAt b) := by
  obtain ⟨hsingle, hroot, hT⟩ := afterBuild_of_one hb hother
  have hnodes : (buildTree s.freq).nodes = [leafNode b (s.freqAt b)] := hT.entries
  have hroot' : (issue .build s).root = 0#9 := hroot
  refine ⟨hsingle, ?_⟩
  rw [hroot', nodeAt_issue_build s _ (by rw [hnodes]; exact Nat.one_pos), hnodes]
  rfl

/-- A buffer of one distinct byte has the empty code, and DEC_END gives the byte and its count. -/
theorem decode_of_one (hcount : ∀ b, (s.freqAt b).toNat = buffer.count b) (hne : buffer ≠ [])
    (hall : ∀ b ∈ buffer, b = x) :
    buffer.flatMap (issue .build s).codePath = [] ∧
      (issue .decEnd (issue .build s)).lastErr = 0#8 ∧
      (issue .decEnd (issue .build s)).decoded [] = buffer := by
  have honly := freqAt_ne_zero_iff_eq hcount hne hall
  obtain ⟨hsingle, hroot⟩ := issue_build_of_one ((honly x).2 rfl)
    fun c hc => not_not.1 (mt (honly c).1 hc)
  refine ⟨List.flatMap_eq_nil_iff.2 fun c hc => ?_, ?_, ?_⟩
  · exact (treeMatchesFreq_issue_build s).codePath_single hsingle ((used_issue_build hcount).2 hc)
  · rw [issue_decEnd_single hsingle]
    rfl
  · have hlen : ((s.freqAt x).setWidth 32).toNat = buffer.length := by
      rw [BitVec.toNat_setWidth_of_le (by decide), hcount,
        List.count_eq_length.2 fun c hc => (hall c hc).symm]
    have hend : (issue .decEnd (issue .build s)).tstate = .single := by
      rw [issue_decEnd_single hsingle]
      exact hsingle
    rw [State.decoded, if_pos hend, issue_decEnd_single hsingle, hroot]
    show List.replicate ((s.freqAt x).setWidth 32).toNat (symOf (x.setWidth 32)) = buffer
    rw [hlen, symOf_setWidth]
    exact (List.eq_replicate_of_mem hall).symm

/-- The codes of a buffer of two or more distinct bytes decode to the buffer. -/
theorem decode_of_multi (hinv : Inv (issue .build s)) (hm : (issue .build s).tstate = .multi)
    (hcount : ∀ b, (s.freqAt b).toNat = buffer.count b) :
    ∃ walked, decodeSymbols (buffer.flatMap (issue .build s).codePath) (issue .build s) =
        .ok (walked, buffer) ∧
      (issue .decEnd walked).lastErr = 0#8 ∧ (issue .decEnd walked).decoded buffer = buffer := by
  have hwalk := walksAt_nil hinv hm rfl
  obtain ⟨walked, hdec, hw⟩ := hwalk.decodes_codes (xs := buffer) (q := [])
    (fun x hx => (used_issue_build hcount).2 hx) fun x hx => hwalk.not_code_prefix hx
  obtain ⟨-, hdepth⟩ := hw.walk
  have hd : walked.walkDepth = 0#8 := BitVec.eq_of_toNat_eq hdepth.symm
  rw [List.append_nil] at hdec
  refine ⟨walked, hdec, ?_⟩
  rw [issue_decEnd_atRoot hw.multi hd]
  have hns : walked.tstate ≠ .single := by rw [hw.multi]; decide
  exact ⟨rfl, if_neg hns⟩

/-- On a block whose FREQ counts the buffer, the buffer's codes and DEC_END give the buffer. -/
theorem decode_of_counted (hp : s.params.wf = true) (hb : FreqBounded s)
    (hcount : ∀ b, (s.freqAt b).toNat = buffer.count b) (hne : buffer ≠ []) :
    ∃ walked out, decodeSymbols (buffer.flatMap (issue .build s).codePath) (issue .build s) =
        .ok (walked, out) ∧
      (issue .decEnd walked).lastErr = 0#8 ∧ (issue .decEnd walked).decoded out = buffer := by
  obtain ⟨x, hx⟩ := List.exists_mem_of_ne_nil buffer hne
  by_cases hall : ∀ b ∈ buffer, b = x
  · obtain ⟨hcode, hend⟩ := decode_of_one hcount hne hall
    exact ⟨issue .build s, [], by rw [hcode]; rfl, hend⟩
  · push Not at hall
    obtain ⟨c, hc, hcx⟩ := hall
    have hm : (issue .build s).tstate = .multi := buildTree_of_two
      ((freqAt_ne_zero_iff_mem (hcount c)).2 hc) ((freqAt_ne_zero_iff_mem (hcount x)).2 hx) hcx
    obtain ⟨walked, h⟩ := decode_of_multi (inv_issue_build hp hb) hm hcount
    exact ⟨walked, buffer, h⟩

/-- Settles O42: the header loads FREQ of the encoder into the decoder, whose BUILD then gives the
encoder's codes. -/
theorem encodeThenDecodeIsIdentity : Obligations.EncodeThenDecodeIsIdentity := by
  intro s s' buffer hp hp' hfw hfit
  obtain ⟨counted, hcounted, hcount⟩ := (countingABuffer s buffer hp).1 hfit
  obtain ⟨t, henc⟩ := encodeBuffer_of_counted hcounted hcount
  have hlt (b : Byte) : (counted.freqAt b).toNat < 2 ^ s'.params.fw := by
    have := hfit b
    have := Nat.two_pow_pos s.params.fw
    rw [hcount, hfw]
    omega
  by_cases hnil : buffer = []
  · subst hnil
    have hpairs : counted.freqPairs = [] := by
      rw [freqPairs_eq_nil_iff]
      exact freqAt_eq_zero_of_nil hcount
    rw [hpairs] at henc
    exact ⟨t, _, _, s', henc, rfl⟩
  · obtain ⟨loaded, hload, hparams, hfreq⟩ := loadPairs_freqPairs hp' hlt
    have hfreqAt (b : Byte) : loaded.freqAt b = counted.freqAt b := freqAt_congr hfreq b
    obtain ⟨walked, out, hdec, hend, hout⟩ := decode_of_counted (hparams ▸ hp')
      (fun b => by rw [hfreqAt, hparams]; exact hlt b) (fun b => by rw [hfreqAt, hcount]) hnil
    have hne : counted.freqPairs ≠ [] := fun hnone => hnil <|
      List.eq_nil_iff_forall_not_mem.2 fun b hb =>
        (freqAt_ne_zero_iff_mem (hcount b)).2 hb (freqPairs_eq_nil_iff.1 hnone b)
    rw [codePath_issue_build hfreq] at hdec
    refine ⟨t, _, _, issue .decEnd walked, henc, ?_⟩
    rw [decodeBuffer_of_loaded hne hload hdec hend, hout]

end Sys2Proof.Machine
end

section
/-! Errors (60_exceptions.md): a command that ends with an error has done error entry and nothing
else (R200–R211), and what clears the sticky bits ERR_STICKY and OVR (R212, R230). -/

namespace Sys2Proof.Machine

variable {s t : State} {i : Instr} {w : Word} {e : ErrCode}

/-! ### EXEC that ends with an error -/

/-- A command that ends with an error took the error path: every other path completes (R45). -/
theorem Ran.raises_of_lastErr (h : Ran s i t) (hne : t.lastErr ≠ 0#8) :
    ∃ e, Raises s i e ∧ t = raise e s := by
  cases h with
  | raised h => exact ⟨_, h, rfl⟩
  | _ => exact absurd rfl hne

/-- The causes of the errors of R201–R206, in a state that executes the word w. -/
inductive WordRaises (s : State) (w : Word) : ErrCode → Prop
  | illegal {x : IllegalWord} (hd : decode w = .error x) : WordRaises s w .illegalCmd
  | command {i : Instr} {e : ErrCode} (hd : decode w = .ok i) (h : Raises s i e) : WordRaises s w e

/-- A pending word with a cause for an error does error entry, and PENDING is cleared (R44, R45). -/
theorem WordRaises.engineStep (h : WordRaises s w e) (hw : s.pending = some w) :
    engineStep s = .next (clearPending (raise e s)) := by
  cases h with
  | illegal hd => exact engineStep_illegal hd hw
  | command hd h => simp only [Machine.engineStep, hw, execWord, hd, exec_of_raises h, retire_next]

/-- An error is left only by error entry, and only where it has its cause. -/
theorem wordRaises_of_engineStep (hw : s.pending = some w) (h : engineStep s = .next t)
    (hne : t.lastErr ≠ 0#8) : ∃ e, WordRaises s w e ∧ t = clearPending (raise e s) := by
  rcases engineStep_cases h with ⟨hnone, -⟩ | ⟨w', hw', hexec⟩
  · cases hnone.symm.trans hw
  cases hw'.symm.trans hw
  obtain ⟨u, rfl, ⟨i, hd, hran⟩ | ⟨x, hd, rfl⟩⟩ := execWord_ran hexec
  · obtain ⟨e, he, rfl⟩ := hran.raises_of_lastErr hne
    exact ⟨e, .command hd he, rfl⟩
  · exact ⟨_, .illegal hd, rfl⟩

/-- Settles O10: error entry writes the three error fields, and EXEC then clears PENDING. -/
theorem errorEntryIsPrecise : Obligations.ErrorEntryIsPrecise := by
  intro s t w hw h hne
  obtain ⟨e, -, rfl⟩ := wordRaises_of_engineStep hw h hne
  rfl

/-! ### Reissuing the word -/

/-- The state in which the word is reissued after its error. -/
def State.reissue (s : State) (w : Word) (e : ErrCode) : State :=
  { clearPending (raise e s) with pending := some w }

/-- No cause of an error looks at the error fields or at PENDING. -/
theorem Raises.reissue (h : Raises s i e) (w : Word) : Raises (s.reissue w e) i e := by
  cases h with
  | count_full h => exact .count_full h
  | setFreq_large h => exact .setFreq_large h
  | notBuilt h hi => exact .notBuilt h hi
  | unusedSymbol h hu => exact .unusedSymbol h hu
  | degenerateBit h => exact .degenerateBit h
  | truncatedCode h hd => exact .truncatedCode h hd

theorem WordRaises.reissue (h : WordRaises s w e) : WordRaises (s.reissue w e) w e := by
  cases h with
  | illegal hd => exact .illegal hd
  | command hd h => exact .command hd (h.reissue w)

/-- Settles O11: the cause is still there, and error entry writes what it wrote before. -/
theorem failedCommandFailsAgain : Obligations.FailedCommandFailsAgain := by
  intro s t w hw h hne
  obtain ⟨e, he, rfl⟩ := wordRaises_of_engineStep hw h hne
  exact he.reissue.engineStep rfl

/-! ### The codes and their causes -/

/-- Settles O12: LAST_ERR is the code of the error whose cause the state gives. -/
theorem errorCodesAndTheirCauses : Obligations.ErrorCodesAndTheirCauses := by
  intro s t i hexec hne
  obtain ⟨e, he, rfl⟩ := (ran_iff_exec.2 hexec).raises_of_lastErr hne
  cases he with
  | count_full h => exact .inl ⟨rfl, .inl ⟨_, rfl, h⟩⟩
  | setFreq_large h => exact .inl ⟨rfl, .inr ⟨_, rfl, h⟩⟩
  | notBuilt h hi => exact .inr (.inl ⟨rfl, h, hi⟩)
  | unusedSymbol h hu => exact .inr (.inr (.inl ⟨rfl, h, _, rfl, hu⟩))
  | truncatedCode h hd => exact .inr (.inr (.inr (.inl ⟨rfl, h, hd, rfl⟩)))
  | degenerateBit h => exact .inr (.inr (.inr (.inr ⟨rfl, h, _, rfl⟩)))

/-! ### What clears ERR_STICKY and OVR -/

/-- A sticky bit that is set in s is set in t. -/
structure StickyKept (s t : State) : Prop where
  errSticky : s.errSticky = true → t.errSticky = true
  ovr : s.ovr = true → t.ovr = true

/-- A step that keeps the sticky bits clears neither. -/
theorem StickyKept.not_cleared (h : StickyKept s t) :
    ¬ ((s.errSticky = true ∧ t.errSticky = false) ∨ (s.ovr = true ∧ t.ovr = false)) := by
  rintro (⟨hs, ht⟩ | ⟨hs, ht⟩)
  · exact Bool.false_ne_true (ht.symm.trans (h.errSticky hs))
  · exact Bool.false_ne_true (ht.symm.trans (h.ovr hs))

/-- A write to the window sets OVR or leaves it (R240). -/
theorem writeReg_ovr (off : Nat) (v : Word) (h : s.ovr = true) : (writeReg off v s).ovr = true := by
  rcases writeReg_cases off v s with hw | hw | hw | hw <;> rw [hw] <;> exact h

/-- An access leaves OVR set when its effect on a register does. -/
theorem busAccess_ovr {addr : Nat} {width : AccessWidth} {f : Nat → State → State}
    (h : busAccess addr width f s = .next t) (hs : s.ovr = true)
    (hf : ∀ off, (f off s).ovr = true) : t.ovr = true := by
  rcases busAccess_cases addr width f s with
    ⟨-, h'⟩ | ⟨off, -, h'⟩ | ⟨-, -, h'⟩ | ⟨-, -, h'⟩ <;> cases h'.symm.trans h
  · exact hf off
  · exact hs

/-- The host sets OVR and never clears it (R240). -/
theorem hostStep_ovr (h : hostStep s = .next t) (hs : s.ovr = true) : t.ovr = true := by
  unfold hostStep at h
  split at h
  · cases h; exact hs
  · exact busAccess_ovr h hs fun _ => hs
  · exact busAccess_ovr h hs fun off => writeReg_ovr off _ hs
  · cases h; exact hs

theorem hostStep_stickyKept (h : hostStep s = .next t) : StickyKept s t :=
  ⟨fun hs => by rw [hostStep_frame h]; exact hs, hostStep_ovr h⟩

/-- CLR_ERR is the only command that clears a sticky bit (R101, R212). -/
theorem Ran.stickyKept (h : Ran s i t) (hi : i ≠ .clrErr) : StickyKept s t := by
  cases h with
  | clrErr => exact absurd rfl hi
  | raised => exact ⟨fun _ => rfl, id⟩
  | _ => exact ⟨id, id⟩

/-- A step of the engine that does not keep the sticky bits has executed CLR_ERR (R44, R212). -/
theorem engineStep_stickyKept (h : engineStep s = .next t) :
    StickyKept s t ∨ (s.pending = some (encode .clrErr) ∧ t.pending = none) := by
  rcases engineStep_cases h with ⟨-, rfl⟩ | ⟨w, hw, hexec⟩
  · exact .inl ⟨id, id⟩
  obtain ⟨u, rfl, ⟨i, hd, hran⟩ | ⟨x, -, rfl⟩⟩ := execWord_ran hexec
  · by_cases hi : i = .clrErr
    · exact .inr ⟨by rw [hw, ← encode_of_decode hd, hi], rfl⟩
    · have kept := hran.stickyKept hi
      exact .inl ⟨kept.errSticky, kept.ovr⟩
  · exact .inl ⟨fun _ => rfl, id⟩

/-- Settles O13: a host step clears no sticky bit, and a step of the engine only by CLR_ERR. -/
theorem stickyBitsClearedOnlyByClrErrOrReset :
    Obligations.StickyBitsClearedOnlyByClrErrOrReset := by
  intro s t hstep hcleared
  rw [step_eq_agentStep] at hstep
  cases hm : s.mover <;> rw [hm] at hstep
  case host => exact absurd hcleared (hostStep_stickyKept hstep).not_cleared
  case engine => exact .inr ((engineStep_stickyKept hstep).resolve_left (·.not_cleared hcleared))
  case reset => exact .inl (turns_of_mover_reset hm)

end Sys2Proof.Machine
end

section
/-! The host's accesses while a command is pending (R240–R242): reads are exact in part and change
no block state, writes are dropped. -/

namespace Sys2Proof.Machine

variable {s : State} {off : Nat} {v : Word} {rest : List HostOp} {ts : List Agent}

/-! ### Accesses on a host turn of the schedule -/

theorem step_host_turn (ht : s.turns = .host :: ts) : step s = hostStep { s with turns := ts } := by
  simp only [step, ht]

/-- A read on a host turn, busy or not (R61). -/
theorem step_read (ht : s.turns = .host :: ts) (hoff : off < 256) (h4 : off % 4 = 0)
    (hhost : s.host = .read (s.params.base + off) .word :: rest) :
    step s = .next (hostRead off { s with host := rest, turns := ts }) := by
  rw [step_host_turn ht, hostStep, hhost]
  exact busAccess_register (s := { s with host := rest, turns := ts }) hostRead hoff h4

/-- A write on a host turn, busy or not (R61). -/
theorem step_write (ht : s.turns = .host :: ts) (hoff : off < 256) (h4 : off % 4 = 0)
    (hhost : s.host = .write (s.params.base + off) .word v :: rest) :
    step s = .next (writeReg off v { s with host := rest, turns := ts }) := by
  rw [step_host_turn ht, hostStep, hhost]
  exact busAccess_register (s := { s with host := rest, turns := ts }) _ hoff h4

/-! ### Reads while busy (R241) -/

/-- The bits of STATUS that are exact while busy are exact in every read. -/
theorem readReg_status_bit (s : State) {i : Nat} (hi : (exactMask .status).getLsbD i = true) :
    (readReg (regOffset .status) s).getLsbD i = s.statusWord.getLsbD i := by
  cases hb : s.busy with
  | false => rw [readReg_idle hb]; rfl
  | true =>
    simp only [readReg, regAt_regOffset, hb, if_true]
    exact mixFree_bit _ _ _ _ hi

/-- Settles O47: the value is what the offset reads as, which for a reserved offset or an exact
register does not depend on BUSY, and the read adds it to the replies. -/
theorem busyReadsExactParts : Obligations.BusyReadsExactParts := by
  intro s off rest ts hbusy ht hoff h4 hhost
  have hreg : ∀ r : Reg, exactMask r = BitVec.allOnes 32 → off = regOffset r →
      readReg off s = s.regWord r := by
    rintro r hr rfl; exact readReg_exact s hr
  obtain ⟨-, -, -, -, hovr, -⟩ := statusWord_fields s
  have hstatus : off = regOffset .status →
      (readReg off s).getLsbD 0 = true ∧ (readReg off s).getLsbD 6 = s.ovr := by
    rintro rfl
    exact ⟨(readReg_status_busy s).trans hbusy, (readReg_status_bit s (by decide)).trans hovr⟩
  refine ⟨readReg off s, if s.busy then s.draw + 1 else s.draw, ?_, hreg .id rfl,
    hreg .params rfl, hreg .cmd rfl, hreg .data rfl, hstatus,
    fun h => readReg_reserved s (.inl h), fun h => readReg_reserved s (.inr h)⟩
  rw [step_read ht hoff h4 hhost, hostRead, readReg_host_turns]
  rfl

/-! ### Writes while busy (R240, R242) -/

/-- Settles O49: while busy a write has no effect but to set OVR, at the offsets of CMD and DATA. -/
theorem busyWritesAreDropped : Obligations.BusyWritesAreDropped := by
  intro s off v rest ts hbusy ht hoff h4 hhost
  have hbusy' : ({ s with host := rest, turns := ts } : State).busy = true := hbusy
  rw [step_write ht hoff h4 hhost]
  refine ⟨?_, fun hcmd hdata => ?_⟩
  · rintro (rfl | rfl)
    · rw [writeReg_cmd, if_pos hbusy']
    · rw [writeReg_data, if_pos hbusy']
  · rw [writeReg_other v _ hcmd hdata]

/-- SET_FREQ of a DATA that fits, executed on an engine turn (R44, R113). -/
theorem step_setFreq_of_fits {sym : Byte} (hp : s.params.wf = true)
    (hw : s.pending = some (encode (.setFreq sym))) (hfit : s.data.toNat < 2 ^ s.params.fw)
    (ht : s.turns = .engine :: ts) :
    ∃ u, step s = .next u ∧ (u.freqAt sym).toNat = s.data.toNat ∧ u.data = s.data ∧
      u.ovr = s.ovr := by
  obtain ⟨u, hexec, hstep⟩ := step_of_decode hw (decodeEncodeRoundTrip _) (.inr ⟨ts, ht⟩)
  obtain ⟨-, -, hload⟩ := setFreqLoadsDataOrOverflows s.useTurn sym hp
  obtain ⟨u', hexec', hfreq, -, -, -, ⟨hdata, -⟩, ⟨-, hovr⟩, -⟩ := hload hfit
  cases hexec.symm.trans hexec'
  exact ⟨_, hstep, hfreq, hdata, hovr⟩

/-- Settles O53: the write is dropped, so the engine's turn loads the DATA that was there before. -/
theorem pendingSetFreqKeepsItsOperand : Obligations.PendingSetFreqKeepsItsOperand := by
  intro s t sym v rest ts hp hw hfit ht hhost hstep
  have hbusy : s.pending.isSome = true := by rw [hw]; rfl
  have hdropped := (busyWritesAreDropped s 0x0C v rest _ hbusy ht (by decide) (by decide) hhost).1
    (.inr rfl)
  cases hstep.symm.trans hdropped
  exact step_setFreq_of_fits (s := { s with host := rest, turns := .engine :: ts, ovr := true })
    hp hw hfit rfl

end Sys2Proof.Machine
end

section
/-! The schedule (R5, R230, R251): what a RESET step leaves, and that without one a pending command
comes to be executed. -/

namespace Sys2Proof.Machine

variable {s t u : State}

/-! ### RESET -/

theorem freqAt_resetBlock (s : State) (b : Byte) : (resetBlock s).freqAt b = 0#24 :=
  clearedFreq_get b

theorem resetBlock_invalidated (s : State) : Invalidated (resetBlock s) :=
  ⟨rfl, rfl, rfl, rfl, rfl, rfl, noCodes_get⟩

/-- WALK reads 0 where there is no tree (R31, R43). -/
theorem Invalidated.walkWord (h : Invalidated t) : t.walkWord = 0#32 := by
  obtain ⟨-, -, -, -, hnode, hdepth, -⟩ := h
  rw [State.walkWord, hnode, hdepth]
  rfl

/-- Of STATUS only AT_ROOT is set after reset (R232). -/
theorem resetBlock_statusWord (s : State) : (resetBlock s).statusWord = 0x00000010#32 :=
  calc (resetBlock s).statusWord = State.reset.statusWord := rfl
    _ = 0x00000010#32 := by decide

/-- Settles O54: the reset agent's step is `resetBlock`, which keeps only what is outside the
block. -/
theorem resetLoadsResetValues : Obligations.ResetLoadsResetValues := by
  intro s ts ht
  have hstep : step s = .next (resetBlock { s with turns := ts }) := by
    simp only [step, ht, resetStep]
  exact ⟨_, hstep, freqAt_resetBlock _, resetBlock_invalidated _, rfl, rfl, rfl, rfl, rfl, rfl, rfl,
    rfl, rfl, resetBlock_statusWord _, (resetBlock_invalidated _).treeWord,
    (resetBlock_invalidated _).walkWord, rfl, rfl, rfl, rfl⟩

/-! ### Host steps while a command is pending -/

/-- The access has an answer: it reaches a register, or the platform gives a bus error (R10,
R61). -/
def Answered (p : Params) (addr : Nat) (width : AccessWidth) : Prop :=
  (∃ off, classify p addr width = .register off) ∨
    (classify p addr width = .unsupported ∧ p.busSubword = .busError)

/-- The operation has a step. -/
def HasStep (p : Params) : HostOp → Prop
  | .read addr width | .write addr width _ => Answered p addr width
  | .poll => True

theorem busAccess_next {addr : Nat} {width : AccessWidth} (f : Nat → State → State)
    (h : Answered s.params addr width) : ∃ t, busAccess addr width f s = .next t := by
  unfold busAccess
  rcases h with ⟨off, hc⟩ | ⟨hc, hb⟩
  · exact ⟨f off s, by rw [hc]⟩
  · exact ⟨{ s with replies := s.replies ++ [.busError] }, by rw [hc, hb]⟩

/-- The host has a step when its next operation has one. -/
theorem hostStep_next (h : ∀ op ∈ s.host, HasStep s.params op) :
    ∃ t, hostStep s = .next t := by
  unfold hostStep
  cases hh : s.host with
  | nil => exact ⟨s, rfl⟩
  | cons op rest =>
    have hop : HasStep s.params op := h op (hh ▸ List.mem_cons_self)
    cases op with
    | read addr width => exact busAccess_next (s := { s with host := rest }) _ hop
    | write addr width v => exact busAccess_next (s := { s with host := rest }) _ hop
    | poll => exact ⟨_, rfl⟩

/-- The block is as it was but for OVR. -/
def SameButOvr (s t : State) : Prop :=
  t = { s with
    host := t.host, turns := t.turns, replies := t.replies, draw := t.draw, ovr := t.ovr }

theorem SameButOvr.trans (h : SameButOvr s t) (h' : SameButOvr t u) : SameButOvr s u := by
  unfold SameButOvr at h h' ⊢
  rw [h] at h'
  exact h'

/-- A host turn while a command is pending: it uses up the turn and leaves the block but for OVR. -/
theorem step_host_busy {ts : List Agent} (hb : s.busy = true) (ht : s.turns = .host :: ts)
    (hops : ∀ op ∈ s.host, HasStep s.params op) :
    ∃ t, step s = .next t ∧ SameButOvr s t ∧ t.turns = ts ∧ ∀ op ∈ t.host, op ∈ s.host := by
  obtain ⟨t, hstep⟩ := hostStep_next (s := { s with turns := ts }) hops
  obtain ⟨hframe, hhost⟩ := hostStep_while_busy (s := { s with turns := ts }) hb hstep
  have hturns : t.turns = ts := by rw [hframe]
  refine ⟨t, (step_host_turn ht).trans hstep, ?_, hturns, hhost⟩
  unfold SameButOvr
  rw [hturns]
  exact hframe

/-! ### The pending command is executed (R251) -/

/-- The turns of the host before the first turn of the engine, or all of them, leave the word
pending; then the engine moves. -/
theorem exists_exec_of_pending {w : Word} (ts : List Agent) : ∀ {s : State}, s.turns = ts →
    s.pending = some w → NoReset s → (∀ op ∈ s.host, HasStep s.params op) →
    ∃ k u, k ≤ ts.length ∧ Steps k s u ∧ SameButOvr s u ∧
      (u.turns = [] ∨ ∃ us, u.turns = .engine :: us) := by
  induction ts with
  | nil => exact fun {s} ht _ _ _ => ⟨0, s, Nat.le_refl _, .zero s, rfl, .inl ht⟩
  | cons a ts ih =>
    intro s ht hw hno hops
    cases a with
    | engine => exact ⟨0, s, Nat.zero_le _, .zero s, rfl, .inr ⟨ts, ht⟩⟩
    | reset => exact absurd (ht ▸ List.mem_cons_self) hno
    | host =>
      obtain ⟨t, hstep, hsame, hturns, hhost⟩ :=
        step_host_busy (by rw [State.busy, hw]; rfl) ht hops
      have hparams : t.params = s.params := step_params hstep
      have hpending : t.pending = some w := by rw [hsame]; exact hw
      have hno' : NoReset t := fun hr => hno (ht ▸ List.mem_cons_of_mem _ (hturns ▸ hr))
      have hops' : ∀ op ∈ t.host, HasStep t.params op := fun op hop =>
        hparams ▸ hops op (hhost op hop)
      obtain ⟨k, u, hk, hsteps, hsame', hengine⟩ := ih hturns hpending hno' hops'
      exact ⟨k + 1, u, Nat.succ_le_succ hk, .succ hstep hsteps, hsame.trans hsame', hengine⟩

/-- Settles O59: the host's turns leave the word pending, and the engine's turn executes it. -/
theorem pendingCommandIsEventuallyExecuted : Obligations.PendingCommandIsEventuallyExecuted := by
  intro s w hw hno hops
  obtain ⟨k, u, hk, hsteps, hsame, hengine⟩ := exists_exec_of_pending s.turns rfl hw hno hops
  have hpending : u.pending = some w := by rw [hsame]; exact hw
  obtain ⟨t, hstep, hexec, hnone⟩ := step_engine_pending hpending hengine
  exact ⟨k, u, t, hk, hsteps, hpending, hsame, hstep, hexec, hnone⟩

end Sys2Proof.Machine
end

section
/-! A stale tree is never used (R243): a change of FREQ leaves no tree. -/

namespace Sys2Proof.Machine

variable {s t : State} {i : Instr}

/-- The writers of FREQ invalidate the tree unless they raise. -/
theorem Ran.tstate_of_freq_writer (h : Ran s i t) (herr : t.lastErr = 0#8)
    (hi : i = .clearFreq ∨ (∃ b, i = .count b) ∨ ∃ b, i = .setFreq b) : t.tstate = .none := by
  rcases hi with rfl | ⟨b, rfl⟩ | ⟨b, rfl⟩ <;> cases h with
  | raised => exact absurd herr (code_ne_zero _)
  | _ => rfl

/-- Settles O44: a command that needs a tree finds none. -/
theorem staleTreeIsNeverUsed : Obligations.StaleTreeIsNeverUsed := by
  intro s t i hexec herr hi
  have hnone : t.tstate = .none := (ran_iff_exec.2 hexec).tstate_of_freq_writer herr hi
  exact ⟨hnone, fun j hj => ⟨_, exec_notBuilt hnone j hj, rfl⟩⟩

end Sys2Proof.Machine
end

section
/-! The header's tokens are the only ones the parser accepts (R254). -/

namespace Sys2Proof.Machine

variable {tokens : List Token}

theorem headerTokens_cons (b : Byte) (f : Nat) (pairs : List (Byte × Nat)) :
    headerTokens ((b, f) :: pairs) = .int b.toNat :: .int f :: headerTokens pairs := rfl

/-- A header has two tokens a pair, all of them integers. -/
theorem headerTokens_length (pairs : List (Byte × Nat)) :
    (headerTokens pairs).length = 2 * pairs.length := by
  induction pairs with
  | nil => rfl
  | cons p rest ih =>
    rw [headerTokens_cons, List.length_cons, List.length_cons, List.length_cons, ih]
    omega

theorem other_not_mem_headerTokens (pairs : List (Byte × Nat)) : .other ∉ headerTokens pairs := by
  simp [headerTokens]

/-- Where a header would have the byte value of a pair, its tokens have no number above 255. -/
theorem headerTokens_append_ne {v f : Nat} (hv : 255 < v) (rest : List Token)
    (pairs : List (Byte × Nat)) : ∀ pairs' : List (Byte × Nat),
    headerTokens pairs ++ .int v :: .int f :: rest ≠ headerTokens pairs' := by
  induction pairs with
  | nil =>
    rintro (_ | ⟨⟨b, g⟩, rest'⟩) h
    · cases h
    · have hb : v = b.toNat := Token.int.inj (List.cons.inj h).1
      have := b.isLt
      omega
  | cons p pairs ih =>
    rintro (_ | ⟨p', pairs'⟩) h
    · cases h
    · exact ih pairs' (List.cons.inj (List.cons.inj h).2).2

/-- The parser accepts a header's tokens and nothing else, and has one error. -/
theorem parseHeader_malformed_or_header (tokens : List Token) :
    parseHeader tokens = .error .malformedHeader ∨ ∃ pairs, tokens = headerTokens pairs := by
  induction tokens using parseHeader.induct with
  | case1 => exact .inr ⟨[], rfl⟩
  | case2 v f rest hv => exact .inl (by rw [parseHeader, if_pos hv])
  | case3 v f rest hv pairs hpairs ih =>
    obtain ⟨pairs', rfl⟩ := ih.resolve_left (by rw [hpairs]; exact nofun)
    refine .inr ⟨(BitVec.ofNat 8 v, f) :: pairs', ?_⟩
    rw [headerTokens_cons, BitVec.toNat_ofNat, Nat.mod_eq_of_lt (by omega)]
  | case4 v f rest hv e he ih =>
    have hrest : parseHeader rest = .error .malformedHeader :=
      ih.resolve_right fun ⟨pairs, hp⟩ => by
        rw [hp, parseHeader_headerTokens] at he
        cases he
    exact .inl (by rw [parseHeader, if_neg hv, hrest])
  | case5 tokens hnil hpair => exact .inl (by rw [parseHeader] <;> assumption)

theorem parseHeader_malformed (h : ∀ pairs, tokens ≠ headerTokens pairs) :
    parseHeader tokens = .error .malformedHeader :=
  (parseHeader_malformed_or_header tokens).resolve_right fun ⟨pairs, hp⟩ => h pairs hp

/-- Settles O43: tokens of odd number, with a non-integer or with a byte value above 255 are no
header's, and the parser accepts nothing else. -/
theorem headerCodec : Obligations.HeaderCodec := by
  refine ⟨readPairs_pairs allBytes, parseHeader_headerTokens, fun tokens hodd => ?_,
    fun tokens hother => ?_, fun pairs v f rest hv => ?_⟩ <;> refine parseHeader_malformed ?_
  · rintro pairs rfl
    rw [headerTokens_length] at hodd
    omega
  · rintro pairs rfl
    exact other_not_mem_headerTokens pairs hother
  · exact headerTokens_append_ne hv rest pairs

end Sys2Proof.Machine
end
